-- ==== Sys2Proof/Word.lean ====
section
/-! DEFINITION. Word.lean: the word types of the core (spec/00_scope.md R6, R7). -/

namespace Sys2Proof

/-- A data byte (R6: WORD_BITS = 8). -/
abbrev Byte := BitVec 8

/-- A program word (R6: INSN_WORD_BITS = 16). -/
abbrev Word16 := BitVec 16

/-- A data address (R6: DATA_ADDR_BITS = 12). -/
abbrev DAddr := BitVec 12

/-- A program address (R6: PC_BITS = 21). -/
abbrev PAddr := BitVec 21

/-- A table address (R6: TBLPTR_BITS = 22). -/
abbrev TAddr := BitVec 22

end Sys2Proof
end

