-- ==== Sys2Proof/Machine/Flags.lean ====
section
/-! DEFINITION. Machine/Flags.lean: the STATUS bits (spec/10_state.md R24), flag vectors (spec/00_scope.md R9) and every flag
computation of spec/40_arithmetic.md R130, R131 and spec/41_logic.md R160. -/

namespace Sys2Proof.Machine

/-- R9: a flag vector. -/
structure FlagVec where
  c : Bool
  dc : Bool
  z : Bool
  ov : Bool
  n : Bool
deriving DecidableEq, Repr

/-- R24: the flags at their bit positions: C 0, DC 1, Z 2, OV 3, N 4. -/
def FlagVec.toByte (fl : FlagVec) : Byte :=
  0#3 ++ BitVec.ofBool fl.n ++ BitVec.ofBool fl.ov ++ BitVec.ofBool fl.z ++ BitVec.ofBool fl.dc ++ BitVec.ofBool fl.c

/-- R9: no flag set; used where an instruction computes no flag vector. -/
def FlagVec.none : FlagVec := ⟨false, false, false, false, false⟩

/-! The flag sets of R9 as masks over the bits of R24. -/

def maskNone : Byte := 0x00#8
/-- [C, DC, Z, OV, N] -/
def maskAll : Byte := 0x1F#8
/-- [Z, N] -/
def maskZN : Byte := 0x14#8
/-- [C, Z, N] -/
def maskCZN : Byte := 0x15#8
/-- [C] -/
def maskC : Byte := 0x01#8
/-- [DC] -/
def maskDC : Byte := 0x02#8
/-- [Z] -/
def maskZ : Byte := 0x04#8
/-- [OV] -/
def maskOV : Byte := 0x08#8
/-- [N] -/
def maskN : Byte := 0x10#8

/-- R130: the 8-bit adder and its flags. -/
def add8 (a b : Byte) (cin : Bool) : Byte × FlagVec :=
  let s := a.toNat + b.toNat + cin.toNat
  let r := BitVec.ofNat 8 s
  (r, { c := decide (s > 0xFF)
        dc := decide (a.toNat % 16 + b.toNat % 16 + cin.toNat > 0xF)
        z := r == 0#8
        n := r.msb
        ov := a.msb == b.msb && r.msb != a.msb })

/-- R131: subtraction with a borrow-in, as addition of the complement. -/
def sub8 (x y : Byte) (bin : Bool) : Byte × FlagVec := add8 x (~~~y) (!bin)

/-- R160: Z and N of a result. -/
def logicFlags (r : Byte) : FlagVec := { FlagVec.none with z := r == 0#8, n := r.msb }

/-- R230, R232: Z and N of a result, with the bit rotated out as C. -/
def rotateFlags (r : Byte) (out : Bool) : FlagVec := { logicFlags r with c := out }

/-- R143: DAW's result and its C. -/
def decimalAdjust (w : Byte) (c dc : Bool) : Byte × Bool :=
  let v1 := if w.toNat % 16 > 9 ∨ dc = true then w.toNat + 0x06 else w.toNat
  let v2 := if v1 > 0x9F ∨ c = true then v1 + 0x60 else v1
  (BitVec.ofNat 8 v2, c || decide (v2 > 0xFF))

end Sys2Proof.Machine
end

