-- ==== Sys2Proof/Config.lean ====
section
/-! DEFINITION. Config.lean: the implementation parameters of spec/00_scope.md R6. The parameters with a value are constants;
the three OPEN ones are the fields of `Params`, carried by the state unchanged (log 1). -/

namespace Sys2Proof

/-- R6: the GPR region is 0x000 .. GPR_LIMIT - 1. -/
def Config.gprLimit : Nat := 0x300

/-- R6: the SFR region is SFR_BASE .. 0xFFF. -/
def Config.sfrBase : Nat := 0xF80

/-- R6: the number of entries of the return stack. -/
def Config.stackDepth : Nat := 31

/-- R6, R43: each byte of a program word that no image supplies (UNLOADED_WORD = 0xFFFF). -/
def Config.unloadedByte : Byte := 0xFF#8

/-- R6: the addresses of the port cells. -/
def Config.portA : DAddr := 0xF80#12
def Config.portB : DAddr := 0xF81#12
def Config.trisA : DAddr := 0xF92#12
def Config.trisB : DAddr := 0xF93#12

/-- What a HOST read gives for the bits of a cell that hold no value (R341 does not say). A free value: it has no body. Log 9. -/
opaque Config.hostUnknownByte : DAddr → Byte

/-- R6: the OPEN parameter POR_SFR_INIT. -/
inductive PorSfrInit where
  | zero
  | unknown
deriving DecidableEq, Repr

/-- R6: the three OPEN parameters, as plain data (log 1). -/
structure Params where
  /-- PROG_BYTES = 2 ^ (progLog + 1): exactly the powers of two from 2 to 2^21. -/
  progLog : Fin 21
  /-- EXT_READ as a table: the addresses it does not list read 0. -/
  extRead : List Host.Cell
  porSfrInit : PorSfrInit
deriving DecidableEq, Repr

/-- R6: PROG_BYTES. -/
def Params.progBytes (p : Params) : Nat := 2 ^ (p.progLog.val + 1)

/-- R6: the default of every OPEN parameter. -/
def Params.default : Params := { progLog := 20, extRead := [], porSfrInit := .zero }

end Sys2Proof
end

