-- ==== Sys2Proof/Machine/State.lean ====
section
/-! DEFINITION. Machine/State.lean: the state of the core (spec/10_state.md R20 to R53), why a step can stop, and the state after
a power-on reset (spec/70_reset_and_hazards.md R370). Plain data only. -/

namespace Sys2Proof.Machine

/-- R320: the kinds of the fault taxonomy. -/
inductive FaultKind where
  | addressingFault
  | valueRange
  | restrictedRegister
  | stackOverflow
  | stackUnderflow
deriving DecidableEq, Repr

/-- R211, R321: what a fatal fault keeps: pc0, the instruction words, MOVFF's two operands and the offending address (log 5). -/
structure FaultInfo where
  pc0 : PAddr
  words : List Word16
  fs : DAddr
  fd : DAddr
  address : DAddr
deriving DecidableEq, Repr

/-- R69, R329: why a step is refused. -/
inductive RefuseReason where
  /-- R69(a): an FSR update collides with a write of the same FSR. -/
  | fsrCollision
  /-- R69(b): a skip instruction writes PCL. -/
  | skipWritesPcl
  /-- R329, third case: a read of an SFR cell that holds no value since the power-on reset. -/
  | noValue (cell : DAddr)
deriving DecidableEq, Repr

/-- R50: what the Faulted run state keeps: a fatal fault (R321) or a refusal (R329). -/
inductive CoreFault where
  | fatal (kind : FaultKind) (info : FaultInfo)
  | refused (pc0 : PAddr) (reason : RefuseReason)
deriving DecidableEq, Repr

/-- R50: the run state. -/
inductive RunState where
  | running
  | halted
  | faulted (why : CoreFault)
deriving DecidableEq, Repr

/-- R51: a recoverable fault. -/
inductive StackFaultKind where
  | overflow
  | underflow
deriving DecidableEq, Repr

/-- R51: an entry of the stack-fault record: the kind and the pc0 of the instruction that raised it. -/
structure StackFault where
  kind : StackFaultKind
  pc0 : PAddr
deriving DecidableEq, Repr

/-- R52: the complete state of the core. `data` holds the storage cells of GPR and SFR (so W, STATUS, BSR and every other register
of R36 is in it), `prog` program memory, each a list of (address, byte) in canonical form. `noValue` marks the bits of SFR cells
that hold no value under POR_SFR_INIT = Unknown (R36, R329; log 6). `params` is the model's own field: the OPEN parameters of R6,
which no step changes (log 1). -/
structure State where
  data : List Host.Cell
  noValue : List Host.Cell
  pc : PAddr
  /-- STK[1..31]; entry n is at index n - 1. -/
  stk : Vector PAddr 31
  sp : BitVec 5
  stkful : Bool
  stkunf : Bool
  ws : Byte
  statuss : Byte
  bsrs : Byte
  prog : List Host.Cell
  run : RunState
  stackFaults : List StackFault
  params : Params
deriving DecidableEq, Repr

/-- Why `step` stops. -/
inductive Fault where
  /-- Raised by `step` on a Halted core: it has no step (R121, R338). Safe: the spec gives it no successor but a host reset. -/
  | coreHalted
  /-- Raised by `step` on a Faulted core: it has no step (R121, R321). Safe: the spec gives it no successor but a host reset. -/
  | coreFaulted (why : CoreFault)
deriving DecidableEq, Repr

/-- Why an instruction has no meaning. The spec's own refusals (R329) are not these: they have a successor, the Faulted state. -/
inductive Refusal where
  /-- Raised by `exec` for an instruction that has no meaning yet; no arm does. Safe: nothing can be proved of such a step. -/
  | notModelled (mnemonic : String)
deriving DecidableEq, Repr

/-- R370: the core as it is constructed, a power-on reset with the parameters at their defaults (R6; log 2). No data cell is listed
(each reads its POR value), every register holds a value, and program memory holds no image (R43; log 10). -/
def State.reset : State where
  data := []
  noValue := []
  pc := 0#21
  stk := Vector.replicate 31 0#21
  sp := 0#5
  stkful := false
  stkunf := false
  ws := 0x00#8
  statuss := 0x00#8
  bsrs := 0x00#8
  prog := []
  run := .running
  stackFaults := []
  params := Params.default

end Sys2Proof.Machine
end

