-- ==== Sys2Proof/Machine/Ops.lean ====
section
/-! DEFINITION. Machine/Ops.lean: the named operations over memory and registers: the sparse byte memory, the data cells, the
registers that are cells, the program memory, the return stack, the shadow slot, taking a fault and the software reset. -/

namespace Sys2Proof.Machine

/-! ## Byte memories -/

/-- The byte at an address: the listed one, or what an unlisted address reads as. -/
def Memory.get (dflt : Nat → Byte) (m : List Host.Cell) (a : Nat) : Byte :=
  match m with
  | [] => dflt a
  | c :: rest => if c.1 = a then c.2 else Memory.get dflt rest a

/-- Drops the entries of an address. -/
def Memory.erase (m : List Host.Cell) (a : Nat) : List Host.Cell := m.filter fun c => c.1 != a

/-- Puts an entry at its place in rising order, over an entry of the same address. -/
def Memory.insert (m : List Host.Cell) (a : Nat) (v : Byte) : List Host.Cell :=
  match m with
  | [] => [(a, v)]
  | c :: rest =>
    if a < c.1 then (a, v) :: c :: rest
    else if a = c.1 then (a, v) :: rest
    else c :: Memory.insert rest a v

/-- Writes a byte, keeping the canonical form: a byte that equals what an unlisted address reads as is not listed. -/
def Memory.set (dflt : Nat → Byte) (m : List Host.Cell) (a : Nat) (v : Byte) : List Host.Cell :=
  if v = dflt a then Memory.erase m a else Memory.insert m a v

/-- The canonical form: addresses strictly rising, and no entry equal to what an unlisted address reads as. -/
abbrev Memory.wf (dflt : Nat → Byte) (m : List Host.Cell) : Prop :=
  m.Pairwise (fun x y => x.1 < y.1) ∧ ∀ c ∈ m, c.2 ≠ dflt c.1

/-- What an unlisted data address reads as: the POR column of R36. -/
def porByte (a : Nat) : Byte :=
  if a = 0xFD0 then 0x1C#8 else if a = 0xF92 ∨ a = 0xF93 then 0xFF#8 else 0x00#8

/-- What an unlisted byte of program memory reads as: UNLOADED_WORD is 0xFFFF (R43). -/
def unloadedByte (_ : Nat) : Byte := Config.unloadedByte

/-- What an unlisted address of EXT_READ reads as, and an unlisted mark of `noValue`. -/
def zeroByte (_ : Nat) : Byte := 0x00#8

/-! ## Addresses of the named cells and views (R36) -/

abbrev portaAddr : DAddr := Config.portA
abbrev portbAddr : DAddr := Config.portB
abbrev trisaAddr : DAddr := Config.trisA
abbrev trisbAddr : DAddr := Config.trisB
abbrev rconAddr : DAddr := 0xFD0#12
abbrev statusAddr : DAddr := 0xFD8#12
abbrev fsr2lAddr : DAddr := 0xFD9#12
abbrev fsr2hAddr : DAddr := 0xFDA#12
abbrev bsrAddr : DAddr := 0xFE0#12
abbrev fsr1lAddr : DAddr := 0xFE1#12
abbrev fsr1hAddr : DAddr := 0xFE2#12
abbrev wregAddr : DAddr := 0xFE8#12
abbrev fsr0lAddr : DAddr := 0xFE9#12
abbrev fsr0hAddr : DAddr := 0xFEA#12
abbrev intconAddr : DAddr := 0xFF2#12
abbrev prodlAddr : DAddr := 0xFF3#12
abbrev prodhAddr : DAddr := 0xFF4#12
abbrev tablatAddr : DAddr := 0xFF5#12
abbrev tblptrlAddr : DAddr := 0xFF6#12
abbrev tblptrhAddr : DAddr := 0xFF7#12
abbrev tblptruAddr : DAddr := 0xFF8#12
abbrev pclAddr : DAddr := 0xFF9#12
abbrev pclathAddr : DAddr := 0xFFA#12
abbrev pclatuAddr : DAddr := 0xFFB#12
abbrev stkptrAddr : DAddr := 0xFFC#12
abbrev toslAddr : DAddr := 0xFFD#12
abbrev toshAddr : DAddr := 0xFFE#12
abbrev tosuAddr : DAddr := 0xFFF#12

/-! ## Data cells (R20 to R23) -/

/-- R20: `D[a]`, the raw byte of a storage cell. -/
def State.cell (s : State) (a : DAddr) : Byte := Memory.get porByte s.data a.toNat

/-- The bits of a cell that hold no value (R36, R329; log 6): none, but for a power-on reset with POR_SFR_INIT = Unknown. -/
def State.unset (s : State) (a : DAddr) : Byte := Memory.get zeroByte s.noValue a.toNat

/-- Writes the bits of a cell that `mask` selects, from `v`; the bits written hold a value from then on. -/
def State.setBits (a : DAddr) (mask v : Byte) (s : State) : State :=
  { s with
    data := Memory.set porByte s.data a.toNat ((s.cell a &&& ~~~mask) ||| (v &&& mask))
    noValue := Memory.set zeroByte s.noValue a.toNat (s.unset a &&& ~~~mask) }

/-- `D[a] <- v`. -/
def State.setCell (a : DAddr) (v : Byte) (s : State) : State := s.setBits a 0xFF#8 v

/-- R21, R24, R27: the registers of the pseudocode (R8). -/
def State.w (s : State) : Byte := s.cell wregAddr
def State.status (s : State) : Byte := s.cell statusAddr
def State.bsr (s : State) : Byte := s.cell bsrAddr

/-- R24: the flags of STATUS. -/
def State.flagC (s : State) : Bool := s.status.getLsbD 0
def State.flagDC (s : State) : Bool := s.status.getLsbD 1
def State.flagZ (s : State) : Bool := s.status.getLsbD 2
def State.flagOV (s : State) : Bool := s.status.getLsbD 3
def State.flagN (s : State) : Bool := s.status.getLsbD 4

/-- R25: `affect(mask, bits)`. -/
def State.affect (mask : Byte) (fl : FlagVec) (s : State) : State := s.setBits statusAddr mask fl.toByte

/-! ## Pointers (R29, R31) -/

/-- R29: FSR0, FSR1, FSR2. -/
inductive Fsr where
  | fsr0
  | fsr1
  | fsr2
deriving DecidableEq, Repr

def Fsr.low : Fsr → DAddr
  | .fsr0 => fsr0lAddr
  | .fsr1 => fsr1lAddr
  | .fsr2 => fsr2lAddr

def Fsr.high : Fsr → DAddr
  | .fsr0 => fsr0hAddr
  | .fsr1 => fsr1hAddr
  | .fsr2 => fsr2hAddr

/-- R102, R110: LFSR's field names FSR0..FSR2; there is no FSR3. -/
def Fsr.ofField (f : BitVec 2) : Option Fsr :=
  if f = 0#2 then some .fsr0 else if f = 1#2 then some .fsr1 else if f = 2#2 then some .fsr2 else none

/-- R29: Ptr(n) = [FSRnH[3:0], FSRnL]. -/
def State.ptr (s : State) (n : Fsr) : DAddr := (s.cell n.high).extractLsb 3 0 ++ s.cell n.low

/-- R29, R67: an FSR update writes FSRnL and FSRnH, clearing FSRnH[7:4]. -/
def State.setPtr (n : Fsr) (p : DAddr) (s : State) : State :=
  (s.setCell n.low (p.extractLsb 7 0)).setCell n.high (0#4 ++ p.extractLsb 11 8)

/-- R31: TBLPTR = [TBLPTRU[5:0], TBLPTRH, TBLPTRL]. -/
def State.tblptr (s : State) : TAddr :=
  (s.cell tblptruAddr).extractLsb 5 0 ++ s.cell tblptrhAddr ++ s.cell tblptrlAddr

/-- R290: SetTBLPTR writes all three bytes, clearing TBLPTRU[7:6]. -/
def State.setTblptr (v : TAddr) (s : State) : State :=
  ((s.setCell tblptrlAddr (v.extractLsb 7 0)).setCell tblptrhAddr (v.extractLsb 15 8)).setCell tblptruAddr
    (0#2 ++ v.extractLsb 21 16)

/-! ## The program counter and program memory (R37, R80, R81) -/

/-- v mod PROG_BYTES. -/
def modProg (p : Params) (v : PAddr) : PAddr := BitVec.ofNat 21 (v.toNat % p.progBytes)

/-- R37, R122: a value on its way into the PC is taken as v & ~1, then mod PROG_BYTES. -/
def wrapPc (p : Params) (v : PAddr) : PAddr := modProg p (v &&& ~~~1#21)

/-- R70, R262, R263: the address `size` bytes after the executing instruction. -/
def State.pcPlus (s : State) (size : PAddr) : PAddr := modProg s.params (s.pc + size)

/-- R81: the program memory byte at a byte address below PROG_BYTES. -/
def State.progByte (s : State) (a : Nat) : Byte := Memory.get unloadedByte s.prog a

/-- R80: the little-endian program word at a byte address. -/
def State.progWord (s : State) (a : PAddr) : Word16 := s.progByte (a.toNat + 1) ++ s.progByte a.toNat

/-- R81: ProgByte of a table address: EXT_READ at and above PROG_BYTES. -/
def State.tableByte (s : State) (t : TAddr) : Byte :=
  if t.toNat < s.params.progBytes then s.progByte t.toNat else Memory.get zeroByte s.params.extRead t.toNat

/-! ## The return stack and the shadow slot (R38 to R42) -/

/-- R39: T = STK[SP] when SP ≥ 1, 0 when SP = 0. -/
def State.tos (s : State) : PAddr := if s.sp = 0#5 then 0#21 else (s.stk[s.sp.toNat - 1]?).getD 0#21

/-- R39: replaces STK[SP] when SP ≥ 1; discarded when SP = 0. -/
def State.setTos (t : PAddr) (s : State) : State :=
  if s.sp = 0#5 then s else { s with stk := s.stk.setIfInBounds (s.sp.toNat - 1) t }

/-- R39: an STKPTR read. -/
def State.stkptr (s : State) : Byte := BitVec.ofBool s.stkful ++ BitVec.ofBool s.stkunf ++ 0#1 ++ s.sp

/-- R39: an STKPTR write: SP <- min(v[4:0], STACK_DEPTH); the flags can be cleared but not set. -/
def State.setStkptr (v : Byte) (s : State) : State :=
  { s with
    sp := BitVec.ofNat 5 (min (v.extractLsb 4 0).toNat Config.stackDepth)
    stkful := s.stkful && v.getLsbD 7
    stkunf := s.stkunf && v.getLsbD 6 }

/-- R326: appends (kind, pc0) to the stack-fault record. During execution the PC holds pc0 (R37). -/
def State.recordStackFault (k : StackFaultKind) (s : State) : State :=
  { s with stackFaults := s.stackFaults ++ [{ kind := k, pc0 := s.pc }] }

/-- R40: Push. -/
def State.push (v : PAddr) (s : State) : State :=
  if s.sp.toNat < Config.stackDepth then
    { s with
      sp := s.sp + 1#5
      stk := s.stk.setIfInBounds s.sp.toNat v
      stkful := s.stkful || decide (s.sp.toNat + 1 = Config.stackDepth) }
  else ({ s with stkful := true } : State).recordStackFault .overflow

/-- R41: the value Pop returns. -/
def State.popValue (s : State) : PAddr := s.tos

/-- R41: the state Pop leaves. The popped entry is not cleared. -/
def State.popped (s : State) : State :=
  if s.sp = 0#5 then ({ s with stkunf := true } : State).recordStackFault .underflow
  else { s with sp := s.sp - 1#5 }

/-- R42: CALL with s = 1 saves W, STATUS and BSR. -/
def State.saveShadow (s : State) : State := { s with ws := s.w, statuss := s.status, bsrs := s.bsr }

/-- R42: a fast return restores W, STATUS and BSR, each a whole byte. -/
def State.restoreShadow (s : State) : State :=
  ((s.setCell wregAddr s.ws).setCell statusAddr s.statuss).setCell bsrAddr s.bsrs

/-! ## Taking a fault, and returning (R321, R329, R264, R332) -/

/-- R321, R329: a fatal fault or a refusal. Nothing changes but the run state; the PC still holds pc0. This machine transfers no
fault to a handler in the program (R331). -/
def State.takeFault (why : CoreFault) (s : State) : State := { s with run := .faulted why }

/-- R264, R332: what RETFIE does beside the pop: with s = 1 it restores the shadow slot, and it sets INTCON[7] (GIE). -/
def State.leaveInterrupt (fast : Bool) (s : State) : State :=
  (if fast then s.restoreShadow else s).setBits intconAddr 0x80#8 0x80#8

/-! ## Resets (R36, R370, R371) -/

/-- R36, silicon POR column: the bits marked x, which hold no value after a power-on reset with POR_SFR_INIT = Unknown (log 6). -/
def porUnknownMarks : List Host.Cell :=
  [ (0xF80, 0xFF#8), (0xF81, 0xFF#8), (0xFD8, 0x1F#8), (0xFD9, 0xFF#8), (0xFDA, 0xFF#8), (0xFE1, 0xFF#8), (0xFE2, 0xFF#8),
    (0xFE8, 0xFF#8), (0xFE9, 0xFF#8), (0xFEA, 0xFF#8), (0xFF2, 0x01#8), (0xFF3, 0xFF#8), (0xFF4, 0xFF#8) ]

/-- R370: a power-on reset. Program memory and the parameters are kept. -/
def State.powerOnReset (s : State) : State :=
  { data := []
    noValue := if s.params.porSfrInit = .unknown then porUnknownMarks else []
    pc := 0#21
    stk := Vector.replicate 31 0#21
    sp := 0#5
    stkful := false
    stkunf := false
    ws := 0x00#8
    statuss := 0x00#8
    bsrs := 0x00#8
    prog := s.prog
    run := .running
    stackFaults := []
    params := s.params }

/-- R371: the cells the RESET instruction leaves unchanged, or (INTCON, RCON) changes only in part. -/
def keptByReset (a : Nat) : Bool :=
  decide (a < Config.gprLimit)
    || [0xF80, 0xF81, 0xFD0, 0xFD8, 0xFD9, 0xFDA, 0xFE1, 0xFE2, 0xFE8, 0xFE9, 0xFEA, 0xFF2, 0xFF3, 0xFF4].contains a

/-- R304, R371: the software reset, but for the PC. A cell that is not kept returns to what an unlisted address reads as, which is
its RESET value too (R36: TRISA and TRISB 0xFF, the others 0x00). -/
def State.softReset (s : State) : State :=
  ({ s with
      data := s.data.filter fun c => keptByReset c.1
      noValue := s.noValue.filter fun c => keptByReset c.1
      sp := 0#5
      run := .running } : State)
    |>.setBits intconAddr 0xFE#8 0x00#8
    |>.setBits rconAddr 0xF0#8 0x00#8

end Sys2Proof.Machine
end

