-- ==== Sys2Proof/Syntax.lean ====
section
/-! DEFINITION. Syntax.lean: one constructor per row of spec/opcode_table.json, the two NOP rows being one constructor (R111). Operand
fields are those of spec/30_encoding.md R101 and R102. -/

namespace Sys2Proof

/-- R102: the d bit. -/
inductive Dest where
  | w      -- d = 0
  | file   -- d = 1
deriving DecidableEq, Repr

/-- R102: the a bit. -/
inductive Bank where
  | access   -- a = 0
  | banked   -- a = 1
deriving DecidableEq, Repr

/-- R102: the s bit. -/
inductive Speed where
  | normal   -- s = 0
  | fast     -- s = 1
deriving DecidableEq, Repr

inductive Instr where
  -- 40_arithmetic.md
  | addwf (f : Byte) (d : Dest) (a : Bank)
  | addwfc (f : Byte) (d : Dest) (a : Bank)
  | addlw (k : Byte)
  | subwf (f : Byte) (d : Dest) (a : Bank)
  | subwfb (f : Byte) (d : Dest) (a : Bank)
  | subfwb (f : Byte) (d : Dest) (a : Bank)
  | sublw (k : Byte)
  | negf (f : Byte) (a : Bank)
  | incf (f : Byte) (d : Dest) (a : Bank)
  | decf (f : Byte) (d : Dest) (a : Bank)
  | daw
  -- 41_logic.md
  | andwf (f : Byte) (d : Dest) (a : Bank)
  | iorwf (f : Byte) (d : Dest) (a : Bank)
  | xorwf (f : Byte) (d : Dest) (a : Bank)
  | comf (f : Byte) (d : Dest) (a : Bank)
  | andlw (k : Byte)
  | iorlw (k : Byte)
  | xorlw (k : Byte)
  -- 42_incdec_skip.md
  | incfsz (f : Byte) (d : Dest) (a : Bank)
  | infsnz (f : Byte) (d : Dest) (a : Bank)
  | decfsz (f : Byte) (d : Dest) (a : Bank)
  | dcfsnz (f : Byte) (d : Dest) (a : Bank)
  -- 43_compare_skip.md
  | cpfseq (f : Byte) (a : Bank)
  | cpfsgt (f : Byte) (a : Bank)
  | cpfslt (f : Byte) (a : Bank)
  | tstfsz (f : Byte) (a : Bank)
  -- 44_bit.md
  | bcf (f : Byte) (b : BitVec 3) (a : Bank)
  | bsf (f : Byte) (b : BitVec 3) (a : Bank)
  | btg (f : Byte) (b : BitVec 3) (a : Bank)
  | btfsc (f : Byte) (b : BitVec 3) (a : Bank)
  | btfss (f : Byte) (b : BitVec 3) (a : Bank)
  -- 45_move.md
  | movf (f : Byte) (d : Dest) (a : Bank)
  | movff (fs fd : DAddr)
  | movwf (f : Byte) (a : Bank)
  | movlw (k : Byte)
  | movlb (k : BitVec 4)
  | lfsr (f : BitVec 2) (k : BitVec 12)
  | clrf (f : Byte) (a : Bank)
  | setf (f : Byte) (a : Bank)
  -- 46_shift_rotate.md
  | rlcf (f : Byte) (d : Dest) (a : Bank)
  | rlncf (f : Byte) (d : Dest) (a : Bank)
  | rrcf (f : Byte) (d : Dest) (a : Bank)
  | rrncf (f : Byte) (d : Dest) (a : Bank)
  | swapf (f : Byte) (d : Dest) (a : Bank)
  -- 47_multiply.md
  | mulwf (f : Byte) (a : Bank)
  | mullw (k : Byte)
  -- 48_control.md
  | bra (n : BitVec 11)
  | bz (n : Byte)
  | bnz (n : Byte)
  | bc (n : Byte)
  | bnc (n : Byte)
  | bov (n : Byte)
  | bnov (n : Byte)
  | bn (n : Byte)
  | bnn (n : Byte)
  | goto (k : BitVec 20)
  | call (k : BitVec 20) (s : Speed)
  | rcall (n : BitVec 11)
  | retfie (s : Speed)
  | ret (s : Speed)
  | retlw (k : Byte)
  | push
  | pop
  -- 49_table_system.md
  | tblrd
  | tblrdPostInc
  | tblrdPostDec
  | tblrdPreInc
  | tblwt
  | tblwtPostInc
  | tblwtPostDec
  | tblwtPreInc
  | nop
  | sleep
  | clrwdt
  | reset
deriving DecidableEq, Repr

/-- R301, R111: the row `1111 xxxx xxxx xxxx` is the same instruction, NOP; its twelve low bits are ignored. -/
abbrev Instr.nopx (_x : BitVec 12) : Instr := .nop

/-- R103, R104: the instructions of two words. LFSR's field value 3 is not one of them (R110). -/
def Instr.twoWord : Instr → Bool
  | .call _ _ => true
  | .goto _ => true
  | .lfsr f _ => f != 3#2
  | .movff _ _ => true
  | _ => false

/-- R103: the size in bytes. -/
def Instr.size (i : Instr) : Nat := if i.twoWord then 4 else 2

end Sys2Proof
end

