-- ==== Sys2Proof/Machine/Operands.lean ====
section
/-! DEFINITION. Machine/Operands.lean: every operand form (spec/20_memory.md R64 to R75), the access primitives, the plan phase and
the order in which a step commits its effects (R76), with the trace events a step emits (spec/60_exceptions.md R345). -/

namespace Sys2Proof.Machine

/-! ## Kinds of data address (R20, R60) -/

/-- R63: the reserved gap. -/
def isGap (a : DAddr) : Bool := decide (Config.gprLimit ≤ a.toNat) && decide (a.toNat < Config.sfrBase)

/-- R66: the five modes of indirect access. -/
inductive IndMode where
  | indf
  | postinc
  | postdec
  | preinc
  | plusw
deriving DecidableEq, Repr

/-- R66: the table of the fifteen indirect-access addresses. -/
def indirectTable : List (Nat × IndMode × Fsr) :=
  [ (0xFEF, .indf, .fsr0), (0xFEE, .postinc, .fsr0), (0xFED, .postdec, .fsr0), (0xFEC, .preinc, .fsr0), (0xFEB, .plusw, .fsr0),
    (0xFE7, .indf, .fsr1), (0xFE6, .postinc, .fsr1), (0xFE5, .postdec, .fsr1), (0xFE4, .preinc, .fsr1), (0xFE3, .plusw, .fsr1),
    (0xFDF, .indf, .fsr2), (0xFDE, .postinc, .fsr2), (0xFDD, .postdec, .fsr2), (0xFDC, .preinc, .fsr2), (0xFDB, .plusw, .fsr2) ]

/-- R66: the (mode, n) of an indirect-access address. -/
def indirectOf (a : DAddr) : Option (IndMode × Fsr) :=
  (indirectTable.find? fun row => row.1 == a.toNat).map fun row => row.2

def isIndirect (a : DAddr) : Bool := (indirectOf a).isSome

/-- R39, R71: STKPTR and the three TOS bytes. -/
def isStackView (a : DAddr) : Bool := decide (0xFFC ≤ a.toNat)

/-- R20: the view addresses. -/
def isView (a : DAddr) : Bool := a == pclAddr || isStackView a || isIndirect a

/-- R20: the storage cells. -/
def isStorage (a : DAddr) : Bool := !isGap a && !isView a

/-! ## Address resolution and access descriptors (R64, R66) -/

/-- R64: `resolve(f, a)` over the value of BSR. -/
def resolve (bsr f : Byte) (a : Bank) : DAddr :=
  match a with
  | .banked => bsr.extractLsb 3 0 ++ f
  | .access => if f.toNat < 0x80 then 0x0#4 ++ f else 0xF#4 ++ f

def State.resolve (s : State) (f : Byte) (a : Bank) : DAddr := Sys2Proof.Machine.resolve s.bsr f a

/-- R66: an access descriptor. -/
structure Access where
  ea : DAddr
  upd : Option (Fsr × DAddr)
  ind : Bool
deriving DecidableEq, Repr

/-- R66: `Operand(addr)` over the pointers and W. All pointer arithmetic is mod 4096. -/
def operandWith (ptr : Fsr → DAddr) (w : Byte) (addr : DAddr) : Access :=
  match indirectOf addr with
  | none => { ea := addr, upd := none, ind := false }
  | some (.indf, n) => { ea := ptr n, upd := none, ind := true }
  | some (.postinc, n) => { ea := ptr n, upd := some (n, ptr n + 1#12), ind := true }
  | some (.postdec, n) => { ea := ptr n, upd := some (n, ptr n - 1#12), ind := true }
  | some (.preinc, n) => { ea := ptr n + 1#12, upd := some (n, ptr n + 1#12), ind := true }
  | some (.plusw, n) => { ea := ptr n + w.signExtend 12, upd := none, ind := true }

def State.operand (s : State) (addr : DAddr) : Access := operandWith s.ptr s.w addr

/-- R211: the pointers as they are once a descriptor's update has been applied. -/
def ptrAfter (upd : Option (Fsr × DAddr)) (ptr : Fsr → DAddr) (n : Fsr) : DAddr :=
  match upd with
  | some (m, p) => if m = n then p else ptr n
  | none => ptr n

/-- R67: applies a descriptor's FSR update. -/
def State.applyUpd (upd : Option (Fsr × DAddr)) (s : State) : State :=
  match upd with
  | some (n, p) => s.setPtr n p
  | none => s

/-! ## A step in progress -/

/-- R345: the trace events. -/
inductive Event where
  | opcodeFetch (addr : PAddr) (w : Word16)
  | registerRead (ea : DAddr) (v : Byte)
  | registerWrite (ea : DAddr) (v : Byte)
  | bitRead (ea : DAddr) (b : BitVec 3) (v : Bool)
  | bitWrite (ea : DAddr) (b : BitVec 3) (v : Bool)
deriving DecidableEq, Repr

/-- R120: a step after its plan phase: the state (whose PC still holds pc0), the redirect and skip requests, and the data events
emitted so far. -/
structure Progress where
  s : State
  redirect : Option PAddr
  skip : Bool
  events : List Event
deriving DecidableEq, Repr

def Progress.start (s : State) : Progress := { s := s, redirect := none, skip := false, events := [] }

/-- A change of the state alone. -/
def Progress.update (g : State → State) (p : Progress) : Progress := { p with s := g p.s }

def Progress.emit (e : Event) (p : Progress) : Progress := { p with events := p.events ++ [e] }

/-- R122: `pc <- target`. -/
def Progress.goTo (target : PAddr) (p : Progress) : Progress := { p with redirect := some target }

/-- R122: `skip`, when the condition holds. -/
def Progress.skipIf (cond : Bool) (p : Progress) : Progress := { p with skip := p.skip || cond }

/-- R120, R122: the next PC. -/
def Progress.nextPc (size : PAddr) (p : Progress) : PAddr :=
  match p.redirect with
  | some target => wrapPc p.s.params target
  | none => p.s.pcPlus (size + if p.skip then 2#21 else 0#21)

/-- R120: the state after the step. -/
def Progress.finish (size : PAddr) (p : Progress) : State := { p.s with pc := p.nextPc size }

/-! ## The access primitives (R70 to R75) -/

/-- R70: the load of the PC latches by an instruction-level read of PCL. -/
def State.loadLatches (s : State) : State :=
  (s.setCell pclathAddr ((s.pcPlus 2#21).extractLsb 15 8)).setCell pclatuAddr (0#3 ++ (s.pcPlus 2#21).extractLsb 20 16)

/-- R39: the value of a stack view. -/
def State.stackViewRead (s : State) (a : DAddr) : Byte :=
  if a = stkptrAddr then s.stkptr
  else if a = toslAddr then s.tos.extractLsb 7 0
  else if a = toshAddr then s.tos.extractLsb 15 8
  else 0#3 ++ s.tos.extractLsb 20 16

/-- R39: a write of a stack view. -/
def State.stackViewWrite (a : DAddr) (v : Byte) (s : State) : State :=
  if a = stkptrAddr then s.setStkptr v
  else if a = toslAddr then s.setTos (s.tos.extractLsb 20 8 ++ v)
  else if a = toshAddr then s.setTos (s.tos.extractLsb 20 16 ++ v ++ s.tos.extractLsb 7 0)
  else s.setTos (v.extractLsb 4 0 ++ s.tos.extractLsb 15 0)

/-- R72: the value `MemRead(acc, 1)` returns. -/
def State.readValue (acc : Access) (s : State) : Byte :=
  if acc.ind && isIndirect acc.ea then 0x00#8
  else if isGap acc.ea then 0x00#8
  else if acc.ea = pclAddr then (s.pcPlus 2#21).extractLsb 7 0
  else if isStackView acc.ea then s.stackViewRead acc.ea
  else s.cell acc.ea

/-- R72: the state `MemRead(acc, 1)` leaves: only a read of PCL has an effect. -/
def State.afterRead (acc : Access) (s : State) : State := if acc.ea = pclAddr then s.loadLatches else s

/-- R73: `MemWrite(acc, 1, v)`. -/
def Progress.memWrite (acc : Access) (v : Byte) (p : Progress) : Progress :=
  if acc.ind && isIndirect acc.ea then p
  else if isGap acc.ea then p
  else if acc.ea = pclAddr then p.goTo ((p.s.cell pclatuAddr).extractLsb 4 0 ++ p.s.cell pclathAddr ++ v)
  else if isStackView acc.ea then p.update (State.stackViewWrite acc.ea v)
  else p.update (State.setCell acc.ea v)

/-- The read phase of R76, with its event (R345). -/
def Progress.read (acc : Access) (p : Progress) : Progress :=
  (p.update (State.afterRead acc)).emit (.registerRead acc.ea (p.s.readValue acc))

/-- The read phase of BTFSC and BTFSS, with its event (R345). -/
def Progress.readBit (acc : Access) (b : BitVec 3) (p : Progress) : Progress :=
  (p.update (State.afterRead acc)).emit (.bitRead acc.ea b ((p.s.readValue acc).getLsbD b.toNat))

/-- A `MemWrite` with its event (R345). -/
def Progress.write (acc : Access) (v : Byte) (p : Progress) : Progress :=
  (p.memWrite acc v).emit (.registerWrite acc.ea v)

/-- The `MemWrite` of BCF, BSF and BTG with its event (R345). -/
def Progress.writeBit (acc : Access) (b : BitVec 3) (v : Byte) (p : Progress) : Progress :=
  (p.memWrite acc v).emit (.bitWrite acc.ea b (v.getLsbD b.toNat))

/-- R75: `WriteDest(d, acc, v)`, with its event (R345). -/
def Progress.writeDest (d : Dest) (acc : Access) (v : Byte) (p : Progress) : Progress :=
  match d with
  | .w => (p.update (State.setCell wregAddr v)).emit (.registerWrite wregAddr v)
  | .file => p.write acc v

/-- R25, as a phase of R76. -/
def Progress.affect (mask : Byte) (fl : FlagVec) (p : Progress) : Progress := p.update (State.affect mask fl)

/-- R67, as a phase of R76. -/
def Progress.applyUpd (upd : Option (Fsr × DAddr)) (p : Progress) : Progress := p.update (State.applyUpd upd)

/-! ## The plan phase (R69, R76 step 1, R329) -/

/-- A cell an instruction reads, and the bits of it that matter. -/
abbrev Need := DAddr × Byte

/-- A read of W. -/
def needW : Need := (wregAddr, 0xFF#8)

/-- A read of flags of STATUS (R24 names the flag readers). -/
def needFlags (mask : Byte) : Need := (statusAddr, mask)

/-- The cells `Operand(addr)` reads: the bits of Ptr(n), and W for PLUSW. -/
def operandNeeds (addr : DAddr) : List Need :=
  match indirectOf addr with
  | none => []
  | some (.plusw, n) => [(n.low, 0xFF#8), (n.high, 0x0F#8), needW]
  | some (_, n) => [(n.low, 0xFF#8), (n.high, 0x0F#8)]

/-- The cell `MemRead` reads, where it reads one. -/
def readNeeds (acc : Access) : List Need := if isStorage acc.ea then [(acc.ea, 0xFF#8)] else []

/-- R329, third case: the first cell of the list that is read and holds no value. Which of several a refusal names is the model's choice
(DESIGN CHOICE, log 8): R329 gives no order. -/
def State.missing (s : State) (needs : List Need) : Option DAddr :=
  (needs.find? fun n => s.unset n.1 &&& n.2 != 0x00#8).map fun n => n.1

/-- R69(a): the written address is a byte of the FSR that a descriptor updates. -/
def collides (upd : Option (Fsr × DAddr)) (ea : DAddr) : Bool :=
  match upd with
  | some (n, _) => ea == n.low || ea == n.high
  | none => false

/-- The plan of an instruction that reads registers only. Where several hold no value, the refusal names the first of `needs`
(DESIGN CHOICE, log 8). -/
def planRegs (s : State) (needs : List Need) : Except CoreFault Unit :=
  match s.missing needs with
  | some c => .error (.refused s.pc (.noValue c))
  | none => .ok ()

/-- The plan of an instruction that reads its operand and does not write it. Where several cells hold no value, the refusal names the
pointer before the registers of `needs` (W, then the flags), and those before the operand, though the pseudocode reads the operand
first: R329 gives no order (DESIGN CHOICE, log 8). -/
def planRead (s : State) (addr : DAddr) (needs : List Need) : Except CoreFault Access :=
  match s.missing (operandNeeds addr ++ needs ++ readNeeds (s.operand addr)) with
  | some c => .error (.refused s.pc (.noValue c))
  | none => .ok (s.operand addr)

/-- The plan of an instruction that reads its operand and writes it. -/
def planModify (s : State) (addr : DAddr) (needs : List Need) : Except CoreFault Access :=
  match planRead s addr needs with
  | .error why => .error why
  | .ok acc => if collides acc.upd acc.ea then .error (.refused s.pc .fsrCollision) else .ok acc

/-- The plan of an instruction that writes its operand without reading it (R74). Where several cells hold no value, the refusal names the
pointer before the registers of `needs` (DESIGN CHOICE, log 8). -/
def planWrite (s : State) (addr : DAddr) (needs : List Need) : Except CoreFault Access :=
  match s.missing (operandNeeds addr ++ needs) with
  | some c => .error (.refused s.pc (.noValue c))
  | none =>
    if collides (s.operand addr).upd (s.operand addr).ea then .error (.refused s.pc .fsrCollision)
    else .ok (s.operand addr)

/-- The plan of an instruction with a d bit: with d = 0 the operand is only read (R75). -/
def planDest (s : State) (addr : DAddr) (d : Dest) (needs : List Need) : Except CoreFault Access :=
  match d with
  | .w => planRead s addr needs
  | .file => planModify s addr needs

/-- The plan of INCFSZ, INFSNZ, DECFSZ and DCFSNZ: R69(b) beside R69(a). -/
def planSkip (s : State) (addr : DAddr) (d : Dest) : Except CoreFault Access :=
  match planDest s addr d [] with
  | .error why => .error why
  | .ok acc => if d = .file ∧ acc.ea = pclAddr then .error (.refused s.pc .skipWritesPcl) else .ok acc

/-! ## The end of a step -/

/-- R120: a plan that fails ends the step with no change but the run state (R321, R329); else the step's effects are committed and
the PC advances. -/
def conclude (s : State) (size : PAddr) (r : Except CoreFault Progress) : Host.Outcome State Fault Refusal :=
  match r with
  | .error why => .next (s.takeFault why)
  | .ok p => .next (p.finish size)

end Sys2Proof.Machine
end

