-- ==== Sys2Proof/Machine/Shapes.lean ====
section
/-! DEFINITION. Machine/Shapes.lean: the shapes the instruction rules share, each the order of spec/20_memory.md R76: plan, read,
compute, write, flags, FSR update, control. -/

namespace Sys2Proof.Machine

/-- BYTE_DA: read the operand, compute a result and flags from the state before the instruction and the value read, steer the
result by d (R75), affect the flags in `mask`. -/
def runByteDA (needs : List Need) (mask : Byte) (op : State → Byte → Byte × FlagVec) (f : Byte) (d : Dest) (a : Bank) (s : State) :
    Except CoreFault Progress :=
  (planDest s (s.resolve f a) d needs).map fun acc =>
    let r := op s (s.readValue acc)
    (Progress.start s).read acc |>.writeDest d acc r.1 |>.affect mask r.2 |>.applyUpd acc.upd

/-- 42_incdec_skip.md: read, compute, steer by d, skip on the result; no flags. -/
def runIncDecSkip (op : Byte → Byte) (cond : Byte → Bool) (f : Byte) (d : Dest) (a : Bank) (s : State) :
    Except CoreFault Progress :=
  (planSkip s (s.resolve f a) d).map fun acc =>
    let r := op (s.readValue acc)
    (Progress.start s).read acc |>.writeDest d acc r |>.applyUpd acc.upd |>.skipIf (cond r)

/-- 43_compare_skip.md: read, then skip on a condition of the state and the value read; nothing is written. -/
def runCompareSkip (needs : List Need) (cond : State → Byte → Bool) (f : Byte) (a : Bank) (s : State) :
    Except CoreFault Progress :=
  (planRead s (s.resolve f a) needs).map fun acc =>
    (Progress.start s).read acc |>.applyUpd acc.upd |>.skipIf (cond s (s.readValue acc))

/-- BCF, BSF, BTG: read, change one bit, write the byte back. -/
def runBitModify (op : Byte → Byte → Byte) (f : Byte) (b : BitVec 3) (a : Bank) (s : State) : Except CoreFault Progress :=
  (planModify s (s.resolve f a) []).map fun acc =>
    (Progress.start s).read acc |>.writeBit acc b (op (s.readValue acc) (1#8 <<< b.toNat)) |>.applyUpd acc.upd

/-- BTFSC, BTFSS: read one bit and skip on it. -/
def runBitSkip (cond : Bool → Bool) (f : Byte) (b : BitVec 3) (a : Bank) (s : State) : Except CoreFault Progress :=
  (planRead s (s.resolve f a) []).map fun acc =>
    (Progress.start s).readBit acc b |>.applyUpd acc.upd |>.skipIf (cond ((s.readValue acc).getLsbD b.toNat))

/-- NEGF: read, compute, write the operand, affect the flags in `mask`. -/
def runModify (mask : Byte) (op : Byte → Byte × FlagVec) (f : Byte) (a : Bank) (s : State) : Except CoreFault Progress :=
  (planModify s (s.resolve f a) []).map fun acc =>
    let r := op (s.readValue acc)
    (Progress.start s).read acc |>.write acc r.1 |>.affect mask r.2 |>.applyUpd acc.upd

/-- MOVWF, CLRF, SETF: write the operand without reading it (R74), affect the flags in `mask`. -/
def runWrite (needs : List Need) (value : State → Byte) (mask : Byte) (fl : FlagVec) (f : Byte) (a : Bank) (s : State) :
    Except CoreFault Progress :=
  (planWrite s (s.resolve f a) needs).map fun acc =>
    (Progress.start s).write acc (value s) |>.affect mask fl |>.applyUpd acc.upd

/-- The literal instructions that compute W from W and k. W is written directly, so no event is emitted (R345; log 12). -/
def runLiteral (mask : Byte) (op : Byte → Byte → Byte × FlagVec) (k : Byte) (s : State) : Except CoreFault Progress :=
  (planRegs s [needW]).map fun _ =>
    let r := op s.w k
    (Progress.start s).update (State.setCell wregAddr r.1) |>.affect mask r.2

/-- An instruction that only changes the state, and reads no cell that could hold no value. -/
def runState (g : State → State) (s : State) : Except CoreFault Progress := .ok ((Progress.start s).update g)

/-- R250: reltarget(n) over the signed displacement, in bytes: pc0 + 2 + 2 * sint(n). The reduction mod PROG_BYTES is that of
`pc <- target` (R122). -/
def State.relTarget (s : State) (n : PAddr) : PAddr := s.pc + 2#21 + 2#21 * n

/-- R250: abstarget(k) = k << 1. -/
def absTarget (k : BitVec 20) : PAddr := k ++ 0#1

/-- R252: a conditional branch on one flag of STATUS. -/
def runBranch (mask : Byte) (taken : State → Bool) (n : Byte) (s : State) : Except CoreFault Progress :=
  (planRegs s [needFlags mask]).map fun _ =>
    if taken s then (Progress.start s).goTo (s.relTarget (n.signExtend 21)) else Progress.start s

/-- R290: a table read at `t`, leaving the pointer at `next`. -/
def State.tableRead (t : TAddr) (s : State) : State := s.setCell tablatAddr (s.tableByte t)

end Sys2Proof.Machine
end

