-- ==== Sys2Proof/Machine/Arith.lean ====
section
/-! DEFINITION. Machine/Arith.lean: the meanings of spec/40_arithmetic.md. -/

namespace Sys2Proof.Machine

/-- R133: W plus the operand. -/
def runAddwf (f : Byte) (d : Dest) (a : Bank) (s : State) : Except CoreFault Progress :=
  runByteDA [needW] maskAll (fun s v => add8 s.w v false) f d a s

/-- R133: the step of `runAddwf`. -/
def execAddwf (f : Byte) (d : Dest) (a : Bank) (s : State) : Host.Outcome State Fault Refusal :=
  conclude s 2#21 (runAddwf f d a s)

/-- R134: W plus the operand plus C. -/
def runAddwfc (f : Byte) (d : Dest) (a : Bank) (s : State) : Except CoreFault Progress :=
  runByteDA [needW, needFlags maskC] maskAll (fun s v => add8 s.w v s.flagC) f d a s

/-- R134: the step of `runAddwfc`. -/
def execAddwfc (f : Byte) (d : Dest) (a : Bank) (s : State) : Host.Outcome State Fault Refusal :=
  conclude s 2#21 (runAddwfc f d a s)

/-- R135: W plus the literal. -/
def runAddlw (k : Byte) (s : State) : Except CoreFault Progress :=
  runLiteral maskAll (fun w k => add8 w k false) k s

/-- R135: the step of `runAddlw`. -/
def execAddlw (k : Byte) (s : State) : Host.Outcome State Fault Refusal :=
  conclude s 2#21 (runAddlw k s)

/-- R136: the operand minus W. -/
def runSubwf (f : Byte) (d : Dest) (a : Bank) (s : State) : Except CoreFault Progress :=
  runByteDA [needW] maskAll (fun s v => sub8 v s.w false) f d a s

/-- R136: the step of `runSubwf`. -/
def execSubwf (f : Byte) (d : Dest) (a : Bank) (s : State) : Host.Outcome State Fault Refusal :=
  conclude s 2#21 (runSubwf f d a s)

/-- R137: the operand minus W minus the borrow 1 - C. -/
def runSubwfb (f : Byte) (d : Dest) (a : Bank) (s : State) : Except CoreFault Progress :=
  runByteDA [needW, needFlags maskC] maskAll (fun s v => sub8 v s.w (!s.flagC)) f d a s

/-- R137: the step of `runSubwfb`. -/
def execSubwfb (f : Byte) (d : Dest) (a : Bank) (s : State) : Host.Outcome State Fault Refusal :=
  conclude s 2#21 (runSubwfb f d a s)

/-- R138: W minus the operand minus the borrow 1 - C. -/
def runSubfwb (f : Byte) (d : Dest) (a : Bank) (s : State) : Except CoreFault Progress :=
  runByteDA [needW, needFlags maskC] maskAll (fun s v => sub8 s.w v (!s.flagC)) f d a s

/-- R138: the step of `runSubfwb`. -/
def execSubfwb (f : Byte) (d : Dest) (a : Bank) (s : State) : Host.Outcome State Fault Refusal :=
  conclude s 2#21 (runSubfwb f d a s)

/-- R139: the literal minus W. -/
def runSublw (k : Byte) (s : State) : Except CoreFault Progress :=
  runLiteral maskAll (fun w k => sub8 k w false) k s

/-- R139: the step of `runSublw`. -/
def execSublw (k : Byte) (s : State) : Host.Outcome State Fault Refusal :=
  conclude s 2#21 (runSublw k s)

/-- R140: 0 minus the operand, in place. -/
def runNegf (f : Byte) (a : Bank) (s : State) : Except CoreFault Progress :=
  runModify maskAll (fun v => sub8 0x00#8 v false) f a s

/-- R140: the step of `runNegf`. -/
def execNegf (f : Byte) (a : Bank) (s : State) : Host.Outcome State Fault Refusal :=
  conclude s 2#21 (runNegf f a s)

/-- R141: the operand plus 1. -/
def runIncf (f : Byte) (d : Dest) (a : Bank) (s : State) : Except CoreFault Progress :=
  runByteDA [] maskAll (fun _ v => add8 v 0x01#8 false) f d a s

/-- R141: the step of `runIncf`. -/
def execIncf (f : Byte) (d : Dest) (a : Bank) (s : State) : Host.Outcome State Fault Refusal :=
  conclude s 2#21 (runIncf f d a s)

/-- R142: the operand minus 1. -/
def runDecf (f : Byte) (d : Dest) (a : Bank) (s : State) : Except CoreFault Progress :=
  runByteDA [] maskAll (fun _ v => sub8 v 0x01#8 false) f d a s

/-- R142: the step of `runDecf`. -/
def execDecf (f : Byte) (d : Dest) (a : Bank) (s : State) : Host.Outcome State Fault Refusal :=
  conclude s 2#21 (runDecf f d a s)

/-- R143: decimal adjust of W; only C is affected. -/
def runDaw (s : State) : Except CoreFault Progress :=
  (planRegs s [needW, needFlags (maskC ||| maskDC)]).map fun _ =>
    let r := decimalAdjust s.w s.flagC s.flagDC
    (Progress.start s).update (State.setCell wregAddr r.1) |>.affect maskC (FlagVec.mk r.2 false false false false)

/-- R143: the step of `runDaw`. -/
def execDaw (s : State) : Host.Outcome State Fault Refusal :=
  conclude s 2#21 (runDaw s)

end Sys2Proof.Machine
end

