-- ==== Sys2Proof/Machine/Bit.lean ====
section
/-! DEFINITION. Machine/Bit.lean: the meanings of spec/44_bit.md. -/

namespace Sys2Proof.Machine

/-- R200: clear bit b of the operand. -/
def runBcf (f : Byte) (b : BitVec 3) (a : Bank) (s : State) : Except CoreFault Progress :=
  runBitModify (fun v m => v &&& ~~~m) f b a s

/-- R200: the step of `runBcf`. -/
def execBcf (f : Byte) (b : BitVec 3) (a : Bank) (s : State) : Host.Outcome State Fault Refusal :=
  conclude s 2#21 (runBcf f b a s)

/-- R201: set bit b of the operand. -/
def runBsf (f : Byte) (b : BitVec 3) (a : Bank) (s : State) : Except CoreFault Progress :=
  runBitModify (fun v m => v ||| m) f b a s

/-- R201: the step of `runBsf`. -/
def execBsf (f : Byte) (b : BitVec 3) (a : Bank) (s : State) : Host.Outcome State Fault Refusal :=
  conclude s 2#21 (runBsf f b a s)

/-- R202: toggle bit b of the operand. -/
def runBtg (f : Byte) (b : BitVec 3) (a : Bank) (s : State) : Except CoreFault Progress :=
  runBitModify (fun v m => v ^^^ m) f b a s

/-- R202: the step of `runBtg`. -/
def execBtg (f : Byte) (b : BitVec 3) (a : Bank) (s : State) : Host.Outcome State Fault Refusal :=
  conclude s 2#21 (runBtg f b a s)

/-- R203: skip if bit b of the operand is clear. -/
def runBtfsc (f : Byte) (b : BitVec 3) (a : Bank) (s : State) : Except CoreFault Progress :=
  runBitSkip (fun x => !x) f b a s

/-- R203: the step of `runBtfsc`. -/
def execBtfsc (f : Byte) (b : BitVec 3) (a : Bank) (s : State) : Host.Outcome State Fault Refusal :=
  conclude s 2#21 (runBtfsc f b a s)

/-- R204: skip if bit b of the operand is set. -/
def runBtfss (f : Byte) (b : BitVec 3) (a : Bank) (s : State) : Except CoreFault Progress :=
  runBitSkip (fun x => x) f b a s

/-- R204: the step of `runBtfss`. -/
def execBtfss (f : Byte) (b : BitVec 3) (a : Bank) (s : State) : Host.Outcome State Fault Refusal :=
  conclude s 2#21 (runBtfss f b a s)

end Sys2Proof.Machine
end

