-- ==== Sys2Proof/Machine/CompareSkip.lean ====
section
/-! DEFINITION. Machine/CompareSkip.lean: the meanings of spec/43_compare_skip.md. The comparisons are unsigned. -/

namespace Sys2Proof.Machine

/-- R191: skip if the operand equals W. -/
def runCpfseq (f : Byte) (a : Bank) (s : State) : Except CoreFault Progress :=
  runCompareSkip [needW] (fun s v => v == s.w) f a s

/-- R191: the step of `runCpfseq`. -/
def execCpfseq (f : Byte) (a : Bank) (s : State) : Host.Outcome State Fault Refusal :=
  conclude s 2#21 (runCpfseq f a s)

/-- R192: skip if the operand is greater than W. -/
def runCpfsgt (f : Byte) (a : Bank) (s : State) : Except CoreFault Progress :=
  runCompareSkip [needW] (fun s v => decide (v.toNat > s.w.toNat)) f a s

/-- R192: the step of `runCpfsgt`. -/
def execCpfsgt (f : Byte) (a : Bank) (s : State) : Host.Outcome State Fault Refusal :=
  conclude s 2#21 (runCpfsgt f a s)

/-- R193: skip if the operand is less than W. -/
def runCpfslt (f : Byte) (a : Bank) (s : State) : Except CoreFault Progress :=
  runCompareSkip [needW] (fun s v => decide (v.toNat < s.w.toNat)) f a s

/-- R193: the step of `runCpfslt`. -/
def execCpfslt (f : Byte) (a : Bank) (s : State) : Host.Outcome State Fault Refusal :=
  conclude s 2#21 (runCpfslt f a s)

/-- R194: skip if the operand is zero. -/
def runTstfsz (f : Byte) (a : Bank) (s : State) : Except CoreFault Progress :=
  runCompareSkip [] (fun _ v => v == 0x00#8) f a s

/-- R194: the step of `runTstfsz`. -/
def execTstfsz (f : Byte) (a : Bank) (s : State) : Host.Outcome State Fault Refusal :=
  conclude s 2#21 (runTstfsz f a s)

end Sys2Proof.Machine
end

