-- ==== Sys2Proof/Machine/Control.lean ====
section
/-! DEFINITION. Machine/Control.lean: the meanings of spec/48_control.md. -/

namespace Sys2Proof.Machine

/-- R251: branch relative. -/
def runBra (n : BitVec 11) (s : State) : Except CoreFault Progress :=
  .ok ((Progress.start s).goTo (s.relTarget (n.signExtend 21)))

/-- R251: the step of `runBra`. -/
def execBra (n : BitVec 11) (s : State) : Host.Outcome State Fault Refusal :=
  conclude s 2#21 (runBra n s)

/-- R253: branch if Z is set. -/
def runBz (n : Byte) (s : State) : Except CoreFault Progress :=
  runBranch maskZ (fun s => s.flagZ) n s

/-- R253: the step of `runBz`. -/
def execBz (n : Byte) (s : State) : Host.Outcome State Fault Refusal :=
  conclude s 2#21 (runBz n s)

/-- R254: branch if Z is clear. -/
def runBnz (n : Byte) (s : State) : Except CoreFault Progress :=
  runBranch maskZ (fun s => !s.flagZ) n s

/-- R254: the step of `runBnz`. -/
def execBnz (n : Byte) (s : State) : Host.Outcome State Fault Refusal :=
  conclude s 2#21 (runBnz n s)

/-- R255: branch if C is set. -/
def runBc (n : Byte) (s : State) : Except CoreFault Progress :=
  runBranch maskC (fun s => s.flagC) n s

/-- R255: the step of `runBc`. -/
def execBc (n : Byte) (s : State) : Host.Outcome State Fault Refusal :=
  conclude s 2#21 (runBc n s)

/-- R256: branch if C is clear. -/
def runBnc (n : Byte) (s : State) : Except CoreFault Progress :=
  runBranch maskC (fun s => !s.flagC) n s

/-- R256: the step of `runBnc`. -/
def execBnc (n : Byte) (s : State) : Host.Outcome State Fault Refusal :=
  conclude s 2#21 (runBnc n s)

/-- R257: branch if OV is set. -/
def runBov (n : Byte) (s : State) : Except CoreFault Progress :=
  runBranch maskOV (fun s => s.flagOV) n s

/-- R257: the step of `runBov`. -/
def execBov (n : Byte) (s : State) : Host.Outcome State Fault Refusal :=
  conclude s 2#21 (runBov n s)

/-- R258: branch if OV is clear. -/
def runBnov (n : Byte) (s : State) : Except CoreFault Progress :=
  runBranch maskOV (fun s => !s.flagOV) n s

/-- R258: the step of `runBnov`. -/
def execBnov (n : Byte) (s : State) : Host.Outcome State Fault Refusal :=
  conclude s 2#21 (runBnov n s)

/-- R259: branch if N is set. -/
def runBn (n : Byte) (s : State) : Except CoreFault Progress :=
  runBranch maskN (fun s => s.flagN) n s

/-- R259: the step of `runBn`. -/
def execBn (n : Byte) (s : State) : Host.Outcome State Fault Refusal :=
  conclude s 2#21 (runBn n s)

/-- R260: branch if N is clear. -/
def runBnn (n : Byte) (s : State) : Except CoreFault Progress :=
  runBranch maskN (fun s => !s.flagN) n s

/-- R260: the step of `runBnn`. -/
def execBnn (n : Byte) (s : State) : Host.Outcome State Fault Refusal :=
  conclude s 2#21 (runBnn n s)

/-- R261: jump to an absolute address. -/
def runGoto (k : BitVec 20) (s : State) : Except CoreFault Progress :=
  .ok ((Progress.start s).goTo (absTarget k))

/-- R261: the step of `runGoto`. -/
def execGoto (k : BitVec 20) (s : State) : Host.Outcome State Fault Refusal :=
  conclude s 4#21 (runGoto k s)

/-- R262: push the return address and jump; with s = 1 save W, STATUS and BSR. -/
def runCall (k : BitVec 20) (sel : Speed) (s : State) : Except CoreFault Progress :=
  match sel with
  | .normal => .ok ((Progress.start s).update (State.push (s.pcPlus 4#21)) |>.goTo (absTarget k))
  | .fast =>
    (planRegs s [needW, (statusAddr, 0xFF#8), (bsrAddr, 0xFF#8)]).map fun _ =>
      (Progress.start s).update State.saveShadow |>.update (State.push (s.pcPlus 4#21)) |>.goTo (absTarget k)

/-- R262: the step of `runCall`. -/
def execCall (k : BitVec 20) (sel : Speed) (s : State) : Host.Outcome State Fault Refusal :=
  conclude s 4#21 (runCall k sel s)

/-- R263: push the return address and branch relative. -/
def runRcall (n : BitVec 11) (s : State) : Except CoreFault Progress :=
  .ok ((Progress.start s).update (State.push (s.pcPlus 2#21)) |>.goTo (s.relTarget (n.signExtend 21)))

/-- R263: the step of `runRcall`. -/
def execRcall (n : BitVec 11) (s : State) : Host.Outcome State Fault Refusal :=
  conclude s 2#21 (runRcall n s)

/-- R264: return from interrupt: pop the PC, restore the shadow slot with s = 1, set GIE. -/
def runRetfie (sel : Speed) (s : State) : Except CoreFault Progress :=
  .ok ((Progress.start s).update State.popped |>.update (State.leaveInterrupt (sel == .fast)) |>.goTo s.popValue)

/-- R264: the step of `runRetfie`. -/
def execRetfie (sel : Speed) (s : State) : Host.Outcome State Fault Refusal :=
  conclude s 2#21 (runRetfie sel s)

/-- R265: RETURN: pop the PC, restore the shadow slot with s = 1. -/
def runRet (sel : Speed) (s : State) : Except CoreFault Progress :=
  match sel with
  | .normal => .ok ((Progress.start s).update State.popped |>.goTo s.popValue)
  | .fast => .ok ((Progress.start s).update State.popped |>.update State.restoreShadow |>.goTo s.popValue)

/-- R265: the step of `runRet`. -/
def execRet (sel : Speed) (s : State) : Host.Outcome State Fault Refusal :=
  conclude s 2#21 (runRet sel s)

/-- R266: load the literal into W and return. -/
def runRetlw (k : Byte) (s : State) : Except CoreFault Progress :=
  .ok ((Progress.start s).update (State.setCell wregAddr k) |>.update State.popped |>.goTo s.popValue)

/-- R266: the step of `runRetlw`. -/
def execRetlw (k : Byte) (s : State) : Host.Outcome State Fault Refusal :=
  conclude s 2#21 (runRetlw k s)

/-- R267: push the address of the next instruction. -/
def runPush (s : State) : Except CoreFault Progress :=
  runState (State.push (s.pcPlus 2#21)) s

/-- R267: the step of `runPush`. -/
def execPush (s : State) : Host.Outcome State Fault Refusal :=
  conclude s 2#21 (runPush s)

/-- R268: discard the top of the return stack. -/
def runPop (s : State) : Except CoreFault Progress :=
  runState State.popped s

/-- R268: the step of `runPop`. -/
def execPop (s : State) : Host.Outcome State Fault Refusal :=
  conclude s 2#21 (runPop s)

end Sys2Proof.Machine
end

