-- ==== Sys2Proof/Machine/IncDecSkip.lean ====
section
/-! DEFINITION. Machine/IncDecSkip.lean: the meanings of spec/42_incdec_skip.md. -/

namespace Sys2Proof.Machine

/-- R180: the operand plus 1; skip if the result is zero. -/
def runIncfsz (f : Byte) (d : Dest) (a : Bank) (s : State) : Except CoreFault Progress :=
  runIncDecSkip (fun v => v + 0x01#8) (fun r => r == 0x00#8) f d a s

/-- R180: the step of `runIncfsz`. -/
def execIncfsz (f : Byte) (d : Dest) (a : Bank) (s : State) : Host.Outcome State Fault Refusal :=
  conclude s 2#21 (runIncfsz f d a s)

/-- R181: the operand plus 1; skip if the result is not zero. -/
def runInfsnz (f : Byte) (d : Dest) (a : Bank) (s : State) : Except CoreFault Progress :=
  runIncDecSkip (fun v => v + 0x01#8) (fun r => r != 0x00#8) f d a s

/-- R181: the step of `runInfsnz`. -/
def execInfsnz (f : Byte) (d : Dest) (a : Bank) (s : State) : Host.Outcome State Fault Refusal :=
  conclude s 2#21 (runInfsnz f d a s)

/-- R182: the operand minus 1; skip if the result is zero. -/
def runDecfsz (f : Byte) (d : Dest) (a : Bank) (s : State) : Except CoreFault Progress :=
  runIncDecSkip (fun v => v - 0x01#8) (fun r => r == 0x00#8) f d a s

/-- R182: the step of `runDecfsz`. -/
def execDecfsz (f : Byte) (d : Dest) (a : Bank) (s : State) : Host.Outcome State Fault Refusal :=
  conclude s 2#21 (runDecfsz f d a s)

/-- R183: the operand minus 1; skip if the result is not zero. -/
def runDcfsnz (f : Byte) (d : Dest) (a : Bank) (s : State) : Except CoreFault Progress :=
  runIncDecSkip (fun v => v - 0x01#8) (fun r => r != 0x00#8) f d a s

/-- R183: the step of `runDcfsnz`. -/
def execDcfsnz (f : Byte) (d : Dest) (a : Bank) (s : State) : Host.Outcome State Fault Refusal :=
  conclude s 2#21 (runDcfsnz f d a s)

end Sys2Proof.Machine
end

