-- ==== Sys2Proof/Machine/Logic.lean ====
section
/-! DEFINITION. Machine/Logic.lean: the meanings of spec/41_logic.md. -/

namespace Sys2Proof.Machine

/-- R161: W AND the operand. -/
def runAndwf (f : Byte) (d : Dest) (a : Bank) (s : State) : Except CoreFault Progress :=
  runByteDA [needW] maskZN (fun s v => (s.w &&& v, logicFlags (s.w &&& v))) f d a s

/-- R161: the step of `runAndwf`. -/
def execAndwf (f : Byte) (d : Dest) (a : Bank) (s : State) : Host.Outcome State Fault Refusal :=
  conclude s 2#21 (runAndwf f d a s)

/-- R162: W OR the operand. -/
def runIorwf (f : Byte) (d : Dest) (a : Bank) (s : State) : Except CoreFault Progress :=
  runByteDA [needW] maskZN (fun s v => (s.w ||| v, logicFlags (s.w ||| v))) f d a s

/-- R162: the step of `runIorwf`. -/
def execIorwf (f : Byte) (d : Dest) (a : Bank) (s : State) : Host.Outcome State Fault Refusal :=
  conclude s 2#21 (runIorwf f d a s)

/-- R163: W XOR the operand. -/
def runXorwf (f : Byte) (d : Dest) (a : Bank) (s : State) : Except CoreFault Progress :=
  runByteDA [needW] maskZN (fun s v => (s.w ^^^ v, logicFlags (s.w ^^^ v))) f d a s

/-- R163: the step of `runXorwf`. -/
def execXorwf (f : Byte) (d : Dest) (a : Bank) (s : State) : Host.Outcome State Fault Refusal :=
  conclude s 2#21 (runXorwf f d a s)

/-- R164: the complement of the operand. -/
def runComf (f : Byte) (d : Dest) (a : Bank) (s : State) : Except CoreFault Progress :=
  runByteDA [] maskZN (fun _ v => (~~~v, logicFlags (~~~v))) f d a s

/-- R164: the step of `runComf`. -/
def execComf (f : Byte) (d : Dest) (a : Bank) (s : State) : Host.Outcome State Fault Refusal :=
  conclude s 2#21 (runComf f d a s)

/-- R165: W AND the literal. -/
def runAndlw (k : Byte) (s : State) : Except CoreFault Progress :=
  runLiteral maskZN (fun w k => (w &&& k, logicFlags (w &&& k))) k s

/-- R165: the step of `runAndlw`. -/
def execAndlw (k : Byte) (s : State) : Host.Outcome State Fault Refusal :=
  conclude s 2#21 (runAndlw k s)

/-- R166: W OR the literal. -/
def runIorlw (k : Byte) (s : State) : Except CoreFault Progress :=
  runLiteral maskZN (fun w k => (w ||| k, logicFlags (w ||| k))) k s

/-- R166: the step of `runIorlw`. -/
def execIorlw (k : Byte) (s : State) : Host.Outcome State Fault Refusal :=
  conclude s 2#21 (runIorlw k s)

/-- R167: W XOR the literal. -/
def runXorlw (k : Byte) (s : State) : Except CoreFault Progress :=
  runLiteral maskZN (fun w k => (w ^^^ k, logicFlags (w ^^^ k))) k s

/-- R167: the step of `runXorlw`. -/
def execXorlw (k : Byte) (s : State) : Host.Outcome State Fault Refusal :=
  conclude s 2#21 (runXorlw k s)

end Sys2Proof.Machine
end

