-- ==== Sys2Proof/Machine/Move.lean ====
section
/-! DEFINITION. Machine/Move.lean: the meanings of spec/45_move.md. -/

namespace Sys2Proof.Machine

/-- R211: the addresses MOVFF may not name or reach: PCL, TOSL, TOSH, TOSU. -/
def restricted (a : DAddr) : Bool := a == pclAddr || a == toslAddr || a == toshAddr || a == tosuAddr

/-- R211: the source descriptor. -/
def movffSource (fs : DAddr) (s : State) : Access := s.operand fs

/-- R211: the destination descriptor, over the pointers after the source's update. -/
def movffDest (fs fd : DAddr) (s : State) : Access := operandWith (ptrAfter (movffSource fs s).upd s.ptr) s.w fd

/-- R211: an operand is restricted as encoded, or as reached (where the pointer it goes through holds a value, R329). -/
def restrictedThrough (s : State) (addr ea : DAddr) : Bool :=
  restricted addr || ((s.missing (operandNeeds addr)).isNone && restricted ea)

/-- R211: the offending address, in the order in which the rule names the four (log 5). -/
def offendingAddress (fs fd : DAddr) (s : State) : DAddr :=
  if restricted fs then fs
  else if restricted fd then fd
  else if restrictedThrough s fs (movffSource fs s).ea then (movffSource fs s).ea
  else (movffDest fs fd s).ea

/-- R321: what the fatal fault keeps. -/
def movffFault (fs fd : DAddr) (s : State) : CoreFault :=
  .fatal .restrictedRegister
    { pc0 := s.pc
      words := [s.progWord s.pc, s.progWord (s.pcPlus 2#21)]
      fs := fs
      fd := fd
      address := offendingAddress fs fd s }

/-- R211, R325: MOVFF's plan: the fatal condition, then the refusals. Where several cells hold no value, the refusal names the source's
pointer, then the destination's, then the source (DESIGN CHOICE, log 8). -/
def planMovff (fs fd : DAddr) (s : State) : Except CoreFault (Access × Access) :=
  if restrictedThrough s fs (movffSource fs s).ea || restrictedThrough s fd (movffDest fs fd s).ea then
    .error (movffFault fs fd s)
  else
    match s.missing (operandNeeds fs ++ operandNeeds fd ++ readNeeds (movffSource fs s)) with
    | some c => .error (.refused s.pc (.noValue c))
    | none =>
      if collides (movffSource fs s).upd (movffDest fs fd s).ea || collides (movffDest fs fd s).upd (movffDest fs fd s).ea then
        .error (.refused s.pc .fsrCollision)
      else .ok (movffSource fs s, movffDest fs fd s)

/-- R210: move the operand; Z and N from it. -/
def runMovf (f : Byte) (d : Dest) (a : Bank) (s : State) : Except CoreFault Progress :=
  runByteDA [] maskZN (fun _ v => (v, logicFlags v)) f d a s

/-- R210: the step of `runMovf`. -/
def execMovf (f : Byte) (d : Dest) (a : Bank) (s : State) : Host.Outcome State Fault Refusal :=
  conclude s 2#21 (runMovf f d a s)

/-- R211: move a byte between two 12-bit addresses. -/
def runMovff (fs fd : DAddr) (s : State) : Except CoreFault Progress :=
  (planMovff fs fd s).map fun acc =>
    (Progress.start s).read acc.1 |>.write acc.2 (s.readValue acc.1) |>.applyUpd acc.1.upd |>.applyUpd acc.2.upd

/-- R211: the step of `runMovff`. -/
def execMovff (fs fd : DAddr) (s : State) : Host.Outcome State Fault Refusal :=
  conclude s 4#21 (runMovff fs fd s)

/-- R212: write W to the operand, which is not read. -/
def runMovwf (f : Byte) (a : Bank) (s : State) : Except CoreFault Progress :=
  runWrite [needW] State.w maskNone FlagVec.none f a s

/-- R212: the step of `runMovwf`. -/
def execMovwf (f : Byte) (a : Bank) (s : State) : Host.Outcome State Fault Refusal :=
  conclude s 2#21 (runMovwf f a s)

/-- R213: load the literal into W. -/
def runMovlw (k : Byte) (s : State) : Except CoreFault Progress :=
  runState (State.setCell wregAddr k) s

/-- R213: the step of `runMovlw`. -/
def execMovlw (k : Byte) (s : State) : Host.Outcome State Fault Refusal :=
  conclude s 2#21 (runMovlw k s)

/-- R214: load the literal into BSR. -/
def runMovlb (k : BitVec 4) (s : State) : Except CoreFault Progress :=
  runState (State.setCell bsrAddr (0#4 ++ k)) s

/-- R214: the step of `runMovlb`. -/
def execMovlb (k : BitVec 4) (s : State) : Host.Outcome State Fault Refusal :=
  conclude s 2#21 (runMovlb k s)

/-- R215, R110: load a 12-bit literal into FSRf. There is no FSR3: the word with f = 3 is a one-word NOP (log 4). -/
def runLfsr (f : BitVec 2) (k : BitVec 12) (s : State) : Except CoreFault Progress :=
  match Fsr.ofField f with
  | some n => runState (State.setPtr n k) s
  | none => runState id s

/-- R215, R110: the step of `runLfsr`. -/
def execLfsr (f : BitVec 2) (k : BitVec 12) (s : State) : Host.Outcome State Fault Refusal :=
  conclude s (if f = 3#2 then 2#21 else 4#21) (runLfsr f k s)

/-- R216: write 0 to the operand, which is not read, and set Z. -/
def runClrf (f : Byte) (a : Bank) (s : State) : Except CoreFault Progress :=
  runWrite [] (fun _ => 0x00#8) maskZ (FlagVec.mk false false true false false) f a s

/-- R216: the step of `runClrf`. -/
def execClrf (f : Byte) (a : Bank) (s : State) : Host.Outcome State Fault Refusal :=
  conclude s 2#21 (runClrf f a s)

/-- R217: write 0xFF to the operand, which is not read. -/
def runSetf (f : Byte) (a : Bank) (s : State) : Except CoreFault Progress :=
  runWrite [] (fun _ => 0xFF#8) maskNone FlagVec.none f a s

/-- R217: the step of `runSetf`. -/
def execSetf (f : Byte) (a : Bank) (s : State) : Host.Outcome State Fault Refusal :=
  conclude s 2#21 (runSetf f a s)

end Sys2Proof.Machine
end

