-- ==== Sys2Proof/Machine/Multiply.lean ====
section
/-! DEFINITION. Machine/Multiply.lean: the meanings of spec/47_multiply.md. -/

namespace Sys2Proof.Machine

/-- R240, R241: the 16-bit product goes to PRODH and PRODL. -/
def State.setProd (p : Word16) (s : State) : State :=
  (s.setCell prodhAddr (p.extractLsb 15 8)).setCell prodlAddr (p.extractLsb 7 0)

/-- R240: the unsigned product. -/
def product (x y : Byte) : Word16 := BitVec.ofNat 16 (x.toNat * y.toNat)

/-- R240: W times the operand, unsigned, into PRODH and PRODL. -/
def runMulwf (f : Byte) (a : Bank) (s : State) : Except CoreFault Progress :=
  (planRead s (s.resolve f a) [needW]).map fun acc =>
    (Progress.start s).read acc |>.update (State.setProd (product s.w (s.readValue acc))) |>.applyUpd acc.upd

/-- R240: the step of `runMulwf`. -/
def execMulwf (f : Byte) (a : Bank) (s : State) : Host.Outcome State Fault Refusal :=
  conclude s 2#21 (runMulwf f a s)

/-- R241: W times the literal, unsigned, into PRODH and PRODL. -/
def runMullw (k : Byte) (s : State) : Except CoreFault Progress :=
  (planRegs s [needW]).map fun _ => (Progress.start s).update (State.setProd (product s.w k))

/-- R241: the step of `runMullw`. -/
def execMullw (k : Byte) (s : State) : Host.Outcome State Fault Refusal :=
  conclude s 2#21 (runMullw k s)

end Sys2Proof.Machine
end

