-- ==== Sys2Proof/Machine/Rotate.lean ====
section
/-! DEFINITION. Machine/Rotate.lean: the meanings of spec/46_shift_rotate.md. -/

namespace Sys2Proof.Machine

/-- R230: rotate the operand left through C. -/
def runRlcf (f : Byte) (d : Dest) (a : Bank) (s : State) : Except CoreFault Progress :=
  runByteDA [needFlags maskC] maskCZN (fun s v => (v.extractLsb 6 0 ++ BitVec.ofBool s.flagC, rotateFlags (v.extractLsb 6 0 ++ BitVec.ofBool s.flagC) (v.getLsbD 7))) f d a s

/-- R230: the step of `runRlcf`. -/
def execRlcf (f : Byte) (d : Dest) (a : Bank) (s : State) : Host.Outcome State Fault Refusal :=
  conclude s 2#21 (runRlcf f d a s)

/-- R231: rotate the operand left without the carry. -/
def runRlncf (f : Byte) (d : Dest) (a : Bank) (s : State) : Except CoreFault Progress :=
  runByteDA [] maskZN (fun _ v => (v.extractLsb 6 0 ++ v.extractLsb 7 7, logicFlags (v.extractLsb 6 0 ++ v.extractLsb 7 7))) f d a s

/-- R231: the step of `runRlncf`. -/
def execRlncf (f : Byte) (d : Dest) (a : Bank) (s : State) : Host.Outcome State Fault Refusal :=
  conclude s 2#21 (runRlncf f d a s)

/-- R232: rotate the operand right through C. -/
def runRrcf (f : Byte) (d : Dest) (a : Bank) (s : State) : Except CoreFault Progress :=
  runByteDA [needFlags maskC] maskCZN (fun s v => (BitVec.ofBool s.flagC ++ v.extractLsb 7 1, rotateFlags (BitVec.ofBool s.flagC ++ v.extractLsb 7 1) (v.getLsbD 0))) f d a s

/-- R232: the step of `runRrcf`. -/
def execRrcf (f : Byte) (d : Dest) (a : Bank) (s : State) : Host.Outcome State Fault Refusal :=
  conclude s 2#21 (runRrcf f d a s)

/-- R233: rotate the operand right without the carry. -/
def runRrncf (f : Byte) (d : Dest) (a : Bank) (s : State) : Except CoreFault Progress :=
  runByteDA [] maskZN (fun _ v => (v.extractLsb 0 0 ++ v.extractLsb 7 1, logicFlags (v.extractLsb 0 0 ++ v.extractLsb 7 1))) f d a s

/-- R233: the step of `runRrncf`. -/
def execRrncf (f : Byte) (d : Dest) (a : Bank) (s : State) : Host.Outcome State Fault Refusal :=
  conclude s 2#21 (runRrncf f d a s)

/-- R234: exchange the nibbles of the operand; no flags. -/
def runSwapf (f : Byte) (d : Dest) (a : Bank) (s : State) : Except CoreFault Progress :=
  runByteDA [] maskNone (fun _ v => (v.extractLsb 3 0 ++ v.extractLsb 7 4, FlagVec.none)) f d a s

/-- R234: the step of `runSwapf`. -/
def execSwapf (f : Byte) (d : Dest) (a : Bank) (s : State) : Host.Outcome State Fault Refusal :=
  conclude s 2#21 (runSwapf f d a s)

end Sys2Proof.Machine
end

