-- ==== Sys2Proof/Machine/System.lean ====
section
/-! DEFINITION. Machine/System.lean: the meanings of the system instructions of spec/49_table_system.md (R300 to R304). -/

namespace Sys2Proof.Machine

/-- R300, R301, R107: NOP: no effect; also every unrecognized word. -/
def runNop (s : State) : Except CoreFault Progress :=
  runState id s

/-- R300, R301, R107: the step of `runNop`. -/
def execNop (s : State) : Host.Outcome State Fault Refusal :=
  conclude s 2#21 (runNop s)

/-- R302: SLEEP: TO set, PD cleared, Halted; the PC advances. -/
def runSleep (s : State) : Except CoreFault Progress :=
  runState (fun t => { t.setBits rconAddr 0x0C#8 0x08#8 with run := .halted }) s

/-- R302: the step of `runSleep`. -/
def execSleep (s : State) : Host.Outcome State Fault Refusal :=
  conclude s 2#21 (runSleep s)

/-- R303: CLRWDT: TO and PD set. -/
def runClrwdt (s : State) : Except CoreFault Progress :=
  runState (State.setBits rconAddr 0x0C#8 0x0C#8) s

/-- R303: the step of `runClrwdt`. -/
def execClrwdt (s : State) : Host.Outcome State Fault Refusal :=
  conclude s 2#21 (runClrwdt s)

/-- R304, R371: RESET: the software reset, and on at the reset vector (R372). -/
def runReset (s : State) : Except CoreFault Progress :=
  .ok ((Progress.start s).update State.softReset |>.goTo 0#21)

/-- R304, R371: the step of `runReset`. -/
def execReset (s : State) : Host.Outcome State Fault Refusal :=
  conclude s 2#21 (runReset s)

end Sys2Proof.Machine
end

