-- ==== Sys2Proof/Machine/Table.lean ====
section
/-! DEFINITION. Machine/Table.lean: the meanings of the table instructions of spec/49_table_system.md (R290 to R299). -/

namespace Sys2Proof.Machine

/-- R292: TBLRD*: read the byte at TBLPTR into TABLAT. -/
def runTblrd (s : State) : Except CoreFault Progress :=
  runState (State.tableRead s.tblptr) s

/-- R292: the step of `runTblrd`. -/
def execTblrd (s : State) : Host.Outcome State Fault Refusal :=
  conclude s 2#21 (runTblrd s)

/-- R293: TBLRD*+: read, then increment TBLPTR. -/
def runTblrdPostInc (s : State) : Except CoreFault Progress :=
  runState (fun t => (t.tableRead s.tblptr).setTblptr (s.tblptr + 1#22)) s

/-- R293: the step of `runTblrdPostInc`. -/
def execTblrdPostInc (s : State) : Host.Outcome State Fault Refusal :=
  conclude s 2#21 (runTblrdPostInc s)

/-- R294: TBLRD*-: read, then decrement TBLPTR. -/
def runTblrdPostDec (s : State) : Except CoreFault Progress :=
  runState (fun t => (t.tableRead s.tblptr).setTblptr (s.tblptr - 1#22)) s

/-- R294: the step of `runTblrdPostDec`. -/
def execTblrdPostDec (s : State) : Host.Outcome State Fault Refusal :=
  conclude s 2#21 (runTblrdPostDec s)

/-- R295: TBLRD+*: increment TBLPTR, then read at the new TBLPTR. -/
def runTblrdPreInc (s : State) : Except CoreFault Progress :=
  runState (fun t => (t.setTblptr (s.tblptr + 1#22)).tableRead (s.tblptr + 1#22)) s

/-- R295: the step of `runTblrdPreInc`. -/
def execTblrdPreInc (s : State) : Host.Outcome State Fault Refusal :=
  conclude s 2#21 (runTblrdPreInc s)

/-- R296, R291: TBLWT*: no effect. -/
def runTblwt (s : State) : Except CoreFault Progress :=
  runState id s

/-- R296, R291: the step of `runTblwt`. -/
def execTblwt (s : State) : Host.Outcome State Fault Refusal :=
  conclude s 2#21 (runTblwt s)

/-- R297, R291: TBLWT*+: increment TBLPTR, no write. -/
def runTblwtPostInc (s : State) : Except CoreFault Progress :=
  runState (State.setTblptr (s.tblptr + 1#22)) s

/-- R297, R291: the step of `runTblwtPostInc`. -/
def execTblwtPostInc (s : State) : Host.Outcome State Fault Refusal :=
  conclude s 2#21 (runTblwtPostInc s)

/-- R298, R291: TBLWT*-: decrement TBLPTR, no write. -/
def runTblwtPostDec (s : State) : Except CoreFault Progress :=
  runState (State.setTblptr (s.tblptr - 1#22)) s

/-- R298, R291: the step of `runTblwtPostDec`. -/
def execTblwtPostDec (s : State) : Host.Outcome State Fault Refusal :=
  conclude s 2#21 (runTblwtPostDec s)

/-- R299, R291: TBLWT+*: increment TBLPTR, no write. -/
def runTblwtPreInc (s : State) : Except CoreFault Progress :=
  runState (State.setTblptr (s.tblptr + 1#22)) s

/-- R299, R291: the step of `runTblwtPreInc`. -/
def execTblwtPreInc (s : State) : Host.Outcome State Fault Refusal :=
  conclude s 2#21 (runTblwtPreInc s)

end Sys2Proof.Machine
end

