-- ==== Sys2Proof/WellFormed.lean ====
section
/-! DEFINITION. WellFormed.lean: which terms of `Instr` stand for an instruction of the spec. Every field but one may hold any
value of its width (spec/30_encoding.md R102); LFSR's two-bit field names FSR0..FSR2, and 3 is unrecognized (R110). -/

namespace Sys2Proof

/-- R110: LFSR's f is 0, 1 or 2. No other row of the opcode table has a constraint (R105). -/
def Instr.wellFormed : Instr → Bool
  | .lfsr f _ => f != 3#2
  | _ => true

end Sys2Proof
end

