-- ==== Sys2Proof/Decode.lean ====
section
/-! DEFINITION. Decode.lean: the decoder of spec/30_encoding.md (R101 to R112), from the rows of spec/opcode_table.json, and the
encoder after it, from the same formats. -/

namespace Sys2Proof

/-! ## Fields of the first word (R101, R102) -/

/-- f or k or an 8-bit n: w1[7:0]. -/
def fieldLow8 (w : Word16) : Byte := w.extractLsb 7 0

/-- a = w1[8]. -/
def fieldA (w : Word16) : Bank := if w.getLsbD 8 then .banked else .access

/-- d = w1[9]. -/
def fieldD (w : Word16) : Dest := if w.getLsbD 9 then .file else .w

/-- b = w1[11:9]. -/
def fieldB (w : Word16) : BitVec 3 := w.extractLsb 11 9

/-- k of LIT4: w1[3:0]. -/
def fieldLow4 (w : Word16) : BitVec 4 := w.extractLsb 3 0

/-- n of BR11: w1[10:0]. -/
def fieldLow11 (w : Word16) : BitVec 11 := w.extractLsb 10 0

/-- fs of MOVFF2, fd or k[19:8] of a second word: w[11:0]. -/
def fieldLow12 (w : Word16) : BitVec 12 := w.extractLsb 11 0

/-- f of LFSR2: w1[5:4]. -/
def fieldFsr (w : Word16) : BitVec 2 := w.extractLsb 5 4

/-- s of RET_S is bit 0, s of CALL2 is bit 8. -/
def fieldS (bit : Nat) (w : Word16) : Speed := if w.getLsbD bit then .fast else .normal

/-! ## Rows (R105) -/

/-- One row of spec/opcode_table.json: the width of its opcode field, its mask and match, and the operation with its fields
extracted from the first word (fields that the second word supplies are 0 until `fold`). `build` answers none where the row's
constraint fails. -/
structure Row where
  width : Nat
  mask : Word16
  pat : Word16
  build : Word16 → Option Instr

/-- R105: (w1 & row.mask) = row.match. -/
def Row.hits (r : Row) (w : Word16) : Bool := w &&& r.mask == r.pat

def rowByteDA (pat : Word16) (op : Byte → Dest → Bank → Instr) : Row :=
  ⟨6, 0xFC00#16, pat, fun w => some (op (fieldLow8 w) (fieldD w) (fieldA w))⟩

def rowByteA (pat : Word16) (op : Byte → Bank → Instr) : Row :=
  ⟨7, 0xFE00#16, pat, fun w => some (op (fieldLow8 w) (fieldA w))⟩

def rowBit (pat : Word16) (op : Byte → BitVec 3 → Bank → Instr) : Row :=
  ⟨4, 0xF000#16, pat, fun w => some (op (fieldLow8 w) (fieldB w) (fieldA w))⟩

/-- LIT8 and BR8. -/
def rowLow8 (pat : Word16) (op : Byte → Instr) : Row :=
  ⟨8, 0xFF00#16, pat, fun w => some (op (fieldLow8 w))⟩

def rowBr11 (pat : Word16) (op : BitVec 11 → Instr) : Row :=
  ⟨5, 0xF800#16, pat, fun w => some (op (fieldLow11 w))⟩

def rowRetS (pat : Word16) (op : Speed → Instr) : Row :=
  ⟨15, 0xFFFE#16, pat, fun w => some (op (fieldS 0 w))⟩

def rowInh (pat : Word16) (op : Instr) : Row :=
  ⟨16, 0xFFFF#16, pat, fun _ => some op⟩

/-- LIT4: MOVLB. -/
def rowMovlb : Row := ⟨12, 0xFFF0#16, 0x0100#16, fun w => some (.movlb (fieldLow4 w))⟩

/-- LFSR2: the one row with a constraint, f ≠ 3 (R110). -/
def rowLfsr : Row :=
  ⟨10, 0xFFC0#16, 0xEE00#16,
    fun w => if fieldFsr w == 3#2 then none else some (.lfsr (fieldFsr w) (fieldLow4 w ++ 0#8))⟩

/-- CALL2. -/
def rowCall : Row := ⟨7, 0xFE00#16, 0xEC00#16, fun w => some (.call (0#12 ++ fieldLow8 w) (fieldS 8 w))⟩

/-- GOTO2. -/
def rowGoto : Row := ⟨8, 0xFF00#16, 0xEF00#16, fun w => some (.goto (0#12 ++ fieldLow8 w))⟩

/-- MOVFF2. -/
def rowMovff : Row := ⟨4, 0xF000#16, 0xC000#16, fun w => some (.movff (fieldLow12 w) 0#12)⟩

/-- NOPX: the second row of NOP (R111). -/
def rowNopx : Row := ⟨4, 0xF000#16, 0xF000#16, fun w => some (.nopx (fieldLow12 w))⟩

def rowsInherent : List Row :=
  [ rowInh 0x0000#16 .nop, rowInh 0x0003#16 .sleep, rowInh 0x0004#16 .clrwdt, rowInh 0x0005#16 .push,
    rowInh 0x0006#16 .pop, rowInh 0x0007#16 .daw, rowInh 0x0008#16 .tblrd, rowInh 0x0009#16 .tblrdPostInc,
    rowInh 0x000A#16 .tblrdPostDec, rowInh 0x000B#16 .tblrdPreInc, rowInh 0x000C#16 .tblwt,
    rowInh 0x000D#16 .tblwtPostInc, rowInh 0x000E#16 .tblwtPostDec, rowInh 0x000F#16 .tblwtPreInc,
    rowInh 0x00FF#16 .reset ]

def rowsLow8 : List Row :=
  [ rowLow8 0x0800#16 .sublw, rowLow8 0x0900#16 .iorlw, rowLow8 0x0A00#16 .xorlw, rowLow8 0x0B00#16 .andlw,
    rowLow8 0x0C00#16 .retlw, rowLow8 0x0D00#16 .mullw, rowLow8 0x0E00#16 .movlw, rowLow8 0x0F00#16 .addlw,
    rowLow8 0xE000#16 .bz, rowLow8 0xE100#16 .bnz, rowLow8 0xE200#16 .bc, rowLow8 0xE300#16 .bnc,
    rowLow8 0xE400#16 .bov, rowLow8 0xE500#16 .bnov, rowLow8 0xE600#16 .bn, rowLow8 0xE700#16 .bnn,
    rowGoto ]

def rowsByteA : List Row :=
  [ rowByteA 0x0200#16 .mulwf, rowByteA 0x6000#16 .cpfslt, rowByteA 0x6200#16 .cpfseq, rowByteA 0x6400#16 .cpfsgt,
    rowByteA 0x6600#16 .tstfsz, rowByteA 0x6800#16 .setf, rowByteA 0x6A00#16 .clrf, rowByteA 0x6C00#16 .negf,
    rowByteA 0x6E00#16 .movwf, rowCall ]

def rowsByteDA : List Row :=
  [ rowByteDA 0x0400#16 .decf, rowByteDA 0x1000#16 .iorwf, rowByteDA 0x1400#16 .andwf, rowByteDA 0x1800#16 .xorwf,
    rowByteDA 0x1C00#16 .comf, rowByteDA 0x2000#16 .addwfc, rowByteDA 0x2400#16 .addwf, rowByteDA 0x2800#16 .incf,
    rowByteDA 0x2C00#16 .decfsz, rowByteDA 0x3000#16 .rrcf, rowByteDA 0x3400#16 .rlcf, rowByteDA 0x3800#16 .swapf,
    rowByteDA 0x3C00#16 .incfsz, rowByteDA 0x4000#16 .rrncf, rowByteDA 0x4400#16 .rlncf, rowByteDA 0x4800#16 .infsnz,
    rowByteDA 0x4C00#16 .dcfsnz, rowByteDA 0x5000#16 .movf,
    rowByteDA 0x5400#16 .subfwb,  -- R138: W minus the operand
    rowByteDA 0x5800#16 .subwfb,  -- R137: the operand minus W
    rowByteDA 0x5C00#16 .subwf ]

def rowsWidth4 : List Row :=
  [ rowBit 0x7000#16 .btg, rowBit 0x8000#16 .bsf, rowBit 0x9000#16 .bcf, rowBit 0xA000#16 .btfss,
    rowBit 0xB000#16 .btfsc, rowMovff, rowNopx ]

/-- R105: the rows from the most specific opcode field (16 bits) to the coarsest (4 bits). -/
def opcodeRows : List Row :=
  rowsInherent ++ [rowRetS 0x0010#16 .retfie, rowRetS 0x0012#16 .ret] ++ [rowMovlb] ++ [rowLfsr] ++ rowsLow8 ++ rowsByteA
    ++ rowsByteDA ++ [rowBr11 0xD000#16 .bra, rowBr11 0xD800#16 .rcall] ++ rowsWidth4

/-! ## The decoder -/

/-- R105 `decode`: the first row that matches and whose constraint holds; an unrecognized word is NOP (R107). -/
def decode (w1 : Word16) : Instr :=
  (opcodeRows.findSome? fun r => if r.hits w1 then r.build w1 else none).getD .nop

/-- R105 `fold`, R108: the fields a second word supplies. Only the named bits of w2 are used. -/
def fold (op : Instr) (w2 : Word16) : Instr :=
  match op with
  | .call k s => .call (fieldLow12 w2 ++ k.extractLsb 7 0) s
  | .goto k => .goto (fieldLow12 w2 ++ k.extractLsb 7 0)
  | .lfsr f k => .lfsr f (k.extractLsb 11 8 ++ fieldLow8 w2)
  | .movff fs _ => .movff fs (fieldLow12 w2)
  | other => other

/-- R105 `decodeStep` on the two words at pc0: w2 is used only by an instruction of two words. -/
def decodeWords (w1 w2 : Word16) : Instr :=
  if (decode w1).twoWord then fold (decode w1) w2 else decode w1

/-- Why a list of bytes holds no instruction: no word is ever rejected (R107), a list may be too short for one. -/
inductive DecodeError where
  /-- Fewer than two bytes. Safe: no instruction is shorter (R100). -/
  | noFirstWord
  /-- A two-word instruction whose second word is missing. Safe: the decoder must fetch and fold it (R105). -/
  | noSecondWord
deriving DecidableEq, Repr

/-- R80: a word from its low byte, at the even address, and its high byte. -/
def wordOf (lo hi : Byte) : Word16 := hi ++ lo

/-- The decoder on bytes in memory order, with the bytes it leaves. -/
def decodeBytes : List Byte → Except DecodeError (Instr × List Byte)
  | b0 :: b1 :: rest =>
    if (decode (wordOf b0 b1)).twoWord then
      match rest with
      | b2 :: b3 :: rest' => .ok (fold (decode (wordOf b0 b1)) (wordOf b2 b3), rest')
      | _ => .error .noSecondWord
    else .ok (decode (wordOf b0 b1), rest)
  | _ => .error .noFirstWord

/-- The byte of `w` at bits 8i+7 .. 8i. -/
def byteOfNat (w i : Nat) : Byte := BitVec.ofNat 8 (w >>> (8 * i))

/-- The four bytes, in memory order, of an instruction whose bits are `w` (bit 0 the least significant bit of the first word), the
bits from `nbits` up being 0: each word is stored low byte first (R80). -/
def tableBytes (nbits w : Nat) : List Byte :=
  [byteOfNat (w % 2 ^ nbits) 0, byteOfNat (w % 2 ^ nbits) 1, byteOfNat (w % 2 ^ nbits) 2, byteOfNat (w % 2 ^ nbits) 3]

/-- What the decoder reads from an instruction numbered as the opcode table numbers its bits. -/
def decodeTableWord (nbits w : Nat) : Option Instr :=
  match decodeBytes (tableBytes nbits w) with
  | .ok (i, _) => some i
  | .error _ => none

/-! ## The encoder (R101) -/

def Dest.bit : Dest → BitVec 1
  | .w => 0#1
  | .file => 1#1

def Bank.bit : Bank → BitVec 1
  | .access => 0#1
  | .banked => 1#1

def Speed.bit : Speed → BitVec 1
  | .normal => 0#1
  | .fast => 1#1

def encByteDA (op : BitVec 6) (f : Byte) (d : Dest) (a : Bank) : List Word16 := [op ++ d.bit ++ a.bit ++ f]
def encByteA (op : BitVec 7) (f : Byte) (a : Bank) : List Word16 := [op ++ a.bit ++ f]
def encBit (op : BitVec 4) (f : Byte) (b : BitVec 3) (a : Bank) : List Word16 := [op ++ b ++ a.bit ++ f]
def encLow8 (op : Byte) (k : Byte) : List Word16 := [op ++ k]
def encBr11 (op : BitVec 5) (n : BitVec 11) : List Word16 := [op ++ n]
/-- A second word that carries twelve bits (CALL2, GOTO2, MOVFF2). -/
def encSecond12 (x : BitVec 12) : Word16 := 0b1111#4 ++ x

/-- The words of an instruction, from the encodings of its rule and the formats of R101. -/
def encode : Instr → List Word16
  | .addwf f d a => encByteDA 0b001001#6 f d a
  | .addwfc f d a => encByteDA 0b001000#6 f d a
  | .addlw k => encLow8 0b00001111#8 k
  | .subwf f d a => encByteDA 0b010111#6 f d a
  | .subwfb f d a => encByteDA 0b010110#6 f d a
  | .subfwb f d a => encByteDA 0b010101#6 f d a
  | .sublw k => encLow8 0b00001000#8 k
  | .negf f a => encByteA 0b0110110#7 f a
  | .incf f d a => encByteDA 0b001010#6 f d a
  | .decf f d a => encByteDA 0b000001#6 f d a
  | .daw => [0b0000000000000111#16]
  | .andwf f d a => encByteDA 0b000101#6 f d a
  | .iorwf f d a => encByteDA 0b000100#6 f d a
  | .xorwf f d a => encByteDA 0b000110#6 f d a
  | .comf f d a => encByteDA 0b000111#6 f d a
  | .andlw k => encLow8 0b00001011#8 k
  | .iorlw k => encLow8 0b00001001#8 k
  | .xorlw k => encLow8 0b00001010#8 k
  | .incfsz f d a => encByteDA 0b001111#6 f d a
  | .infsnz f d a => encByteDA 0b010010#6 f d a
  | .decfsz f d a => encByteDA 0b001011#6 f d a
  | .dcfsnz f d a => encByteDA 0b010011#6 f d a
  | .cpfseq f a => encByteA 0b0110001#7 f a
  | .cpfsgt f a => encByteA 0b0110010#7 f a
  | .cpfslt f a => encByteA 0b0110000#7 f a
  | .tstfsz f a => encByteA 0b0110011#7 f a
  | .bcf f b a => encBit 0b1001#4 f b a
  | .bsf f b a => encBit 0b1000#4 f b a
  | .btg f b a => encBit 0b0111#4 f b a
  | .btfsc f b a => encBit 0b1011#4 f b a
  | .btfss f b a => encBit 0b1010#4 f b a
  | .movf f d a => encByteDA 0b010100#6 f d a
  | .movff fs fd => [0b1100#4 ++ fs, encSecond12 fd]
  | .movwf f a => encByteA 0b0110111#7 f a
  | .movlw k => encLow8 0b00001110#8 k
  | .movlb k => [0b000000010000#12 ++ k]
  | .lfsr f k => [0b1110111000#10 ++ f ++ k.extractLsb 11 8, 0b11110000#8 ++ k.extractLsb 7 0]
  | .clrf f a => encByteA 0b0110101#7 f a
  | .setf f a => encByteA 0b0110100#7 f a
  | .rlcf f d a => encByteDA 0b001101#6 f d a
  | .rlncf f d a => encByteDA 0b010001#6 f d a
  | .rrcf f d a => encByteDA 0b001100#6 f d a
  | .rrncf f d a => encByteDA 0b010000#6 f d a
  | .swapf f d a => encByteDA 0b001110#6 f d a
  | .mulwf f a => encByteA 0b0000001#7 f a
  | .mullw k => encLow8 0b00001101#8 k
  | .bra n => encBr11 0b11010#5 n
  | .bz n => encLow8 0b11100000#8 n
  | .bnz n => encLow8 0b11100001#8 n
  | .bc n => encLow8 0b11100010#8 n
  | .bnc n => encLow8 0b11100011#8 n
  | .bov n => encLow8 0b11100100#8 n
  | .bnov n => encLow8 0b11100101#8 n
  | .bn n => encLow8 0b11100110#8 n
  | .bnn n => encLow8 0b11100111#8 n
  | .goto k => [0b11101111#8 ++ k.extractLsb 7 0, encSecond12 (k.extractLsb 19 8)]
  | .call k s => [0b1110110#7 ++ s.bit ++ k.extractLsb 7 0, encSecond12 (k.extractLsb 19 8)]
  | .rcall n => encBr11 0b11011#5 n
  | .retfie s => [0b000000000001000#15 ++ s.bit]
  | .ret s => [0b000000000001001#15 ++ s.bit]
  | .retlw k => encLow8 0b00001100#8 k
  | .push => [0b0000000000000101#16]
  | .pop => [0b0000000000000110#16]
  | .tblrd => [0b0000000000001000#16]
  | .tblrdPostInc => [0b0000000000001001#16]
  | .tblrdPostDec => [0b0000000000001010#16]
  | .tblrdPreInc => [0b0000000000001011#16]
  | .tblwt => [0b0000000000001100#16]
  | .tblwtPostInc => [0b0000000000001101#16]
  | .tblwtPostDec => [0b0000000000001110#16]
  | .tblwtPreInc => [0b0000000000001111#16]
  | .nop => [0b0000000000000000#16]
  | .sleep => [0b0000000000000011#16]
  | .clrwdt => [0b0000000000000100#16]
  | .reset => [0b0000000011111111#16]

/-- The bytes of words as memory holds them (R80): each word low byte first. -/
def bytesOfWords (ws : List Word16) : List Byte := ws.flatMap fun w => [w.extractLsb 7 0, w.extractLsb 15 8]

end Sys2Proof
end

