-- ==== Sys2Proof/Machine/Fetch.lean ====
section
/-! DEFINITION. Machine/Fetch.lean: fetching and decoding at the PC (spec/30_encoding.md R105, R120), and placing an instruction
where the next step fetches. -/

namespace Sys2Proof.Machine

/-- R105 `decodeStep`: the instruction at the PC. The second word is at (pc0 + 2) mod PROG_BYTES (R80). -/
def fetch (s : State) : Instr := decodeWords (s.progWord s.pc) (s.progWord (s.pcPlus 2#21))

/-- Writes a byte of program memory. No instruction does (R43, R291); a load does (R342). -/
def State.setProgByte (a : Nat) (v : Byte) (s : State) : State :=
  { s with prog := Memory.set unloadedByte s.prog a v }

/-- Writes the word at a byte address, low byte first (R80). -/
def State.setProgWord (a : PAddr) (lo hi : Byte) (s : State) : State :=
  (s.setProgByte a.toNat lo).setProgByte (a.toNat + 1) hi

/-- An instruction of two words, numbered as the opcode table numbers its bits, at the PC of a running core. The first word is
written last, so that it stands even where PROG_BYTES = 2 leaves one word. -/
def State.placeInstr (nbits w : Nat) (s : State) : State :=
  (({ s with run := .running } : State).setProgWord (s.pcPlus 2#21)
      (byteOfNat (w % 2 ^ nbits) 2) (byteOfNat (w % 2 ^ nbits) 3)).setProgWord s.pc
    (byteOfNat (w % 2 ^ nbits) 0) (byteOfNat (w % 2 ^ nbits) 1)

end Sys2Proof.Machine
end

