-- ==== Sys2Proof/Machine/Step.lean ====
section
/-! DEFINITION. Machine/Step.lean: one step of the core (spec/30_encoding.md R120, R121). -/

namespace Sys2Proof.Machine

/-- R120: a Running core executes the instruction at its PC. R121: a Halted or Faulted core has no step. -/
def step (s : State) : Host.Outcome State Fault Refusal :=
  match s.run with
  | .running => exec (fetch s) s
  | .halted => .fault .coreHalted
  | .faulted why => .fault (.coreFaulted why)

/-- The state whose next step runs the instruction with these bits (log 10). -/
def State.withFetchWord (s : State) (nbits w : Nat) : State := s.placeInstr nbits w

end Sys2Proof.Machine
end

