-- ==== Sys2Proof/Machine/Trace.lean ====
section
/-! DEFINITION. Machine/Trace.lean: the trace events a step emits (spec/60_exceptions.md R345): an output of the step, not state
(R52). -/

namespace Sys2Proof.Machine

/-- The step of an instruction before it is concluded: the same `run…` that its meaning concludes. -/
def runInstr (i : Instr) (s : State) : Except CoreFault Progress :=
  match i with
  | .addwf f d a => runAddwf f d a s
  | .addwfc f d a => runAddwfc f d a s
  | .addlw k => runAddlw k s
  | .subwf f d a => runSubwf f d a s
  | .subwfb f d a => runSubwfb f d a s
  | .subfwb f d a => runSubfwb f d a s
  | .sublw k => runSublw k s
  | .negf f a => runNegf f a s
  | .incf f d a => runIncf f d a s
  | .decf f d a => runDecf f d a s
  | .daw => runDaw s
  | .andwf f d a => runAndwf f d a s
  | .iorwf f d a => runIorwf f d a s
  | .xorwf f d a => runXorwf f d a s
  | .comf f d a => runComf f d a s
  | .andlw k => runAndlw k s
  | .iorlw k => runIorlw k s
  | .xorlw k => runXorlw k s
  | .incfsz f d a => runIncfsz f d a s
  | .infsnz f d a => runInfsnz f d a s
  | .decfsz f d a => runDecfsz f d a s
  | .dcfsnz f d a => runDcfsnz f d a s
  | .cpfseq f a => runCpfseq f a s
  | .cpfsgt f a => runCpfsgt f a s
  | .cpfslt f a => runCpfslt f a s
  | .tstfsz f a => runTstfsz f a s
  | .bcf f b a => runBcf f b a s
  | .bsf f b a => runBsf f b a s
  | .btg f b a => runBtg f b a s
  | .btfsc f b a => runBtfsc f b a s
  | .btfss f b a => runBtfss f b a s
  | .movf f d a => runMovf f d a s
  | .movff fs fd => runMovff fs fd s
  | .movwf f a => runMovwf f a s
  | .movlw k => runMovlw k s
  | .movlb k => runMovlb k s
  | .lfsr f k => runLfsr f k s
  | .clrf f a => runClrf f a s
  | .setf f a => runSetf f a s
  | .rlcf f d a => runRlcf f d a s
  | .rlncf f d a => runRlncf f d a s
  | .rrcf f d a => runRrcf f d a s
  | .rrncf f d a => runRrncf f d a s
  | .swapf f d a => runSwapf f d a s
  | .mulwf f a => runMulwf f a s
  | .mullw k => runMullw k s
  | .bra n => runBra n s
  | .bz n => runBz n s
  | .bnz n => runBnz n s
  | .bc n => runBc n s
  | .bnc n => runBnc n s
  | .bov n => runBov n s
  | .bnov n => runBnov n s
  | .bn n => runBn n s
  | .bnn n => runBnn n s
  | .goto k => runGoto k s
  | .call k sel => runCall k sel s
  | .rcall n => runRcall n s
  | .retfie sel => runRetfie sel s
  | .ret sel => runRet sel s
  | .retlw k => runRetlw k s
  | .push => runPush s
  | .pop => runPop s
  | .tblrd => runTblrd s
  | .tblrdPostInc => runTblrdPostInc s
  | .tblrdPostDec => runTblrdPostDec s
  | .tblrdPreInc => runTblrdPreInc s
  | .tblwt => runTblwt s
  | .tblwtPostInc => runTblwtPostInc s
  | .tblwtPostDec => runTblwtPostDec s
  | .tblwtPreInc => runTblwtPreInc s
  | .nop => runNop s
  | .sleep => runSleep s
  | .clrwdt => runClrwdt s
  | .reset => runReset s

/-- R345(1): the fetch events. -/
def fetchEvents (s : State) : List Event :=
  .opcodeFetch s.pc (s.progWord s.pc)
    :: (if (decode (s.progWord s.pc)).twoWord then [.opcodeFetch (s.pcPlus 2#21) (s.progWord (s.pcPlus 2#21))] else [])

/-- R345: the data events of a step; none where its plan ended in a fatal fault or a refusal. -/
def eventsOf (r : Except CoreFault Progress) : List Event :=
  match r with
  | .ok p => p.events
  | .error _ => []

/-- R345(2), (3): the data events of an instruction. -/
def dataEvents (i : Instr) (s : State) : List Event := eventsOf (runInstr i s)

/-- R345: the events of a step, in order: its fetches, then its data accesses. A core that is not Running takes no step. -/
def stepEvents (s : State) : List Event :=
  match s.run with
  | .running => fetchEvents s ++ dataEvents (fetch s) s
  | _ => []

end Sys2Proof.Machine
end

