-- ==== Sys2Proof/Machine/HostPort.lean ====
section
/-! DEFINITION. Machine/HostPort.lean: the host interface (spec/60_exceptions.md R320, R340 to R347). The host acts between steps;
none of these is part of `step` (log 11). -/

namespace Sys2Proof.Machine

/-- R320: the code of a fault kind. -/
def FaultKind.code : FaultKind → Nat
  | .addressingFault => 1
  | .valueRange => 2
  | .restrictedRegister => 3
  | .stackOverflow => 4
  | .stackUnderflow => 5

/-- R320: the class of a fault kind. -/
def FaultKind.fatal : FaultKind → Bool
  | .addressingFault => true
  | .valueRange => true
  | .restrictedRegister => true
  | .stackOverflow => false
  | .stackUnderflow => false

/-- R320: the kind of an entry of the stack-fault record. -/
def StackFaultKind.kind : StackFaultKind → FaultKind
  | .overflow => .stackOverflow
  | .underflow => .stackUnderflow

/-! ## Inspection (R341) -/

/-- What a host read of a storage cell gives: its byte, the bits that hold no value being free (log 9). -/
def State.hostByte (s : State) (a : DAddr) : Byte :=
  (s.cell a &&& ~~~s.unset a) ||| (Config.hostUnknownByte a &&& s.unset a)

/-- R341: a host read of a data address. -/
def hostRead (s : State) (a : Nat) : Except FaultKind Byte :=
  if 0x1000 ≤ a then .error .addressingFault
  else if isView (BitVec.ofNat 12 a) then .error .restrictedRegister
  else if isGap (BitVec.ofNat 12 a) then .ok 0x00#8
  else .ok (s.hostByte (BitVec.ofNat 12 a))

/-- R341: a host write of a data address. W, STATUS and BSR are the addresses 0xFE8, 0xFD8 and 0xFE0. -/
def hostWrite (s : State) (a v : Nat) : Except FaultKind State :=
  if 0x1000 ≤ a then .error .addressingFault
  else if 0x100 ≤ v then .error .valueRange
  else if isView (BitVec.ofNat 12 a) then .error .restrictedRegister
  else if isGap (BitVec.ofNat 12 a) then .ok s
  else .ok (s.setCell (BitVec.ofNat 12 a) (BitVec.ofNat 8 v))

/-- R24, R341: the flags by name. -/
inductive StatusFlag where
  | c
  | dc
  | z
  | ov
  | n
deriving DecidableEq, Repr

def StatusFlag.bit : StatusFlag → Nat
  | .c => 0
  | .dc => 1
  | .z => 2
  | .ov => 3
  | .n => 4

/-- R341: STATUS read one flag at a time. -/
def hostReadFlag (s : State) (fl : StatusFlag) : Bool := (s.hostByte statusAddr).getLsbD fl.bit

/-- R341: a flag write sets or clears that bit alone. -/
def hostWriteFlag (s : State) (fl : StatusFlag) (v : Bool) : State :=
  s.setBits statusAddr (1#8 <<< fl.bit) (if v then 0xFF#8 else 0x00#8)

/-- R341: a host read of the PC. -/
def hostReadPc (s : State) : PAddr := s.pc

/-- R341: a host write of the PC: rejected unless even and below PROG_BYTES. -/
def hostWritePc (s : State) (v : Nat) : Except FaultKind State :=
  if v % 2 = 0 ∧ v < s.params.progBytes then .ok { s with pc := BitVec.ofNat 21 v } else .error .valueRange

/-! ## Program load (R342) -/

/-- R342: why a load fails. -/
inductive LoadError where
  /-- A load address at or above PROG_BYTES: a load-time error that the loader reports. -/
  | beyondProgram (addr : Nat)
deriving DecidableEq, Repr

/-- R342: one byte of a load. -/
def loadByte (a : Nat) (v : Byte) (s : State) : Except LoadError State :=
  if a < s.params.progBytes then .ok (s.setProgByte a v) else .error (.beyondProgram a)

/-- R342: payload bytes at rising byte addresses, so that a word's first byte is its low byte. Every byte's own address is checked, so a
payload of no byte is accepted wherever its load address lies; a failed load answers its error and no state (DESIGN CHOICE, log 15). -/
def loadBytes (a : Nat) (vs : List Byte) (s : State) : Except LoadError State :=
  match vs with
  | [] => .ok s
  | v :: rest =>
    match loadByte a v s with
    | .ok s' => loadBytes (a + 1) rest s'
    | .error e => .error e

/-- R342: a record, already parsed (the text form is the loader's, R5): data at a 16-bit address, an extended address that sets the
high 16 bits, or the end of the file. -/
inductive LoadRecord where
  | data (addr : BitVec 16) (bytes : List Byte)
  | extended (hi : BitVec 16)
  | endOfFile
deriving DecidableEq, Repr

/-- R342: the records of an image, with the high half of the load address; an end-of-file record ends loading at once. A load over an
earlier image writes the bytes its records supply and no others: a byte they do not supply keeps what it held (DESIGN CHOICE,
log 14). A record's bytes past a 64 KiB boundary carry into the next 64 KiB, and records may end without an end-of-file record (DESIGN
CHOICE, log 15). -/
def loadRecords (hi : BitVec 16) (recs : List LoadRecord) (s : State) : Except LoadError State :=
  match recs with
  | [] => .ok s
  | .endOfFile :: _ => .ok s
  | .extended hi' :: rest => loadRecords hi' rest s
  | .data addr bytes :: rest =>
    match loadBytes (hi ++ addr).toNat bytes s with
    | .ok s' => loadRecords hi rest s'
    | .error e => .error e

/-! ## Pin bridge (R343) -/

/-- R34: the port cells. -/
inductive Port where
  | porta
  | portb
  | trisa
  | trisb
deriving DecidableEq, Repr

def Port.addr : Port → DAddr
  | .porta => portaAddr
  | .portb => portbAddr
  | .trisa => trisaAddr
  | .trisb => trisbAddr

/-- R343: the bridge reads and writes whole bytes of the port cells, as the host does. -/
def bridgeRead (s : State) (p : Port) : Except FaultKind Byte := hostRead s p.addr.toNat
def bridgeWrite (s : State) (p : Port) (v : Byte) : Except FaultKind State := hostWrite s p.addr.toNat v.toNat

/-- R343: a bit change is a read-modify-write by the host within one host action. -/
def bridgeSetBit (s : State) (p : Port) (b : BitVec 3) (v : Bool) : Except FaultKind State :=
  match bridgeRead s p with
  | .error e => .error e
  | .ok old =>
    bridgeWrite s p (if v then old ||| (1#8 <<< b.toNat) else old &&& ~~~(1#8 <<< b.toNat))

/-! ## Reset and stepping (R344, R346, R347) -/

/-- R344: the host's power-on reset. -/
def hostReset (s : State) : State := s.powerOnReset

/-- R346, R347: `step(n)`: the number of steps taken, and the state. A core that is not Running takes no step. -/
def hostSteps (n : Nat) (s : State) : Nat × State :=
  match n with
  | 0 => (0, s)
  | k + 1 =>
    match step s with
    | .next t => ((hostSteps k t).1 + 1, (hostSteps k t).2)
    | _ => (0, s)

end Sys2Proof.Machine
end

