-- ==== Sys2Proof/Safety.lean ====
section
/-! DEFINITION. Safety.lean: the invariant of the state, launches and clean runs (spec/70_reset_and_hazards.md R374), and the
predicates the statements are written in: what a plan needs, and what a step leaves unchanged. -/

namespace Sys2Proof.Machine

/-! ## The invariant -/

/-- R20, R36: the data memory is in canonical form and lists storage cells only. -/
abbrev State.dataOk (s : State) : Prop :=
  Memory.wf porByte s.data ∧ ∀ c ∈ s.data, c.1 < 0x1000 ∧ isStorage (BitVec.ofNat 12 c.1) = true

/-- R36: only bits whose silicon POR value is unknown can hold no value, and none does with POR_SFR_INIT = Zero. -/
abbrev State.noValueOk (s : State) : Prop :=
  Memory.wf zeroByte s.noValue ∧ (∀ c ∈ s.noValue, c.2 &&& ~~~Memory.get zeroByte porUnknownMarks c.1 = 0x00#8) ∧
    (s.params.porSfrInit = .zero → s.noValue = [])

/-- R43: program memory is in canonical form and below PROG_BYTES. -/
abbrev State.progOk (s : State) : Prop :=
  Memory.wf unloadedByte s.prog ∧ ∀ c ∈ s.prog, c.1 < s.params.progBytes

/-- R37: the PC is even and below PROG_BYTES. -/
abbrev State.pcOk (s : State) : Prop := s.pc.getLsbD 0 = false ∧ s.pc.toNat < s.params.progBytes

/-- The three memories are in canonical form and list nothing outside their addresses. -/
abbrev State.memoryOk (s : State) : Prop := s.dataOk ∧ s.noValueOk ∧ s.progOk

/-- What holds at reset and every step keeps. -/
abbrev State.Inv (s : State) : Prop := s.memoryOk ∧ s.pcOk

/-! ## Launches and clean runs (R374) -/

/-- R374: a launch: the power-on state with these parameters and this image in PROG. Host writes before the first step are listed
by the claim that makes them. -/
def launched (p : Params) (image : List Host.Cell) : State :=
  ({ State.reset with params := p, prog := image } : State).powerOnReset

/-- R329, R374: the step at `s` was refused. -/
def State.isRefused (s : State) : Bool :=
  match s.run with
  | .faulted (.refused _ _) => true
  | _ => false

/-- R374: the premises of a claim about a run: it is not refused, and no stack fault is recorded. -/
def State.clean (s : State) : Bool := !s.isRefused && s.stackFaults.isEmpty

/-- The core after `n` steps; a core that has no step stays where it is. -/
def State.after (n : Nat) (s : State) : State := (hostSteps n s).2

/-! ## What a plan needs -/

/-- The operand at `addr` can be read, with the registers of `needs`: every bit read holds a value (R329). It always is with
POR_SFR_INIT = Zero. -/
abbrev State.ready (s : State) (addr : DAddr) (needs : List Need) : Prop :=
  s.missing (operandNeeds addr ++ needs ++ readNeeds (s.operand addr)) = none

/-- The operand at `addr` can be written without being read. -/
abbrev State.readyToWrite (s : State) (addr : DAddr) (needs : List Need) : Prop :=
  s.missing (operandNeeds addr ++ needs) = none

/-- The registers of `needs` can be read. -/
abbrev State.readyRegs (s : State) (needs : List Need) : Prop := s.missing needs = none

/-- R69(a): the operand's own FSR update collides with a write of the operand. -/
abbrev State.clashes (s : State) (addr : DAddr) : Prop := collides (s.operand addr).upd (s.operand addr).ea = true

/-- R329, third case (log 7): every cell an instruction reads at the level of R329, with the bits of it that matter, in the order in
which a refusal names them (log 8): the pointers its operands go through, the registers it names, and the operand it reads. -/
def needsOf (i : Instr) (s : State) : List Need :=
  let reads := fun (f : Byte) (a : Bank) (regs : List Need) =>
    operandNeeds (s.resolve f a) ++ regs ++ readNeeds (s.operand (s.resolve f a))
  let writes := fun (f : Byte) (a : Bank) (regs : List Need) => operandNeeds (s.resolve f a) ++ regs
  match i with
  | .addwf f _ a | .subwf f _ a | .andwf f _ a | .iorwf f _ a | .xorwf f _ a => reads f a [needW]
  | .addwfc f _ a | .subwfb f _ a | .subfwb f _ a => reads f a [needW, needFlags 0x01#8]
  | .rlcf f _ a | .rrcf f _ a => reads f a [needFlags 0x01#8]
  | .incf f _ a | .decf f _ a | .comf f _ a | .movf f _ a | .rlncf f _ a | .rrncf f _ a | .swapf f _ a => reads f a []
  | .incfsz f _ a | .infsnz f _ a | .decfsz f _ a | .dcfsnz f _ a => reads f a []
  | .cpfseq f a | .cpfsgt f a | .cpfslt f a | .mulwf f a => reads f a [needW]
  | .negf f a | .tstfsz f a => reads f a []
  | .bcf f _ a | .bsf f _ a | .btg f _ a | .btfsc f _ a | .btfss f _ a => reads f a []
  | .movwf f a => writes f a [needW]
  | .clrf f a | .setf f a => writes f a []
  | .movff fs fd => operandNeeds fs ++ operandNeeds fd ++ readNeeds (s.operand fs)
  | .addlw _ | .sublw _ | .andlw _ | .iorlw _ | .xorlw _ | .mullw _ => [needW]
  | .daw => [needW, needFlags 0x03#8]
  | .bz _ | .bnz _ => [needFlags 0x04#8]
  | .bc _ | .bnc _ => [needFlags 0x01#8]
  | .bov _ | .bnov _ => [needFlags 0x08#8]
  | .bn _ | .bnn _ => [needFlags 0x10#8]
  | .call _ .fast => [needW, (statusAddr, 0xFF#8), (bsrAddr, 0xFF#8)]
  | .call _ .normal | .movlw _ | .movlb _ | .lfsr _ _ | .bra _ | .goto _ | .rcall _ | .retfie _ | .ret _ | .retlw _ => []
  | .push | .pop | .tblrd | .tblrdPostInc | .tblrdPostDec | .tblrdPreInc | .tblwt | .tblwtPostInc | .tblwtPostDec => []
  | .tblwtPreInc | .nop | .sleep | .clrwdt | .reset => []

/-- R211, R325: no operand of a MOVFF is restricted, as encoded or as reached through pointers that hold a value. -/
def movffUnrestricted (fs fd : DAddr) (s : State) : Prop :=
  let special := [pclAddr, toslAddr, toshAddr, tosuAddr];
  fs ∉ special ∧ fd ∉ special ∧ (s.missing (operandNeeds fs) = none → (s.operand fs).ea ∉ special) ∧
    (s.missing (operandNeeds fd) = none → (movffDest fs fd s).ea ∉ special)

/-! ## What a step leaves unchanged -/

/-- Every cell outside `touched` keeps its byte and its no-value marks. -/
def SameCells (touched : DAddr → Prop) (s t : State) : Prop := ∀ x, ¬touched x → t.cell x = s.cell x ∧ t.unset x = s.unset x

/-- The return stack, with its pointer and flags. -/
def SameStack (s t : State) : Prop := t.stk = s.stk ∧ t.sp = s.sp ∧ t.stkful = s.stkful ∧ t.stkunf = s.stkunf

/-- The shadow slot. -/
def SameShadow (s t : State) : Prop := t.ws = s.ws ∧ t.statuss = s.statuss ∧ t.bsrs = s.bsrs

/-- Program memory, the run state, the stack-fault record and the parameters. -/
def SameMachine (s t : State) : Prop :=
  t.prog = s.prog ∧ t.run = s.run ∧ t.stackFaults = s.stackFaults ∧ t.params = s.params

/-- The bytes an access's FSR update writes (R67), and the PC latches where the access reads PCL (R70). -/
def accessTouches (acc : Access) (reads : Bool) (x : DAddr) : Prop :=
  (∃ n p, acc.upd = some (n, p) ∧ (x = n.low ∨ x = n.high)) ∨ (reads = true ∧ acc.ea = pclAddr ∧ (x = pclathAddr ∨ x = pclatuAddr))

/-- R67: the FSR update of an access, once it is applied. -/
def UpdApplied (upd : Option (Fsr × DAddr)) (t : State) : Prop :=
  ∀ n p, upd = some (n, p) → t.cell n.low = p.extractLsb 7 0 ∧ t.cell n.high = 0#4 ++ p.extractLsb 11 8

/-- What a write of `v` through `acc` makes of the return stack: a write of a stack view (R39), else nothing. -/
def StackAfterWrite (acc : Access) (v : Byte) (s t : State) : Prop :=
  if isStackView acc.ea = true then SameStack (s.stackViewWrite acc.ea v) t else SameStack s t

/-- R122: the PC of an instruction that neither skips nor redirects, or skips on `skip`. -/
def seqPc (s : State) (size : Nat) (skip : Bool) : PAddr :=
  BitVec.ofNat 21 ((s.pc.toNat + size + if skip then 2 else 0) % s.params.progBytes)

/-- R70: PCLATH and PCLATU as a read of PCL by a one-word instruction loads them. -/
def latchHigh (s : State) : Byte := (BitVec.ofNat 21 ((s.pc.toNat + 2) % s.params.progBytes)).extractLsb 15 8
def latchUpper (s : State) : Byte := 0#3 ++ (BitVec.ofNat 21 ((s.pc.toNat + 2) % s.params.progBytes)).extractLsb 20 16

/-- R70: where a write of `v` to PCL goes, through latches that hold `u` and `h`. -/
def pclTarget (s : State) (u h v : Byte) : PAddr :=
  BitVec.ofNat 21 (((u.extractLsb 4 0 ++ h ++ v : PAddr).toNat / 2 * 2) % s.params.progBytes)

/-! ## What an instruction with one operand does -/

/-- The whole effect of a one-word instruction on the operand `acc`: it reads the operand where `reads`, writes `r` to W or through
`acc` as `dst` says (none: neither), then the flags of `mask` from `fl`, applies the FSR update and skips on `skip`. Every part of the
state is spoken of: what is not named here is unchanged. -/
structure OperandStep (s t : State) (acc : Access) (reads : Bool) (dst : Option Dest) (r : Byte) (mask : Byte) (fl : FlagVec)
    (skip : Bool) : Prop where
  /-- R75 with d = 0. -/
  wreg : dst = some .w → t.w = r
  /-- R73: a storage cell takes the result; STATUS is said next. -/
  stored : dst = some .file → isStorage acc.ea = true → acc.ea ≠ statusAddr → t.cell acc.ea = r
  /-- R25, R26: the result first, if STATUS is the destination, then the flags of `mask`. -/
  status : t.status
    = ((if dst = some .file ∧ acc.ea = statusAddr then r else s.status) &&& ~~~mask) ||| (fl.toByte &&& mask)
  /-- R67. -/
  updated : UpdApplied acc.upd t
  /-- R70. -/
  latched : reads = true → acc.ea = pclAddr → t.cell pclathAddr = latchHigh s ∧ t.cell pclatuAddr = latchUpper s
  /-- Every other cell keeps its byte. -/
  cells : SameCells
    (fun x => accessTouches acc reads x ∨ (mask ≠ maskNone ∧ x = statusAddr) ∨ (dst = some .w ∧ x = wregAddr)
      ∨ (dst = some .file ∧ isStorage acc.ea = true ∧ x = acc.ea)) s t
  /-- R39: the return stack changes only by a write of a stack view. -/
  stack : if dst = some .file then StackAfterWrite acc r s t else SameStack s t
  shadow : SameShadow s t
  machine : SameMachine s t
  /-- R70, R122: a write of PCL jumps through the latches; else the PC advances, past one more word on a skip. -/
  control : t.pc
    = if dst = some .file ∧ acc.ea = pclAddr then
        pclTarget s (if reads then latchUpper s else s.cell pclatuAddr) (if reads then latchHigh s else s.cell pclathAddr) r
      else seqPc s 2 skip

/-! ## What the other instructions do -/

/-- Outside the data cells of `touched`, the return stack and the PC, of which it does not speak, everything is unchanged. -/
def Elsewhere (touched : DAddr → Prop) (s t : State) : Prop := SameCells touched s t ∧ SameShadow s t ∧ SameMachine s t

/-- The return stack is unchanged and the PC goes to the next instruction. -/
def Advances (size : Nat) (s t : State) : Prop := SameStack s t ∧ t.pc = seqPc s size false

/-- A literal instruction: `r` to W, the flags of `mask` from `fl`, nothing else. -/
def LiteralStep (s t : State) (r : Byte) (mask : Byte) (fl : FlagVec) : Prop :=
  t.w = r ∧ t.status = (s.status &&& ~~~mask) ||| (fl.toByte &&& mask) ∧
    Elsewhere (fun x => x = wregAddr ∨ (mask ≠ maskNone ∧ x = statusAddr)) s t ∧ Advances 2 s t

/-- R250: the target of a relative branch, in integers. -/
def branchTarget (s : State) (n : Int) : PAddr := BitVec.ofInt 21 (((s.pc.toNat : Int) + 2 + 2 * n) % (s.params.progBytes : Int))

/-- R122: where a return address `v` sends the PC. -/
def returnTarget (s : State) (v : PAddr) : PAddr := BitVec.ofNat 21 ((v.toNat / 2 * 2) % s.params.progBytes)

/-- R250: the target of an absolute jump. -/
def jumpTarget (s : State) (k : BitVec 20) : PAddr := BitVec.ofNat 21 ((2 * k.toNat) % s.params.progBytes)

/-- R264 to R268: the state after a pop, but for the cells of `touched` and the PC. -/
def PoppedElsewhere (touched : DAddr → Prop) (s t : State) : Prop :=
  SameCells touched s t ∧ SameStack s.popped t ∧ SameShadow s t ∧ SameMachine s.popped t

/-- R42: W, STATUS and BSR come back from the shadow slot. -/
def ShadowRestored (s t : State) : Prop := t.w = s.ws ∧ t.status = s.statuss ∧ t.bsr = s.bsrs

/-- R31, R290: TBLPTR holds `v`, with TBLPTRU[7:6] clear. -/
def TblptrSet (v : TAddr) (t : State) : Prop := t.tblptr = v ∧ (t.cell tblptruAddr).extractLsb 7 6 = 0#2

/-- The cells of TBLPTR and TABLAT. -/
def tablePointerCell (x : DAddr) : Prop := x = tblptrlAddr ∨ x = tblptrhAddr ∨ x = tblptruAddr

/-- A byte of two packed BCD digits, and its value. -/
def isBcd (x : Byte) : Prop := x.toNat / 16 ≤ 9 ∧ x.toNat % 16 ≤ 9
def bcdValue (x : Byte) : Nat := x.toNat / 16 * 10 + x.toNat % 16

/-- The instructions of `is` executed one after the other (not fetched), as far as each answers a next state. -/
def execAll (is : List Instr) (s : State) : Host.Outcome State Fault Refusal :=
  match is with
  | [] => .next s
  | i :: rest =>
    match exec i s with
    | .next t => execAll rest t
    | .fault r => .fault r
    | .refused r => .refused r

/-- R269: a call without the shadow slot. -/
def isPlainCall (i : Instr) : Prop := (∃ k, i = .call k .normal) ∨ (∃ n, i = .rcall n)

end Sys2Proof.Machine
end

