-- ==== Sys2Proof/Certificates/Slice0/Obligations.lean ====
section
/-! DEFINITION. Certificates/Slice0/Obligations.lean: the statements for the provers. Each docstring names the rules of spec/ that
the statement is read from. -/

open Sys2Proof Sys2Proof.Machine

/-! ## Encoding (30_encoding.md) -/

/-- Words written out bit by bit from the encodings of the rules: the table's numbering, the second word in bits 31..16. -/
def Obligations.SampleWordsDecode : Prop :=
  decodeTableWord 16 0b0010010110101010 = some (.addwf 0xAA#8 .w .banked) ∧
  decodeTableWord 16 0b0000111100111010 = some (.addlw 0x3A#8) ∧
  decodeTableWord 16 0b0001001000100000 = some (.iorwf 0x20#8 .file .access) ∧
  decodeTableWord 16 0b0011111000100000 = some (.incfsz 0x20#8 .file .access) ∧
  decodeTableWord 16 0b0110010011101000 = some (.cpfsgt 0xE8#8 .access) ∧
  decodeTableWord 16 0b1000101011011000 = some (.bsf 0xD8#8 5#3 .access) ∧
  decodeTableWord 32 0b11110001001000111100000000110000 = some (.movff 0x030#12 0x123#12) ∧
  decodeTableWord 32 0b11110000001000111110111000010001 = some (.lfsr 1#2 0x123#12) ∧
  decodeTableWord 16 0b0011010100000001 = some (.rlcf 0x01#8 .w .banked) ∧
  decodeTableWord 16 0b0000110111111111 = some (.mullw 0xFF#8) ∧
  decodeTableWord 16 0b1101011111111101 = some (.bra 0x7FD#11) ∧
  decodeTableWord 32 0b11110000000000001110110110000000 = some (.call 0x00080#20 .fast) ∧
  decodeTableWord 16 0b0000000000001001 = some .tblrdPostInc ∧
  decodeTableWord 16 0b0000000011111111 = some .reset ∧
  decodeTableWord 16 0b0101100000100000 = some (.subwfb 0x20#8 .w .access) ∧
  decodeTableWord 16 0b0101010000100000 = some (.subfwb 0x20#8 .w .access)

/-- Decode and encode agree on every well-formed instruction, with every operand, whatever bytes follow. -/
def Obligations.DecodeEncode : Prop :=
  ∀ (i : Instr) (rest : List Byte), i.wellFormed = true → decodeBytes (bytesOfWords (encode i) ++ rest) = .ok (i, rest)

/-- The other direction: a recognized word is the encoding of what it decodes to (but for NOP, whose second row ignores twelve bits:
R301); of a second word, the bits that its format does not name come back as the format writes them (R101). -/
def Obligations.EncodeDecode : Prop :=
  ∀ w1 w2 : Word16,
    (decodeWords w1 w2).wellFormed = true ∧
    (decode w1 ≠ .nop → (decode w1).twoWord = false → encode (decodeWords w1 w2) = [w1]) ∧
    ((decode w1).twoWord = true →
      encode (decodeWords w1 w2)
        = [w1, 0xF000#16 ||| (w2 &&& if w1 &&& 0xFFC0#16 = 0xEE00#16 then 0x00FF#16 else 0x0FFF#16)])

/-- R105: no word matches two rows, and the rows stand from the most specific opcode field to the coarsest. -/
def Obligations.OpcodeRowsDisjoint : Prop :=
  opcodeRows.length = 76 ∧
  opcodeRows.Pairwise (fun r q => q.width ≤ r.width ∧ ∀ w : Word16, ¬(r.hits w = true ∧ q.hits w = true))

/-- R104. -/
def Obligations.LengthFromFirstWord : Prop :=
  ∀ w1 w2 : Word16,
    (decodeWords w1 w2).size
      = if w1 &&& 0xFE00#16 = 0xEC00#16 ∨ w1 &&& 0xFF00#16 = 0xEF00#16 ∨
          (w1 &&& 0xFFC0#16 = 0xEE00#16 ∧ w1.extractLsb 5 4 ≠ 3#2) ∨ w1 &&& 0xF000#16 = 0xC000#16 then 4 else 2

/-- R107: exactly the listed words are unrecognized (NOP, and in neither of its two rows); each is one word long and executes as NOP,
which advances the PC by 2 and changes nothing else. -/
def Obligations.UnrecognizedWordsAreNops : Prop :=
  (∀ w : Word16,
    (w = 0x0001#16 ∨ w = 0x0002#16 ∨ (0x0014#16 ≤ w ∧ w ≤ 0x00FE#16) ∨ (0x0110#16 ≤ w ∧ w ≤ 0x01FF#16) ∨
      (0xE800#16 ≤ w ∧ w ≤ 0xEBFF#16) ∨ (0xEE30#16 ≤ w ∧ w ≤ 0xEEFF#16)) ↔ (w ≠ 0x0000#16 ∧ w &&& 0xF000#16 ≠ 0xF000#16 ∧ decode w = .nop)) ∧
  Instr.nop.size = 2 ∧ ∀ s : State, exec .nop s = .next { s with pc := seqPc s 2 false }

/-- R108: of a second word only w2[11:0] is used, and of LFSR's only w2[7:0]; one that does not start with 1111 is still taken. -/
def Obligations.SecondWordBits : Prop :=
  ∀ w1 w2 w2' : Word16,
    (∀ k sel, decode w1 = .call k sel → decodeWords w1 w2 = .call (w2.extractLsb 11 0 ++ w1.extractLsb 7 0) sel) ∧
    (∀ k, decode w1 = .goto k → decodeWords w1 w2 = .goto (w2.extractLsb 11 0 ++ w1.extractLsb 7 0)) ∧
    (∀ fs fd, decode w1 = .movff fs fd → decodeWords w1 w2 = .movff (w1.extractLsb 11 0) (w2.extractLsb 11 0)) ∧
    (∀ f k, decode w1 = .lfsr f k → decodeWords w1 w2 = .lfsr f (w1.extractLsb 3 0 ++ w2.extractLsb 7 0)) ∧
    (w2 &&& 0x0FFF#16 = w2' &&& 0x0FFF#16 → decodeWords w1 w2 = decodeWords w1 w2') ∧
    (w1 &&& 0xFFC0#16 = 0xEE00#16 → w2 &&& 0x00FF#16 = w2' &&& 0x00FF#16 → decodeWords w1 w2 = decodeWords w1 w2')

/-- R110: a first word in 0xEE30..0xEE3F matches LFSR's mask, is a one-word NOP, and leaves the next word to be a first word, which
is a NOP too when it starts with 1111. -/
def Obligations.LfsrHasNoFsr3 : Prop :=
  (∀ w : Word16, 0xEE30#16 ≤ w → w ≤ 0xEE3F#16 →
    w &&& 0xFFC0#16 = 0xEE00#16 ∧ decode w = .nop ∧
      ∀ rest : List Byte, decodeBytes (w.extractLsb 7 0 :: w.extractLsb 15 8 :: rest) = .ok (.nop, rest)) ∧
  (∀ w : Word16, w &&& 0xF000#16 = 0xF000#16 →
    decode w = .nop ∧ ∀ s : State, exec .nop s = .next { s with pc := seqPc s 2 false }) ∧
  (∀ k, Instr.wellFormed (.lfsr 3#2 k) = false)

/-! ## The step (30_encoding.md section 4) -/

/-- R120, R105, R80: a step of a running core is `exec` of the instruction that the bytes at the PC decode to, the second word being
the one at (pc0 + 2) mod PROG_BYTES; `step` adds nothing around `exec`. -/
def Obligations.StepRunsDecoded : Prop :=
  ∀ (s : State) (i : Instr) (rest : List Byte), s.run = .running →
    decodeBytes [s.progByte s.pc.toNat, s.progByte (s.pc.toNat + 1), s.progByte (s.pcPlus 2#21).toNat,
      s.progByte ((s.pcPlus 2#21).toNat + 1)] = .ok (i, rest) →
    step s = exec i s

/-- R121: a Halted or Faulted core has no step; the host, which takes no step of it, finds it and its fault as they were. -/
def Obligations.StoppedCoreHasNoStep : Prop :=
  ∀ s : State, s.run = .halted ∨ (∃ why, s.run = .faulted why) → (∀ t, step s ≠ .next t) ∧ ∀ n, hostSteps n s = (0, s)

/-- R122: no instruction both skips and redirects. -/
def Obligations.NeverSkipsAndRedirects : Prop :=
  ∀ (i : Instr) (s : State) (p : Progress), runInstr i s = .ok p → ¬(p.skip = true ∧ p.redirect.isSome = true)

/-! ## Reset (70_reset_and_hazards.md section 1) -/

/-- R370, R36: a power-on reset, from any state: with POR_SFR_INIT = Zero every cell holds a value, with Unknown the cells that R36
marks x hold none (of STATUS and INTCON the bits marked x, the marks being the model's, bit by bit: log 6). -/
def Obligations.PowerOnReset : Prop :=
  ∀ s : State, let t := s.powerOnReset;
    (∀ a, t.cell a = if a = rconAddr then 0x1C#8 else if a = trisaAddr ∨ a = trisbAddr then 0xFF#8 else 0x00#8) ∧
    (s.params.porSfrInit = .zero → ∀ a, t.unset a = 0x00#8) ∧
    (s.params.porSfrInit = .unknown → ∀ a, t.unset a
      = if a ∈ [wregAddr, prodhAddr, prodlAddr, fsr0lAddr, fsr0hAddr, fsr1lAddr, fsr1hAddr, fsr2lAddr, fsr2hAddr, portaAddr, portbAddr]
          then 0xFF#8
        else if a = statusAddr then 0x1F#8 else if a = intconAddr then 0x01#8 else 0x00#8) ∧
    t.pc = 0#21 ∧ (∀ n : Fin 31, t.stk[n.val] = 0#21) ∧ t.sp = 0#5 ∧ t.stkful = false ∧ t.stkunf = false ∧
    t.ws = 0x00#8 ∧ t.statuss = 0x00#8 ∧ t.bsrs = 0x00#8 ∧ t.prog = s.prog ∧ t.run = .running ∧ t.stackFaults = [] ∧
    t.params = s.params

/-- The state after reset is the power-on reset of a core with the default parameters (the model's choice, log 2), and it meets the
invariant. -/
def Obligations.ResetState : Prop :=
  State.reset = State.reset.powerOnReset ∧ State.reset.params = Params.default ∧ State.reset.Inv

/-- R371, R304: the RESET instruction. What it makes of the no-value marks is the model's reading, bit by bit (log 6): a cell it leaves
unchanged keeps its marks, INTCON keeps the mark of bit 0 and RCON those of bits 3 to 0, and a bit it writes holds a value. -/
def Obligations.ResetInstruction : Prop :=
  ∀ s : State, ∃ t, exec .reset s = .next t ∧
    (∀ a : DAddr, a.toNat < Config.gprLimit ∨
        a ∈ [wregAddr, statusAddr, prodhAddr, prodlAddr, fsr0lAddr, fsr0hAddr, fsr1lAddr, fsr1hAddr, fsr2lAddr, fsr2hAddr,
          portaAddr, portbAddr] → t.cell a = s.cell a ∧ t.unset a = s.unset a) ∧
    t.cell intconAddr = s.cell intconAddr &&& 0x01#8 ∧ t.unset intconAddr = s.unset intconAddr &&& 0x01#8 ∧
    t.cell rconAddr = s.cell rconAddr &&& 0x0F#8 ∧ t.unset rconAddr = s.unset rconAddr &&& 0x0F#8 ∧
    t.cell trisaAddr = 0xFF#8 ∧ t.unset trisaAddr = 0x00#8 ∧ t.cell trisbAddr = 0xFF#8 ∧ t.unset trisbAddr = 0x00#8 ∧
    (∀ a : DAddr, Config.sfrBase ≤ a.toNat →
        a ∉ [wregAddr, statusAddr, prodhAddr, prodlAddr, fsr0lAddr, fsr0hAddr, fsr1lAddr, fsr1hAddr, fsr2lAddr, fsr2hAddr,
          portaAddr, portbAddr, intconAddr, rconAddr, trisaAddr, trisbAddr] → t.cell a = 0x00#8 ∧ t.unset a = 0x00#8) ∧
    t.pc = 0#21 ∧ t.stk = s.stk ∧ t.sp = 0#5 ∧ t.stkful = s.stkful ∧ t.stkunf = s.stkunf ∧ SameShadow s t ∧
    t.prog = s.prog ∧ t.run = .running ∧ t.stackFaults = s.stackFaults ∧ t.params = s.params

/-! ## Operands and memory (20_memory.md) -/

/-- R64, R65; an instruction resolves its operand with the BSR of the state (R27). -/
def Obligations.ResolveAddress : Prop :=
  (∀ (s : State) (f : Byte) (a : Bank), s.resolve f a = resolve (s.cell 0xFE0#12) f a) ∧
  ∀ bsr bsr' f : Byte,
    resolve bsr f .banked = bsr.extractLsb 3 0 ++ f ∧
    (resolve bsr f .access).toNat = (if f.toNat < 0x80 then f.toNat else 0xF00 ||| f.toNat) ∧
    resolve bsr f .access = resolve bsr' f .access ∧
    (bsr.toNat < 16 → (resolve bsr f .banked).toNat = bsr.toNat <<< 8 ||| f.toNat)

/-- R66: the fifteen indirect-access addresses, every other address, and MOVFF's destination, whose pointers are those after its
source's update. -/
def Obligations.OperandDescriptors : Prop :=
  ∀ s : State,
    (∀ (n : Fsr) (indf postinc postdec preinc plusw : DAddr),
      (n, indf, postinc, postdec, preinc, plusw) ∈
        [(Fsr.fsr0, 0xFEF#12, 0xFEE#12, 0xFED#12, 0xFEC#12, 0xFEB#12), (Fsr.fsr1, 0xFE7#12, 0xFE6#12, 0xFE5#12, 0xFE4#12, 0xFE3#12),
          (Fsr.fsr2, 0xFDF#12, 0xFDE#12, 0xFDD#12, 0xFDC#12, 0xFDB#12)] →
      s.operand indf = { ea := s.ptr n, upd := none, ind := true } ∧
      s.operand postinc = { ea := s.ptr n, upd := some (n, s.ptr n + 1#12), ind := true } ∧
      s.operand postdec = { ea := s.ptr n, upd := some (n, s.ptr n - 1#12), ind := true } ∧
      s.operand preinc = { ea := s.ptr n + 1#12, upd := some (n, s.ptr n + 1#12), ind := true } ∧
      s.operand plusw = { ea := BitVec.ofInt 12 ((s.ptr n).toNat + s.w.toInt), upd := none, ind := true }) ∧
    (∀ a : DAddr, a ∉ [0xFEF#12, 0xFEE#12, 0xFED#12, 0xFEC#12, 0xFEB#12, 0xFE7#12, 0xFE6#12, 0xFE5#12, 0xFE4#12, 0xFE3#12, 0xFDF#12,
        0xFDE#12, 0xFDD#12, 0xFDC#12, 0xFDB#12] → s.operand a = { ea := a, upd := none, ind := false }) ∧
    (∀ fs fd : DAddr,
      movffDest fs fd s
        = operandWith (fun n => match (s.operand fs).upd with
            | some (m, p) => if m = n then p else s.ptr n
            | none => s.ptr n) s.w fd)

/-- R72, R63, R68, R70, R39: the value of a one-byte read, by the kind of the effective address. The kinds are those of R20 and R60 in
numbers, and the named cells, pointers and views stand at the addresses of R36. -/
def Obligations.ReadByKind : Prop :=
  (∀ a : DAddr, let indirect : List DAddr :=
    [0xFEF#12, 0xFEE#12, 0xFED#12, 0xFEC#12, 0xFEB#12, 0xFE7#12, 0xFE6#12, 0xFE5#12, 0xFE4#12, 0xFE3#12, 0xFDF#12, 0xFDE#12,
      0xFDD#12, 0xFDC#12, 0xFDB#12];
    (isGap a = true ↔ 0x300 ≤ a.toNat ∧ a.toNat < 0xF80) ∧ (isIndirect a = true ↔ a ∈ indirect) ∧
    (isStackView a = true ↔ a ∈ [0xFFC#12, 0xFFD#12, 0xFFE#12, 0xFFF#12]) ∧
    (isView a = true ↔ a = 0xFF9#12 ∨ a ∈ [0xFFC#12, 0xFFD#12, 0xFFE#12, 0xFFF#12] ∨ a ∈ indirect) ∧
    (isStorage a = true ↔ a.toNat < 0x300 ∨ (0xF80 ≤ a.toNat ∧ a ≠ 0xFF9#12 ∧ a.toNat < 0xFFC ∧ a ∉ indirect))) ∧
  (Config.gprLimit = 0x300 ∧ Config.sfrBase = 0xF80 ∧
    [tosuAddr, toshAddr, toslAddr, stkptrAddr, pclatuAddr, pclathAddr, pclAddr, tblptruAddr, tblptrhAddr, tblptrlAddr, tablatAddr]
      = [0xFFF#12, 0xFFE#12, 0xFFD#12, 0xFFC#12, 0xFFB#12, 0xFFA#12, 0xFF9#12, 0xFF8#12, 0xFF7#12, 0xFF6#12, 0xFF5#12] ∧
    [prodhAddr, prodlAddr, intconAddr, wregAddr, bsrAddr, statusAddr, rconAddr, trisbAddr, trisaAddr, portbAddr, portaAddr]
      = [0xFF4#12, 0xFF3#12, 0xFF2#12, 0xFE8#12, 0xFE0#12, 0xFD8#12, 0xFD0#12, 0xF93#12, 0xF92#12, 0xF81#12, 0xF80#12] ∧
    [fsr0hAddr, fsr0lAddr, fsr1hAddr, fsr1lAddr, fsr2hAddr, fsr2lAddr] = [0xFEA#12, 0xFE9#12, 0xFE2#12, 0xFE1#12, 0xFDA#12, 0xFD9#12] ∧
    [Fsr.fsr0.high, Fsr.fsr0.low, Fsr.fsr1.high, Fsr.fsr1.low, Fsr.fsr2.high, Fsr.fsr2.low]
      = [0xFEA#12, 0xFE9#12, 0xFE2#12, 0xFE1#12, 0xFDA#12, 0xFD9#12]) ∧
  (∀ s : State, s.w = s.cell 0xFE8#12 ∧ s.status = s.cell 0xFD8#12 ∧ s.bsr = s.cell 0xFE0#12 ∧
    (∀ n : Fsr, (s.ptr n).toNat = (s.cell n.high).toNat % 16 * 256 + (s.cell n.low).toNat) ∧
    s.tblptr.toNat = (s.cell 0xFF8#12).toNat % 64 * 65536 + (s.cell 0xFF7#12).toNat * 256 + (s.cell 0xFF6#12).toNat) ∧
  ∀ (s : State) (acc : Access),
    (isGap acc.ea = true → s.readValue acc = 0x00#8) ∧
    (acc.ind = true → isIndirect acc.ea = true → s.readValue acc = 0x00#8) ∧
    (acc.ea = pclAddr → (s.readValue acc).toNat = (s.pc.toNat + 2) % s.params.progBytes % 256) ∧
    (acc.ea = stkptrAddr →
      (s.readValue acc).toNat = s.stkful.toNat * 128 + s.stkunf.toNat * 64 + s.sp.toNat) ∧
    (acc.ea = toslAddr → (s.readValue acc).toNat = s.tos.toNat % 256) ∧
    (acc.ea = toshAddr → (s.readValue acc).toNat = s.tos.toNat / 256 % 256) ∧
    (acc.ea = tosuAddr → (s.readValue acc).toNat = s.tos.toNat / 65536) ∧
    (isStorage acc.ea = true → s.readValue acc = s.cell acc.ea)

/-- R73: the round trip: a storage cell reads as it was written, every other cell as before, and the bits written hold a value. -/
def Obligations.WriteThenRead : Prop :=
  ∀ (s : State) (a b : DAddr) (v : Byte), isStorage a = true → let t := ((Progress.start s).memWrite ⟨a, none, false⟩ v).s;
    t.readValue ⟨a, none, false⟩ = v ∧ t.unset a = 0x00#8 ∧ (b ≠ a → t.cell b = s.cell b ∧ t.unset b = s.unset b) ∧
      SameStack s t ∧ SameShadow s t ∧ SameMachine s t ∧ t.pc = s.pc

/-- R39: writes of STKPTR and of the top of the stack. A write of STKPTR changes SP and the two flags alone, and one of a TOS byte changes
the top entry alone: SP, STKFUL, STKUNF and everything else stay. -/
def Obligations.StackViewWrites : Prop :=
  ∀ (s : State) (v : Byte),
    (let t := s.stackViewWrite stkptrAddr v;
      t.sp.toNat = min (v.toNat % 32) 31 ∧ t.stkful = (s.stkful && v.getLsbD 7) ∧ t.stkunf = (s.stkunf && v.getLsbD 6) ∧
        t = { s with sp := t.sp, stkful := t.stkful, stkunf := t.stkunf }) ∧
    (∀ a : DAddr, a ∈ [toslAddr, toshAddr, tosuAddr] → s.sp = 0#5 → s.stackViewWrite a v = s) ∧
    (∀ n : Nat, s.sp.toNat = n + 1 →
      (let t := s.stackViewWrite toslAddr v;
        t.tos.toNat = s.tos.toNat / 256 * 256 + v.toNat ∧ t = { s with stk := t.stk } ∧
          ∀ m : Nat, m ≠ n → t.stk[m]? = s.stk[m]?) ∧
      (let t := s.stackViewWrite toshAddr v;
        t.tos.toNat = s.tos.toNat / 65536 * 65536 + v.toNat * 256 + s.tos.toNat % 256 ∧ t = { s with stk := t.stk } ∧
          ∀ m : Nat, m ≠ n → t.stk[m]? = s.stk[m]?) ∧
      (let t := s.stackViewWrite tosuAddr v;
        t.tos.toNat = v.toNat % 32 * 65536 + s.tos.toNat % 65536 ∧ t = { s with stk := t.stk } ∧
          ∀ m : Nat, m ≠ n → t.stk[m]? = s.stk[m]?))

/-- R40, R41: Push and Pop, with the stack law: a pop after a push returns what was pushed and restores SP. Below the depth a push changes
the new entry, SP and STKFUL and nothing else: the cells, the shadow slot and all the rest stay. -/
def Obligations.PushAndPop : Prop :=
  ∀ (s : State) (v : PAddr),
    (s.sp.toNat < 31 → let t := s.push v;
      t.sp.toNat = s.sp.toNat + 1 ∧ t.tos = v ∧ (∀ m : Nat, m ≠ s.sp.toNat → t.stk[m]? = s.stk[m]?) ∧
        t.stkful = (s.stkful || decide (s.sp.toNat = 30)) ∧ t.stkunf = s.stkunf ∧ t.stackFaults = s.stackFaults ∧
        t = { s with sp := t.sp, stk := t.stk, stkful := t.stkful } ∧ t.popValue = v ∧ t.popped.sp = s.sp) ∧
    (s.sp.toNat = 31 →
      s.push v = { s with stkful := true, stackFaults := s.stackFaults ++ [{ kind := .overflow, pc0 := s.pc }] }) ∧
    (s.sp ≠ 0#5 → s.popValue = (s.stk[s.sp.toNat - 1]?).getD 0#21 ∧ s.popped = { s with sp := s.sp - 1#5 }) ∧
    (s.sp = 0#5 → s.popValue = 0#21 ∧
      s.popped = { s with stkunf := true, stackFaults := s.stackFaults ++ [{ kind := .underflow, pc0 := s.pc }] })

/-! ## Flags and the adder (10_state.md R25, 40_arithmetic.md section 1) -/

/-- R25: the flags of the mask come from the bits, every other bit of STATUS and every other cell is unchanged. R24: the flags stand at
bits 0 (C), 1 (DC), 2 (Z), 3 (OV) and 4 (N), in a flag vector as a byte, in the masks of R9 and where a flag is read. -/
def Obligations.AffectWritesTheMask : Prop :=
  (maskNone = 0x00#8 ∧ maskAll = 0x1F#8 ∧ maskC = 0x01#8 ∧ maskDC = 0x02#8 ∧ maskZ = 0x04#8 ∧ maskOV = 0x08#8 ∧ maskN = 0x10#8 ∧
    maskZN = 0x14#8 ∧ maskCZN = 0x15#8) ∧
  (∀ fl : FlagVec, fl.toByte.getLsbD 0 = fl.c ∧ fl.toByte.getLsbD 1 = fl.dc ∧ fl.toByte.getLsbD 2 = fl.z ∧ fl.toByte.getLsbD 3 = fl.ov ∧
    fl.toByte.getLsbD 4 = fl.n ∧ ∀ b : Nat, 5 ≤ b → fl.toByte.getLsbD b = false) ∧
  (∀ s : State, s.flagC = s.status.getLsbD 0 ∧ s.flagDC = s.status.getLsbD 1 ∧ s.flagZ = s.status.getLsbD 2 ∧
    s.flagOV = s.status.getLsbD 3 ∧ s.flagN = s.status.getLsbD 4) ∧
  ∀ (s : State) (mask : Byte) (fl : FlagVec), let t := s.affect mask fl;
    t.status = (s.status &&& ~~~mask) ||| (fl.toByte &&& mask) ∧
    (∀ b : Nat, b < 8 → t.status.getLsbD b = if mask.getLsbD b then fl.toByte.getLsbD b else s.status.getLsbD b) ∧
    Elsewhere (fun x => x = statusAddr) s t ∧ SameStack s t ∧ t.pc = s.pc

/-- R130: the adder and its flags. -/
def Obligations.AdderResult : Prop :=
  ∀ (a b : Byte) (cin : Bool), let r := (add8 a b cin).1; let fl := (add8 a b cin).2;
    r.toNat = (a.toNat + b.toNat + cin.toNat) % 256 ∧
    (fl.c = true ↔ a.toNat + b.toNat + cin.toNat > 0xFF) ∧
    (fl.dc = true ↔ a.toNat % 16 + b.toNat % 16 + cin.toNat > 0xF) ∧
    (fl.z = true ↔ r = 0x00#8) ∧ fl.n = r.getLsbD 7 ∧
    (fl.ov = true ↔ a.getLsbD 7 = b.getLsbD 7 ∧ r.getLsbD 7 ≠ a.getLsbD 7)

/-- R131: subtraction, its not-borrow carries and its overflow. -/
def Obligations.SubtractionResult : Prop :=
  ∀ (x y : Byte) (bin : Bool), let r := (sub8 x y bin).1; let fl := (sub8 x y bin).2;
    sub8 x y bin = add8 x (~~~y) (!bin) ∧
    (r.toNat : Int) = ((x.toNat : Int) - y.toNat - bin.toNat) % 256 ∧
    (fl.c = true ↔ x.toNat ≥ y.toNat + bin.toNat) ∧
    (fl.dc = true ↔ x.toNat % 16 ≥ y.toNat % 16 + bin.toNat) ∧
    (fl.z = true ↔ r = 0x00#8) ∧ fl.n = r.getLsbD 7 ∧
    (fl.ov = true ↔ x.getLsbD 7 ≠ y.getLsbD 7 ∧ r.getLsbD 7 ≠ x.getLsbD 7)

/-- R132: the laws of the adder. -/
def Obligations.AdderLaws : Prop :=
  ∀ (a b : Byte) (cin : Bool),
    add8 a b cin = add8 b a cin ∧
    (add8 a b false).1 = a + b ∧ ((add8 a b false).2.c = true ↔ a.toNat + b.toNat > 255) ∧
    ((add8 a b cin).2.z = true ↔ (add8 a b cin).1 = 0x00#8) ∧ (add8 a b cin).2.n = (add8 a b cin).1.getLsbD 7 ∧
    (sub8 a b false).1 = a - b ∧ ((sub8 a b false).2.c = true ↔ a.toNat ≥ b.toNat) ∧
    sub8 a a false = (0x00#8, { c := true, dc := true, z := true, ov := false, n := false }) ∧
    ((add8 a b cin).2.ov = true →
      a.toInt + b.toInt + (cin.toNat : Int) < -128 ∨ 127 < a.toInt + b.toInt + (cin.toNat : Int))

/-- R137, R134: ADDWFC and SUBWFB carry a 16-bit sum or difference from its low byte to its high byte. -/
def Obligations.TwoByteArithmetic : Prop :=
  ∀ xh xl yh yl : Byte,
    (add8 xh yh (add8 xl yl false).2.c).1 ++ (add8 xl yl false).1 = (xh ++ xl : Word16) + (yh ++ yl) ∧
    (sub8 xh yh (!(sub8 xl yl false).2.c)).1 ++ (sub8 xl yl false).1 = (xh ++ xl : Word16) - (yh ++ yl) ∧
    ((sub8 xh yh (!(sub8 xl yl false).2.c)).2.c = true ↔ (xh ++ xl : Word16).toNat ≥ (yh ++ yl : Word16).toNat)

/-! ## Arithmetic (40_arithmetic.md) -/

/-- R133, R134, R136, R137, R138, R140, R141, R142: completion, result, flags and frame. -/
def Obligations.ByteArithmetic : Prop :=
  ∀ (s : State) (f : Byte) (d : Dest) (a : Bank),
    let addr := s.resolve f a
    let acc := s.operand addr
    let v := s.readValue acc;
    (d = .file → ¬s.clashes addr) →
    (s.ready addr [needW] →
      (let r := add8 s.w v false
        ∃ t, exec (.addwf f d a) s = .next t ∧ OperandStep s t acc true (some d) r.1 maskAll r.2 false) ∧
      (let r := sub8 v s.w false
        ∃ t, exec (.subwf f d a) s = .next t ∧ OperandStep s t acc true (some d) r.1 maskAll r.2 false)) ∧
    (s.ready addr [needW, needFlags maskC] →
      (let r := add8 s.w v s.flagC
        ∃ t, exec (.addwfc f d a) s = .next t ∧ OperandStep s t acc true (some d) r.1 maskAll r.2 false) ∧
      (let r := sub8 v s.w (!s.flagC)
        ∃ t, exec (.subwfb f d a) s = .next t ∧ OperandStep s t acc true (some d) r.1 maskAll r.2 false) ∧
      (let r := sub8 s.w v (!s.flagC)
        ∃ t, exec (.subfwb f d a) s = .next t ∧ OperandStep s t acc true (some d) r.1 maskAll r.2 false)) ∧
    (s.ready addr [] →
      (let r := add8 v 0x01#8 false
        ∃ t, exec (.incf f d a) s = .next t ∧ OperandStep s t acc true (some d) r.1 maskAll r.2 false) ∧
      (let r := sub8 v 0x01#8 false
        ∃ t, exec (.decf f d a) s = .next t ∧ OperandStep s t acc true (some d) r.1 maskAll r.2 false) ∧
      (let r := sub8 0x00#8 v false;
        ¬s.clashes addr →
        ∃ t, exec (.negf f a) s = .next t ∧ OperandStep s t acc true (some .file) r.1 maskAll r.2 false))

/-- R135, R139, R165, R166, R167: the instructions of W and a literal. -/
def Obligations.LiteralOperations : Prop :=
  ∀ (s : State) (k : Byte),
    let flags := fun r : Byte => ({ c := false, dc := false, z := decide (r = 0x00#8), ov := false, n := r.getLsbD 7 } : FlagVec);
    s.readyRegs [needW] →
    (∃ t, exec (.addlw k) s = .next t ∧ LiteralStep s t (add8 s.w k false).1 maskAll (add8 s.w k false).2) ∧
    (∃ t, exec (.sublw k) s = .next t ∧ LiteralStep s t (sub8 k s.w false).1 maskAll (sub8 k s.w false).2) ∧
    (∃ t, exec (.andlw k) s = .next t ∧ LiteralStep s t (s.w &&& k) 0x14#8 (flags (s.w &&& k))) ∧
    (∃ t, exec (.iorlw k) s = .next t ∧ LiteralStep s t (s.w ||| k) 0x14#8 (flags (s.w ||| k))) ∧
    (∃ t, exec (.xorlw k) s = .next t ∧ LiteralStep s t (s.w ^^^ k) 0x14#8 (flags (s.w ^^^ k)))

/-- R143: DAW, from its pseudocode over natural numbers. -/
def Obligations.DecimalAdjust : Prop :=
  ∀ s : State, s.readyRegs [needW, needFlags (maskC ||| maskDC)] →
    let v1 := if s.w.toNat % 16 > 9 ∨ s.flagDC = true then s.w.toNat + 0x06 else s.w.toNat
    let v2 := if v1 > 0x9F ∨ s.flagC = true then v1 + 0x60 else v1
    ∃ t, exec .daw s = .next t ∧ t.w.toNat = v2 % 256 ∧ (t.flagC = true ↔ s.flagC = true ∨ v2 > 0xFF) ∧
      (∀ b : Nat, 1 ≤ b → b < 8 → t.status.getLsbD b = s.status.getLsbD b) ∧
      Elsewhere (fun x => x = wregAddr ∨ x = statusAddr) s t ∧ Advances 2 s t

/-- R143: DAW after the binary addition of two packed BCD bytes gives the packed BCD sum, with C as its carry. -/
def Obligations.BcdAddition : Prop :=
  ∀ (s : State) (k : Byte), s.readyRegs [needW] → isBcd s.w → isBcd k →
    ∃ t u, exec (.addlw k) s = .next t ∧ exec .daw t = .next u ∧ isBcd u.w ∧
      bcdValue u.w = (bcdValue s.w + bcdValue k) % 100 ∧ (u.flagC = true ↔ bcdValue s.w + bcdValue k ≥ 100)

/-! ## Logic, moves with flags, rotates (41_logic.md, 45_move.md, 46_shift_rotate.md) -/

/-- R161 to R164, R160: completion, result, Z and N, frame. -/
def Obligations.ByteLogic : Prop :=
  ∀ (s : State) (f : Byte) (d : Dest) (a : Bank),
    let addr := s.resolve f a
    let acc := s.operand addr
    let v := s.readValue acc
    let flags := fun r : Byte => ({ c := false, dc := false, z := decide (r = 0x00#8), ov := false, n := r.getLsbD 7 } : FlagVec);
    (d = .file → ¬s.clashes addr) →
    (s.ready addr [needW] →
      (∃ t, exec (.andwf f d a) s = .next t ∧ OperandStep s t acc true (some d) (s.w &&& v) 0x14#8 (flags (s.w &&& v)) false) ∧
      (∃ t, exec (.iorwf f d a) s = .next t ∧ OperandStep s t acc true (some d) (s.w ||| v) 0x14#8 (flags (s.w ||| v)) false) ∧
      (∃ t, exec (.xorwf f d a) s = .next t ∧ OperandStep s t acc true (some d) (s.w ^^^ v) 0x14#8 (flags (s.w ^^^ v)) false)) ∧
    (s.ready addr [] →
      (∃ t, exec (.comf f d a) s = .next t ∧ OperandStep s t acc true (some d) (~~~v) 0x14#8 (flags (~~~v)) false) ∧
      (∃ t, exec (.movf f d a) s = .next t ∧ OperandStep s t acc true (some d) v 0x14#8 (flags v) false))

/-- R230 to R234: the results as arithmetic on the operand's value; the rotates through C give C the bit that leaves. -/
def Obligations.Rotates : Prop :=
  ∀ (s : State) (f : Byte) (d : Dest) (a : Bank),
    let addr := s.resolve f a
    let acc := s.operand addr
    let v := s.readValue acc
    let flags := fun (r : Byte) (c : Bool) =>
      ({ c := c, dc := false, z := decide (r = 0x00#8), ov := false, n := r.getLsbD 7 } : FlagVec);
    (d = .file → ¬s.clashes addr) →
    (s.ready addr [needFlags maskC] →
      (let r := BitVec.ofNat 8 (2 * v.toNat + s.flagC.toNat)
        ∃ t, exec (.rlcf f d a) s = .next t ∧ OperandStep s t acc true (some d) r 0x15#8 (flags r (v.getLsbD 7)) false) ∧
      (let r := BitVec.ofNat 8 (v.toNat / 2 + 128 * s.flagC.toNat)
        ∃ t, exec (.rrcf f d a) s = .next t ∧ OperandStep s t acc true (some d) r 0x15#8 (flags r (v.getLsbD 0)) false)) ∧
    (s.ready addr [] →
      (let r := v.rotateLeft 1
        ∃ t, exec (.rlncf f d a) s = .next t ∧ OperandStep s t acc true (some d) r 0x14#8 (flags r false) false) ∧
      (let r := v.rotateRight 1
        ∃ t, exec (.rrncf f d a) s = .next t ∧ OperandStep s t acc true (some d) r 0x14#8 (flags r false) false) ∧
      (let r := BitVec.ofNat 8 (v.toNat % 16 * 16 + v.toNat / 16)
        ∃ t, exec (.swapf f d a) s = .next t ∧ OperandStep s t acc true (some d) r 0x00#8 FlagVec.none false))

/-! ## Skips and bits (42_incdec_skip.md, 43_compare_skip.md, 44_bit.md) -/

/-- R180 to R183: no flag; the skip is on the result, stored or not. -/
def Obligations.IncrementAndSkip : Prop :=
  ∀ (s : State) (f : Byte) (d : Dest) (a : Bank),
    let addr := s.resolve f a
    let acc := s.operand addr
    let v := s.readValue acc;
    s.ready addr [] → (d = .file → ¬s.clashes addr ∧ acc.ea ≠ pclAddr) →
    (∃ t, exec (.incfsz f d a) s = .next t ∧
      OperandStep s t acc true (some d) (v + 0x01#8) 0x00#8 FlagVec.none (decide (v + 0x01#8 = 0x00#8))) ∧
    (∃ t, exec (.infsnz f d a) s = .next t ∧
      OperandStep s t acc true (some d) (v + 0x01#8) 0x00#8 FlagVec.none (decide (v + 0x01#8 ≠ 0x00#8))) ∧
    (∃ t, exec (.decfsz f d a) s = .next t ∧
      OperandStep s t acc true (some d) (v - 0x01#8) 0x00#8 FlagVec.none (decide (v - 0x01#8 = 0x00#8))) ∧
    (∃ t, exec (.dcfsnz f d a) s = .next t ∧
      OperandStep s t acc true (some d) (v - 0x01#8) 0x00#8 FlagVec.none (decide (v - 0x01#8 ≠ 0x00#8)))

/-- R191 to R194: unsigned comparisons; nothing is written but by the read of PCL and the FSR update. -/
def Obligations.CompareAndSkip : Prop :=
  ∀ (s : State) (f : Byte) (a : Bank),
    let addr := s.resolve f a
    let acc := s.operand addr
    let v := s.readValue acc;
    (s.ready addr [needW] →
      (∃ t, exec (.cpfseq f a) s = .next t ∧ OperandStep s t acc true none v 0x00#8 FlagVec.none (decide (v = s.w))) ∧
      (∃ t, exec (.cpfsgt f a) s = .next t ∧
        OperandStep s t acc true none v 0x00#8 FlagVec.none (decide (v.toNat > s.w.toNat))) ∧
      (∃ t, exec (.cpfslt f a) s = .next t ∧
        OperandStep s t acc true none v 0x00#8 FlagVec.none (decide (v.toNat < s.w.toNat)))) ∧
    (s.ready addr [] →
      ∃ t, exec (.tstfsz f a) s = .next t ∧ OperandStep s t acc true none v 0x00#8 FlagVec.none (decide (v = 0x00#8)))

/-- R190: a compare-and-skip changes nothing but the PC, unless its operand is PCL, whose read loads the latches, or moves an FSR. -/
def Obligations.CompareChangesOnlyPc : Prop :=
  ∀ (s t : State) (i : Instr) (f : Byte) (a : Bank), i ∈ [.cpfseq f a, .cpfsgt f a, .cpfslt f a, .tstfsz f a] →
    let acc := s.operand (s.resolve f a);
    s.run = .running → exec i s = .next t → t.run = .running →
    (acc.ea ≠ pclAddr → acc.upd = none → t = { s with pc := t.pc }) ∧
    (acc.ea = pclAddr → t.cell pclathAddr = latchHigh s ∧ t.cell pclatuAddr = latchUpper s) ∧
    UpdApplied acc.upd t

/-- R200 to R204: one bit of the operand is cleared, set or toggled, and the whole byte is written back; or it is tested, and
nothing is written. -/
def Obligations.BitInstructions : Prop :=
  ∀ (s : State) (f : Byte) (b : BitVec 3) (a : Bank),
    let addr := s.resolve f a
    let acc := s.operand addr
    let v := s.readValue acc;
    s.ready addr [] →
    (∃ t, exec (.btfsc f b a) s = .next t ∧
      OperandStep s t acc true none v 0x00#8 FlagVec.none (decide (v.getLsbD b.toNat = false))) ∧
    (∃ t, exec (.btfss f b a) s = .next t ∧
      OperandStep s t acc true none v 0x00#8 FlagVec.none (decide (v.getLsbD b.toNat = true))) ∧
    (¬s.clashes addr → ∃ r0 r1 r2 : Byte,
      (∀ n : Nat, n < 8 → r0.getLsbD n = (if n = b.toNat then false else v.getLsbD n) ∧
        r1.getLsbD n = (if n = b.toNat then true else v.getLsbD n) ∧
        r2.getLsbD n = (if n = b.toNat then !v.getLsbD n else v.getLsbD n)) ∧
      (∃ t, exec (.bcf f b a) s = .next t ∧ OperandStep s t acc true (some .file) r0 0x00#8 FlagVec.none false) ∧
      (∃ t, exec (.bsf f b a) s = .next t ∧ OperandStep s t acc true (some .file) r1 0x00#8 FlagVec.none false) ∧
      (∃ t, exec (.btg f b a) s = .next t ∧ OperandStep s t acc true (some .file) r2 0x00#8 FlagVec.none false))

/-! ## Moves (45_move.md) -/

/-- R211: a move between two addresses, neither restricted: the source is read, the destination written at the pointers after the
source's update, then both updates apply in order. -/
def Obligations.MoveFileToFile : Prop :=
  ∀ (s : State) (fs fd : DAddr), let src := s.operand fs; let dst := movffDest fs fd s; let v := s.readValue src;
    (∀ x, x ∈ [fs, fd, src.ea, dst.ea] → x ∉ [pclAddr, toslAddr, toshAddr, tosuAddr]) →
    s.missing (operandNeeds fs ++ operandNeeds fd ++ readNeeds src) = none →
    collides src.upd dst.ea = false → collides dst.upd dst.ea = false →
    ∃ t, exec (.movff fs fd) s = .next t ∧
      (isStorage dst.ea = true → t.cell dst.ea = v) ∧
      UpdApplied dst.upd t ∧
      (∀ n p, src.upd = some (n, p) → (∀ q, dst.upd ≠ some (n, q)) → t.cell n.low = p.extractLsb 7 0 ∧ t.cell n.high = 0#4 ++ p.extractLsb 11 8) ∧
      SameCells (fun x => accessTouches src false x ∨ accessTouches dst false x ∨ (isStorage dst.ea = true ∧ x = dst.ea)) s t ∧
      StackAfterWrite dst v s t ∧ SameShadow s t ∧ SameMachine s t ∧ t.pc = seqPc s 4 false

/-- R211, R321: a restricted operand, as encoded or as reached, is fatal: the run state alone changes, and it keeps pc0, the words,
both operands and a restricted address. -/
def Obligations.MoveRestricted : Prop :=
  ∀ (s : State) (fs fd : DAddr), let src := s.operand fs; let dst := movffDest fs fd s
    let special := [pclAddr, toslAddr, toshAddr, tosuAddr];
    (fs ∈ special ∨ fd ∈ special ∨
      (s.missing (operandNeeds fs ++ operandNeeds fd) = none ∧ (src.ea ∈ special ∨ dst.ea ∈ special))) →
    ∃ info : FaultInfo, exec (.movff fs fd) s = .next { s with run := .faulted (.fatal .restrictedRegister info) } ∧
      info.pc0 = s.pc ∧ info.words = [s.progWord s.pc, s.progWord (s.pcPlus 2#21)] ∧ info.fs = fs ∧ info.fd = fd ∧
      info.address ∈ special

/-- R324: only MOVFF raises a fatal fault, under R211's conditions, and nothing else of the state changes. -/
def Obligations.OnlyMoveIsFatal : Prop :=
  ∀ (i : Instr) (s t : State) (kind : FaultKind) (info : FaultInfo), s.run = .running → exec i s = .next t →
    t.run = .faulted (.fatal kind info) →
    kind = .restrictedRegister ∧ t = { s with run := .faulted (.fatal kind info) } ∧
    ∃ fs fd, i = .movff fs fd ∧
      ∃ x, x ∈ [fs, fd, (s.operand fs).ea, (movffDest fs fd s).ea] ∧ x ∈ [pclAddr, toslAddr, toshAddr, tosuAddr]

/-- R212, R216, R217, R74: the operand is written and not read. -/
def Obligations.WriteOnly : Prop :=
  ∀ (s : State) (f : Byte) (a : Bank),
    let addr := s.resolve f a
    let acc := s.operand addr;
    ¬s.clashes addr →
    (s.readyToWrite addr [needW] →
      ∃ t, exec (.movwf f a) s = .next t ∧ OperandStep s t acc false (some .file) s.w 0x00#8 FlagVec.none false) ∧
    (s.readyToWrite addr [] →
      (∃ t, exec (.clrf f a) s = .next t ∧
        OperandStep s t acc false (some .file) 0x00#8 0x04#8 { c := false, dc := false, z := true, ov := false, n := false } false) ∧
      (∃ t, exec (.setf f a) s = .next t ∧ OperandStep s t acc false (some .file) 0xFF#8 0x00#8 FlagVec.none false))

/-- R213, R214, R215: the literal moves. -/
def Obligations.LiteralMoves : Prop :=
  ∀ (s : State) (k : Byte) (b : BitVec 4) (p : DAddr),
    (∃ t, exec (.movlw k) s = .next t ∧ t.w = k ∧ Elsewhere (fun x => x = wregAddr) s t ∧ Advances 2 s t) ∧
    (∃ t, exec (.movlb b) s = .next t ∧ t.bsr.toNat = b.toNat ∧ Elsewhere (fun x => x = bsrAddr) s t ∧ Advances 2 s t) ∧
    (∀ (f : BitVec 2) (n : Fsr), (f, n) ∈ [(0#2, Fsr.fsr0), (1#2, Fsr.fsr1), (2#2, Fsr.fsr2)] →
      ∃ t, exec (.lfsr f p) s = .next t ∧ t.ptr n = p ∧ (t.cell n.high).toNat = p.toNat / 256 ∧
        Elsewhere (fun x => x = n.low ∨ x = n.high) s t ∧ Advances 4 s t)

/-! ## Multiplication (47_multiply.md) -/

/-- R240, R241: the unsigned product in PRODH and PRODL; no flag, W and the operand are not written. -/
def Obligations.Multiplication : Prop :=
  ∀ (s : State) (f : Byte) (a : Bank) (k : Byte), let acc := s.operand (s.resolve f a);
    (s.ready (s.resolve f a) [needW] →
      ∃ t, exec (.mulwf f a) s = .next t ∧
        (t.cell prodhAddr ++ t.cell prodlAddr : Word16).toNat = s.w.toNat * (s.readValue acc).toNat ∧
        UpdApplied acc.upd t ∧ (acc.ea = pclAddr → t.cell pclathAddr = latchHigh s ∧ t.cell pclatuAddr = latchUpper s) ∧
        Elsewhere (fun x => x = prodhAddr ∨ x = prodlAddr ∨ accessTouches acc true x) s t ∧ Advances 2 s t) ∧
    (s.readyRegs [needW] →
      ∃ t, exec (.mullw k) s = .next t ∧
        (t.cell prodhAddr ++ t.cell prodlAddr : Word16).toNat = s.w.toNat * k.toNat ∧
        Elsewhere (fun x => x = prodhAddr ∨ x = prodlAddr) s t ∧ Advances 2 s t)

/-! ## Control (48_control.md) -/

/-- R250 to R260: a branch changes the PC alone; its target is computed in integers from an even PC (R37). -/
def Obligations.Branches : Prop :=
  ∀ (s : State) (n : BitVec 11) (m : Byte), s.pcOk →
    exec (.bra n) s = .next { s with pc := branchTarget s n.toInt } ∧
    (s.readyRegs [needFlags 0x04#8] →
      exec (.bz m) s = .next { s with pc := if s.status.getLsbD 2 = true then branchTarget s m.toInt else seqPc s 2 false } ∧
      exec (.bnz m) s = .next { s with pc := if s.status.getLsbD 2 = false then branchTarget s m.toInt else seqPc s 2 false }) ∧
    (s.readyRegs [needFlags 0x01#8] →
      exec (.bc m) s = .next { s with pc := if s.status.getLsbD 0 = true then branchTarget s m.toInt else seqPc s 2 false } ∧
      exec (.bnc m) s = .next { s with pc := if s.status.getLsbD 0 = false then branchTarget s m.toInt else seqPc s 2 false }) ∧
    (s.readyRegs [needFlags 0x08#8] →
      exec (.bov m) s = .next { s with pc := if s.status.getLsbD 3 = true then branchTarget s m.toInt else seqPc s 2 false } ∧
      exec (.bnov m) s = .next { s with pc := if s.status.getLsbD 3 = false then branchTarget s m.toInt else seqPc s 2 false }) ∧
    (s.readyRegs [needFlags 0x10#8] →
      exec (.bn m) s = .next { s with pc := if s.status.getLsbD 4 = true then branchTarget s m.toInt else seqPc s 2 false } ∧
      exec (.bnn m) s = .next { s with pc := if s.status.getLsbD 4 = false then branchTarget s m.toInt else seqPc s 2 false })

/-- R261, R262, R263, R267: jumps and calls; what the push does to the stack is `PushAndPop`. -/
def Obligations.JumpsAndCalls : Prop :=
  ∀ (s : State) (k : BitVec 20) (n : BitVec 11),
    exec (.goto k) s = .next { s with pc := jumpTarget s k } ∧
    exec (.call k .normal) s = .next { s.push (seqPc s 4 false) with pc := jumpTarget s k } ∧
    (s.readyRegs [needW, (statusAddr, 0xFF#8), (bsrAddr, 0xFF#8)] →
      exec (.call k .fast) s
        = .next { s.push (seqPc s 4 false) with pc := jumpTarget s k, ws := s.w, statuss := s.status, bsrs := s.bsr }) ∧
    (s.pcOk → exec (.rcall n) s = .next { s.push (seqPc s 2 false) with pc := branchTarget s n.toInt }) ∧
    exec .push s = .next { s.push (seqPc s 2 false) with pc := seqPc s 2 false }

/-- R264, R265, R266, R268: returns; what the pop does to the stack is `PushAndPop`. -/
def Obligations.Returns : Prop :=
  ∀ (s : State) (k : Byte),
    exec (.ret .normal) s = .next { s.popped with pc := returnTarget s s.popValue } ∧
    (∃ t, exec (.ret .fast) s = .next t ∧ ShadowRestored s t ∧
      PoppedElsewhere (fun x => x = wregAddr ∨ x = statusAddr ∨ x = bsrAddr) s t ∧ t.pc = returnTarget s s.popValue) ∧
    (∃ t, exec (.retlw k) s = .next t ∧ t.w = k ∧ PoppedElsewhere (fun x => x = wregAddr) s t ∧
      t.pc = returnTarget s s.popValue) ∧
    (∃ t, exec (.retfie .normal) s = .next t ∧ t.cell intconAddr = s.cell intconAddr ||| 0x80#8 ∧
      PoppedElsewhere (fun x => x = intconAddr) s t ∧ t.pc = returnTarget s s.popValue) ∧
    (∃ t, exec (.retfie .fast) s = .next t ∧ ShadowRestored s t ∧ t.cell intconAddr = s.cell intconAddr ||| 0x80#8 ∧
      PoppedElsewhere (fun x => x = intconAddr ∨ x = wregAddr ∨ x = statusAddr ∨ x = bsrAddr) s t ∧
      t.pc = returnTarget s s.popValue) ∧
    exec .pop s = .next { s.popped with pc := seqPc s 2 false }

/-- R269 (1), (2): N nested calls followed by N returns, N within the free entries, come back after the first call with SP, the
entries below it and the stack-fault record as they were. -/
def Obligations.NestedCallsReturn : Prop :=
  ∀ (s : State) (i : Instr) (calls : List Instr), s.pcOk → (∀ c ∈ i :: calls, isPlainCall c) →
    s.sp.toNat + (calls.length + 1) ≤ 31 →
    ∃ u, execAll ((i :: calls) ++ List.replicate (calls.length + 1) (.ret .normal)) s = .next u ∧
      u.pc = seqPc s i.size false ∧ u.sp = s.sp ∧ (∀ m : Nat, m < s.sp.toNat → u.stk[m]? = s.stk[m]?) ∧
      u.stackFaults = s.stackFaults ∧ (∀ x, u.cell x = s.cell x)

/-- R269 (4), R42: a fast return gives back W, STATUS and BSR as a fast call found them, whatever happened in between to everything
but the shadow slot; a second fast call overwrites the slot. -/
def Obligations.FastCallAndReturn : Prop :=
  ∀ (s t u : State) (k : BitVec 20), s.readyRegs [needW, (statusAddr, 0xFF#8), (bsrAddr, 0xFF#8)] →
    exec (.call k .fast) s = .next t → SameShadow t u →
    (∃ v, exec (.ret .fast) u = .next v ∧ v.w = s.w ∧ v.status = s.status ∧ v.bsr = s.bsr) ∧
    (∀ k', u.readyRegs [needW, (statusAddr, 0xFF#8), (bsrAddr, 0xFF#8)] →
      ∃ v, exec (.call k' .fast) u = .next v ∧ v.ws = u.w ∧ v.statuss = u.status ∧ v.bsrs = u.bsr)

/-! ## Table access and system (49_table_system.md) -/

/-- R290: SetTBLPTR and the pointer. -/
def Obligations.SetTablePointer : Prop :=
  ∀ (s : State) (v : TAddr), let t := s.setTblptr v;
    t.tblptr = v ∧ (t.cell tblptrlAddr).toNat = v.toNat % 256 ∧ (t.cell tblptrhAddr).toNat = v.toNat / 256 % 256 ∧
    (t.cell tblptruAddr).toNat = v.toNat / 65536 ∧ Elsewhere tablePointerCell s t ∧ SameStack s t ∧ t.pc = s.pc

/-- R292 to R295, R81: the four table reads. -/
def Obligations.TableReads : Prop :=
  ∀ s : State,
    let byteAt := fun p : TAddr =>
      if p.toNat < s.params.progBytes then Memory.get unloadedByte s.prog p.toNat else Memory.get zeroByte s.params.extRead p.toNat
    let frame := fun t : State => Elsewhere (fun x => x = tablatAddr ∨ tablePointerCell x) s t ∧ Advances 2 s t;
    (∃ t, exec .tblrd s = .next t ∧ t.cell tablatAddr = byteAt s.tblptr ∧ Elsewhere (fun x => x = tablatAddr) s t ∧
      Advances 2 s t) ∧
    (∃ t, exec .tblrdPostInc s = .next t ∧ t.cell tablatAddr = byteAt s.tblptr ∧ TblptrSet (s.tblptr + 1#22) t ∧ frame t) ∧
    (∃ t, exec .tblrdPostDec s = .next t ∧ t.cell tablatAddr = byteAt s.tblptr ∧ TblptrSet (s.tblptr - 1#22) t ∧ frame t) ∧
    (∃ t, exec .tblrdPreInc s = .next t ∧ t.cell tablatAddr = byteAt (s.tblptr + 1#22) ∧ TblptrSet (s.tblptr + 1#22) t ∧ frame t)

/-- R291, R296 to R299: no instruction writes program memory, and the four table writes change TBLPTR alone. -/
def Obligations.ProgramMemoryNeverWritten : Prop :=
  (∀ (i : Instr) (s t : State), exec i s = .next t → t.prog = s.prog ∧ t.params = s.params) ∧
  ∀ s : State, let frame := fun t : State => Elsewhere tablePointerCell s t ∧ Advances 2 s t;
    exec .tblwt s = .next { s with pc := seqPc s 2 false } ∧
    (∃ t, exec .tblwtPostInc s = .next t ∧ TblptrSet (s.tblptr + 1#22) t ∧ frame t) ∧
    (∃ t, exec .tblwtPostDec s = .next t ∧ TblptrSet (s.tblptr - 1#22) t ∧ frame t) ∧
    (∃ t, exec .tblwtPreInc s = .next t ∧ TblptrSet (s.tblptr + 1#22) t ∧ frame t)

/-- R300 to R303: the two NOPs, SLEEP and CLRWDT. -/
def Obligations.SystemInstructions : Prop :=
  ∀ (s : State) (x : BitVec 12),
    exec .nop s = .next { s with pc := seqPc s 2 false } ∧
    exec (.nopx x) s = .next { s with pc := seqPc s 2 false } ∧
    (∃ t, exec .sleep s = .next t ∧ t.run = .halted ∧ t.cell rconAddr = (s.cell rconAddr &&& 0xF3#8) ||| 0x08#8 ∧
      SameCells (fun a => a = rconAddr) s t ∧ SameShadow s t ∧ t.prog = s.prog ∧ t.stackFaults = s.stackFaults ∧
      t.params = s.params ∧ Advances 2 s t) ∧
    (∃ t, exec .clrwdt s = .next t ∧ t.cell rconAddr = s.cell rconAddr ||| 0x0C#8 ∧ Elsewhere (fun a => a = rconAddr) s t ∧
      Advances 2 s t)

/-! ## Refusals and faults (20_memory.md R69, 60_exceptions.md) -/

/-- R69, R329: the two cases of R69, where every cell that the instruction reads holds a value; nothing but the run state changes. (a) An FSR update that collides
with a write of the same FSR; MOVFF's update may be of either descriptor. (b) A skip instruction that writes PCL. -/
def Obligations.CollisionAndSkipToPclRefused : Prop :=
  (∀ (s : State) (f : Byte) (b : BitVec 3) (a : Bank) (i : Instr),
    i ∈ [.addwf f .file a, .addwfc f .file a, .subwf f .file a, .subwfb f .file a, .subfwb f .file a, .negf f a, .incf f .file a,
      .decf f .file a, .andwf f .file a, .iorwf f .file a, .xorwf f .file a, .comf f .file a, .incfsz f .file a,
      .infsnz f .file a, .decfsz f .file a, .dcfsnz f .file a, .bcf f b a, .bsf f b a, .btg f b a, .movf f .file a, .movwf f a,
      .clrf f a, .setf f a, .rlcf f .file a, .rlncf f .file a, .rrcf f .file a, .rrncf f .file a, .swapf f .file a] →
    s.missing (needsOf i s) = none → s.clashes (s.resolve f a) →
    exec i s = .next { s with run := .faulted (.refused s.pc .fsrCollision) }) ∧
  (∀ (s : State) (fs fd : DAddr), let src := s.operand fs; let dst := movffDest fs fd s;
    (∀ x, x ∈ [fs, fd, src.ea, dst.ea] → x ∉ [pclAddr, toslAddr, toshAddr, tosuAddr]) →
    s.missing (operandNeeds fs ++ operandNeeds fd ++ readNeeds src) = none →
    collides src.upd dst.ea = true ∨ collides dst.upd dst.ea = true →
    exec (.movff fs fd) s = .next { s with run := .faulted (.refused s.pc .fsrCollision) }) ∧
  (∀ (s : State) (f : Byte) (a : Bank) (i : Instr), i ∈ [.incfsz f .file a, .infsnz f .file a, .decfsz f .file a, .dcfsnz f .file a] →
    s.ready (s.resolve f a) [] → (s.operand (s.resolve f a)).ea = pclAddr →
    exec i s = .next { s with run := .faulted (.refused s.pc .skipWritesPcl) })

/-- R329, third case: an instruction one of whose reads (`needsOf`) is of a cell without a value is refused, naming that cell, unless it
is a MOVFF with a restricted operand (R325); nothing but the run state changes. One whose reads all hold a value is not refused for want
of one: in particular none is with POR_SFR_INIT = Zero (`State.noValueOk`). After a power-on reset with Unknown (R36) W holds no value
until it is written. Which reads count, that a cell loses its want bit by bit, and which of several cells is named are the model's
(logs 7, 6 and 8). -/
def Obligations.NoValueRefused : Prop :=
  (∀ (i : Instr) (s : State) (c : DAddr), s.missing (needsOf i s) = some c →
    (∀ fs fd, i = .movff fs fd → movffUnrestricted fs fd s) →
    exec i s = .next { s with run := .faulted (.refused s.pc (.noValue c)) }) ∧
  (∀ (i : Instr) (s t : State) (pc0 : PAddr) (c : DAddr), s.missing (needsOf i s) = none → s.run = .running → exec i s = .next t →
    t.run ≠ .faulted (.refused pc0 (.noValue c))) ∧
  (∀ (i : Instr) (s : State) (pc0 : PAddr) (c : DAddr), s.noValue = [] → runInstr i s ≠ .error (.refused pc0 (.noValue c))) ∧
  (∀ (s : State) (k : Byte), s.params.porSfrInit = .unknown →
    exec (.addlw k) s.powerOnReset
      = .next { s.powerOnReset with run := .faulted (.refused s.powerOnReset.pc (.noValue wregAddr)) } ∧
    ∃ t, exec (.movlw k) s.powerOnReset = .next t ∧ ∃ u, exec (.addlw k) t = .next u ∧ u.run = .running)

/-- R321, R328, R329, R302, R304: a step that changes the run state is a SLEEP, a RESET, or a fault or refusal that changes nothing
else and names the instruction's address. -/
def Obligations.FaultsAreAllOrNothing : Prop :=
  ∀ (i : Instr) (s t : State), exec i s = .next t → t.run ≠ s.run →
    (i = .sleep ∧ t.run = .halted) ∨ (i = .reset ∧ t.run = .running) ∨
    (∃ kind info, t = { s with run := .faulted (.fatal kind info) } ∧ info.pc0 = s.pc) ∨
    (∃ reason, t = { s with run := .faulted (.refused s.pc reason) })

/-- R325, R326, R51: a step records at most one stack fault, with its own address; which instructions can, and when. -/
def Obligations.StackFaultsRecorded : Prop :=
  ∀ (i : Instr) (s t : State), exec i s = .next t →
    t.stackFaults = s.stackFaults ∨
    (t.stackFaults = s.stackFaults ++ [{ kind := .overflow, pc0 := s.pc }] ∧ s.sp.toNat = 31 ∧ t.sp = s.sp ∧ t.stk = s.stk ∧
      t.stkful = true ∧ t.run = s.run ∧ (i = .push ∨ (∃ n, i = .rcall n) ∨ ∃ k sel, i = .call k sel)) ∨
    (t.stackFaults = s.stackFaults ++ [{ kind := .underflow, pc0 := s.pc }] ∧ s.sp = 0#5 ∧ t.sp = 0#5 ∧ t.stk = s.stk ∧
      t.stkunf = true ∧ t.run = s.run ∧
      (i = .pop ∨ (∃ k, i = .retlw k) ∨ (∃ sel, i = .ret sel) ∨ ∃ sel, i = .retfie sel))

/-! ## Invariants -/

/-- R37, R20, R36, R43: every step keeps the PC even and in program memory, and the memories canonical and in their ranges. -/
def Obligations.StepKeepsInvariant : Prop := ∀ s t : State, s.Inv → step s = .next t → t.Inv

/-- R340 to R344: so does every action of the host. -/
def Obligations.HostKeepsInvariant : Prop :=
  ∀ s t : State, s.Inv →
    (∀ a v, hostWrite s a v = .ok t → t.Inv) ∧ (∀ fl v, (hostWriteFlag s fl v).Inv) ∧ (∀ v, hostWritePc s v = .ok t → t.Inv) ∧
    (∀ hi recs, loadRecords hi recs s = .ok t → t.Inv) ∧ (∀ p v, bridgeWrite s p v = .ok t → t.Inv) ∧
    (∀ p b v, bridgeSetBit s p b v = .ok t → t.Inv) ∧ (hostReset s).Inv ∧ (∀ n, (hostSteps n s).2.Inv)

/-! ## The host interface (60_exceptions.md section 4) -/

/-- R342: a load. A data record whose bytes all lie below PROG_BYTES writes them at rising byte addresses and nothing else; one that goes
beyond is a load-time error that names its first byte out of range; an extended-address record sets the high half of the addresses that
follow; an end-of-file record ends the load. The model's choices are that a byte which no record supplies keeps what it held of an
earlier image (log 14), and (log 15) that the addresses of a record carry past 64 KiB, that a record of no byte loads nothing wherever
its load address lies, the address which the error names and that a failed load answers it alone, and that records which end without an
end-of-file record end the load there. -/
def Obligations.ProgramLoad : Prop :=
  ∀ (s : State) (hi : BitVec 16) (rest : List LoadRecord),
    (∀ (addr : BitVec 16) (bytes : List Byte), let base := 65536 * hi.toNat + addr.toNat;
      ((∀ n : Nat, n < bytes.length → base + n < s.params.progBytes) →
        ∃ t, loadRecords hi (.data addr bytes :: rest) s = loadRecords hi rest t ∧ t = { s with prog := t.prog } ∧
          (∀ n b, bytes[n]? = some b → t.progByte (base + n) = b) ∧
          ∀ x : Nat, x < base ∨ base + bytes.length ≤ x → t.progByte x = s.progByte x) ∧
      (bytes ≠ [] → s.params.progBytes < base + bytes.length →
        loadRecords hi (.data addr bytes :: rest) s = .error (.beyondProgram (max base s.params.progBytes)))) ∧
    (∀ hi', loadRecords hi (.extended hi' :: rest) s = loadRecords hi' rest s) ∧
    loadRecords hi (.endOfFile :: rest) s = .ok s ∧ loadRecords hi [] s = .ok s

/-- R341, R343: host reads and writes of data addresses, of one flag, and of the PC, with their rejections (which of two is reported is
the model's order, and what a read gives for bits without a value is free: log 9); the pin bridge's accesses, which are the host's, and
its change of one bit. -/
def Obligations.HostAccess : Prop :=
  ∀ (s : State) (a v : Nat),
    (0x1000 ≤ a → hostRead s a = .error .addressingFault ∧ hostWrite s a v = .error .addressingFault) ∧
    (a < 0x1000 → let c := BitVec.ofNat 12 a;
      (isView c = true → hostRead s a = .error .restrictedRegister ∧ (v < 256 → hostWrite s a v = .error .restrictedRegister)) ∧
      (isGap c = true → hostRead s a = .ok 0x00#8 ∧ (v < 256 → hostWrite s a v = .ok s)) ∧
      (isStorage c = true → (s.unset c = 0x00#8 → hostRead s a = .ok (s.cell c)) ∧
        (v < 256 → ∃ t, hostWrite s a v = .ok t ∧ (t.cell c).toNat = v ∧ hostRead t a = .ok (BitVec.ofNat 8 v) ∧
          Elsewhere (fun x => x = c) s t ∧ SameStack s t ∧ t.pc = s.pc)) ∧
      (256 ≤ v → hostWrite s a v = .error .valueRange)) ∧
    (∀ (fl : StatusFlag) (b : Bool), let t := hostWriteFlag s fl b;
      t.status.getLsbD fl.bit = b ∧ (∀ n : Nat, n < 8 → n ≠ fl.bit → t.status.getLsbD n = s.status.getLsbD n) ∧ hostReadFlag t fl = b ∧
        ((s.unset statusAddr).getLsbD fl.bit = false → hostReadFlag s fl = s.status.getLsbD fl.bit) ∧
        Elsewhere (fun x => x = statusAddr) s t ∧ SameStack s t ∧ t.pc = s.pc) ∧
    (v % 2 = 0 → v < s.params.progBytes →
      ∃ t, hostWritePc s v = .ok t ∧ t = { s with pc := BitVec.ofNat 21 v } ∧ (hostReadPc t).toNat = v) ∧
    (v % 2 = 1 ∨ s.params.progBytes ≤ v → hostWritePc s v = .error .valueRange) ∧
    hostReadPc s = s.pc ∧
    (∀ (p : Port) (x : Byte), bridgeRead s p = hostRead s p.addr.toNat ∧ bridgeWrite s p x = .ok (s.setCell p.addr x)) ∧
    (∀ (p : Port) (b : BitVec 3) (x : Bool), ∃ t, bridgeSetBit s p b x = .ok t ∧ (t.cell p.addr).getLsbD b.toNat = x ∧
      t.unset p.addr = 0x00#8 ∧
      (∀ n : Nat, n < 8 → n ≠ b.toNat → (s.unset p.addr).getLsbD n = false → (t.cell p.addr).getLsbD n = (s.cell p.addr).getLsbD n) ∧
      Elsewhere (fun y => y = p.addr) s t ∧ SameStack s t ∧ t.pc = s.pc)

/-- R346, R347: step(n) applies the step up to n times: it takes the first one and then n - 1 more, none where there is no step; it takes
at most n, fewer only when the core is no longer Running; and m + n steps are m steps and then n. -/
def Obligations.HostStepping : Prop :=
  (∀ s : State, hostSteps 0 s = (0, s)) ∧
  (∀ (s t : State) (n : Nat), step s = .next t → hostSteps (n + 1) s = ((hostSteps n t).1 + 1, (hostSteps n t).2)) ∧
  (∀ (s : State) (n : Nat), (∀ t, step s ≠ .next t) → hostSteps n s = (0, s)) ∧
  ∀ (s : State) (m n : Nat),
    (hostSteps n s).1 ≤ n ∧ ((hostSteps n s).1 < n → (hostSteps n s).2.run ≠ .running) ∧
    hostSteps (m + n) s
      = ((hostSteps m s).1 + (hostSteps n (hostSteps m s).2).1, (hostSteps n (hostSteps m s).2).2)

/-- R345: a stopped core emits nothing; a step emits its one or two fetches, then the data events of its instruction: every `MemRead` as
a read of the effective address (BTFSC, BTFSS: of the bit), then every `MemWrite`, and every write of W by `WriteDest`, as a write (BCF,
BSF, BTG: of the bit). No other instruction emits a data event, and a step that is refused or faults emits its fetches only. A write that
is discarded or that sets the PC still emits its event, and a write of W that is no `WriteDest` emits none (the model's reading: log 12). -/
def Obligations.TraceEvents : Prop :=
  ∀ s : State,
    (s.run ≠ .running → stepEvents s = []) ∧
    (s.run = .running →
      stepEvents s
        = (let pc2 := BitVec.ofNat 21 ((s.pc.toNat + 2) % s.params.progBytes)
           let w1 : Word16 := s.progByte (s.pc.toNat + 1) ++ s.progByte s.pc.toNat
           let w2 : Word16 := s.progByte (pc2.toNat + 1) ++ s.progByte pc2.toNat
           if (fetch s).size = 4 then [.opcodeFetch s.pc w1, .opcodeFetch pc2 w2] else [.opcodeFetch s.pc w1])
          ++ dataEvents (fetch s) s) ∧
    (∀ i why, runInstr i s = .error why → dataEvents i s = []) ∧
    (∀ (f : Byte) (d : Dest) (a : Bank) (b : BitVec 3),
      let addr := s.resolve f a
      let acc := s.operand addr
      let v := s.readValue acc
      let w := s.w
      let c := s.flagC
      let written := fun r : Byte => [Event.registerRead acc.ea v, .registerWrite (if d = .w then wregAddr else acc.ea) r]
      let bitWritten := fun x : Bool => [Event.registerRead acc.ea v, .bitWrite acc.ea b x];
      (∀ i needs r,
        (i, needs, r) ∈
          [(Instr.addwf f d a, [needW], (add8 w v false).1), (.addwfc f d a, [needW, needFlags maskC], (add8 w v c).1),
            (.subwf f d a, [needW], (sub8 v w false).1), (.subwfb f d a, [needW, needFlags maskC], (sub8 v w (!c)).1),
            (.subfwb f d a, [needW, needFlags maskC], (sub8 w v (!c)).1), (.incf f d a, [], v + 0x01#8), (.decf f d a, [], v - 0x01#8),
            (.andwf f d a, [needW], w &&& v), (.iorwf f d a, [needW], w ||| v), (.xorwf f d a, [needW], w ^^^ v),
            (.comf f d a, [], ~~~v), (.movf f d a, [], v), (.rlcf f d a, [needFlags maskC], BitVec.ofNat 8 (2 * v.toNat + c.toNat)),
            (.rrcf f d a, [needFlags maskC], BitVec.ofNat 8 (v.toNat / 2 + 128 * c.toNat)), (.rlncf f d a, [], v.rotateLeft 1),
            (.rrncf f d a, [], v.rotateRight 1), (.swapf f d a, [], BitVec.ofNat 8 (v.toNat % 16 * 16 + v.toNat / 16))] →
        s.ready addr needs → (d = .file → ¬s.clashes addr) → dataEvents i s = written r) ∧
      (∀ i r, (i, r) ∈ [(Instr.incfsz f d a, v + 0x01#8), (.infsnz f d a, v + 0x01#8), (.decfsz f d a, v - 0x01#8), (.dcfsnz f d a, v - 0x01#8)] →
        s.ready addr [] → (d = .file → ¬s.clashes addr ∧ acc.ea ≠ pclAddr) → dataEvents i s = written r) ∧
      (s.ready addr [] → ¬s.clashes addr →
        dataEvents (.negf f a) s = [.registerRead acc.ea v, .registerWrite acc.ea (0x00#8 - v)] ∧
        dataEvents (.bcf f b a) s = bitWritten false ∧ dataEvents (.bsf f b a) s = bitWritten true ∧
        dataEvents (.btg f b a) s = bitWritten (!v.getLsbD b.toNat)) ∧
      (s.ready addr [] →
        dataEvents (.btfsc f b a) s = [.bitRead acc.ea b (v.getLsbD b.toNat)] ∧
        dataEvents (.btfss f b a) s = [.bitRead acc.ea b (v.getLsbD b.toNat)] ∧ dataEvents (.tstfsz f a) s = [.registerRead acc.ea v]) ∧
      (s.ready addr [needW] → ∀ i, i ∈ [.cpfseq f a, .cpfsgt f a, .cpfslt f a, .mulwf f a] → dataEvents i s = [.registerRead acc.ea v]) ∧
      (¬s.clashes addr →
        (s.readyToWrite addr [needW] → dataEvents (.movwf f a) s = [.registerWrite acc.ea w]) ∧
        (s.readyToWrite addr [] →
          dataEvents (.clrf f a) s = [.registerWrite acc.ea 0x00#8] ∧ dataEvents (.setf f a) s = [.registerWrite acc.ea 0xFF#8]))) ∧
    (∀ fs fd : DAddr, let src := s.operand fs; let dst := movffDest fs fd s; let v := s.readValue src;
      movffUnrestricted fs fd s → s.missing (needsOf (.movff fs fd) s) = none →
      collides src.upd dst.ea = false → collides dst.upd dst.ea = false →
      dataEvents (.movff fs fd) s = [.registerRead src.ea v, .registerWrite dst.ea v]) ∧
    (∀ (k : Byte) (k4 : BitVec 4) (f : BitVec 2) (p : DAddr) (n : BitVec 11) (k20 : BitVec 20) (sel : Speed) (i : Instr),
      i ∈ [.addlw k, .sublw k, .daw, .andlw k, .iorlw k, .xorlw k, .movlw k, .movlb k4, .lfsr f p, .mullw k, .bra n, .bz k, .bnz k, .bc k,
        .bnc k, .bov k, .bnov k, .bn k, .bnn k, .goto k20, .call k20 sel, .rcall n, .retfie sel, .ret sel, .retlw k, .push, .pop, .tblrd,
        .tblrdPostInc, .tblrdPostDec, .tblrdPreInc, .tblwt, .tblwtPostInc, .tblwtPostDec, .tblwtPreInc, .nop, .sleep, .clrwdt, .reset] →
      dataEvents i s = [])
end

