-- ==== Sys2Proof/Laws/Bits.lean ====
section
/-! SUPPORT. Laws/Bits.lean: the concatenations and fields of the model as natural numbers. -/

namespace Sys2Proof

/-- A concatenation as a number. -/
theorem toNat_concat {m n : Nat} (x : BitVec m) (y : BitVec n) : (x ++ y).toNat = x.toNat * 2 ^ n + y.toNat := by
  rw [BitVec.toNat_append, Nat.shiftLeft_eq, Nat.mul_comm, Nat.two_pow_add_eq_or_of_lt y.isLt]

/-- A field as a number. -/
theorem toNat_field {n : Nat} (hi lo : Nat) (x : BitVec n) : (x.extractLsb hi lo).toNat = x.toNat / 2 ^ lo % 2 ^ (hi - lo + 1) := by
  rw [BitVec.extractLsb_toNat, Nat.shiftRight_eq_div_pow]

theorem toNat_zero4_concat (x : BitVec 4) : (0#4 ++ x : Byte).toNat = x.toNat := by simpa using toNat_concat 0#4 x
theorem toNat_zero2_concat (x : BitVec 6) : (0#2 ++ x : Byte).toNat = x.toNat := by simpa using toNat_concat 0#2 x
theorem toNat_zero3_concat (x : BitVec 5) : (0#3 ++ x : Byte).toNat = x.toNat := by simpa using toNat_concat 0#3 x

/-- A data address from a nibble and a byte. -/
theorem toNat_nibble_byte (x : BitVec 4) (y : Byte) : (x ++ y : DAddr).toNat = x.toNat * 256 + y.toNat := toNat_concat x y

/-- A 16-bit word from two bytes. -/
theorem toNat_byte_byte (x y : Byte) : (x ++ y : Word16).toNat = x.toNat * 256 + y.toNat := toNat_concat x y

/-- A table pointer from its three fields. -/
theorem toNat_table (x : BitVec 6) (y z : Byte) : (x ++ y ++ z : TAddr).toNat = x.toNat * 65536 + y.toNat * 256 + z.toNat := by
  have h1 : (x ++ y ++ z : TAddr).toNat = (x ++ y).toNat * 2 ^ 8 + z.toNat := toNat_concat (x ++ y) z
  rw [h1, toNat_concat]
  omega

/-- A program address from its three fields. -/
theorem toNat_program (x : BitVec 5) (y z : Byte) : (x ++ y ++ z : PAddr).toNat = x.toNat * 65536 + y.toNat * 256 + z.toNat := by
  have h1 : (x ++ y ++ z : PAddr).toNat = (x ++ y).toNat * 2 ^ 8 + z.toNat := toNat_concat (x ++ y) z
  rw [h1, toNat_concat]
  omega

theorem toNat_program_low (x : BitVec 13) (z : Byte) : (x ++ z : PAddr).toNat = x.toNat * 256 + z.toNat := toNat_concat x z

theorem toNat_program_high (x : BitVec 5) (z : BitVec 16) : (x ++ z : PAddr).toNat = x.toNat * 65536 + z.toNat := toNat_concat x z

/-- STKPTR as a number. -/
theorem toNat_stkptr (f u : Bool) (sp : BitVec 5) :
    (BitVec.ofBool f ++ BitVec.ofBool u ++ 0#1 ++ sp : Byte).toNat = f.toNat * 128 + u.toNat * 64 + sp.toNat := by
  have h1 : (BitVec.ofBool f ++ BitVec.ofBool u ++ 0#1 ++ sp : Byte).toNat
      = (BitVec.ofBool f ++ BitVec.ofBool u ++ 0#1).toNat * 2 ^ 5 + sp.toNat := toNat_concat _ _
  rw [h1]
  cases f <;> cases u <;> simp

/-- The nibble and the byte of a data address give it back. -/
theorem nibble_byte_fields (p : DAddr) : (p.extractLsb 11 8 ++ p.extractLsb 7 0 : DAddr) = p := by
  apply BitVec.eq_of_toNat_eq
  have h1 : (p.extractLsb 11 8 ++ p.extractLsb 7 0 : DAddr).toNat
      = (p.extractLsb 11 8).toNat * 256 + (p.extractLsb 7 0).toNat := toNat_concat _ _
  have := p.isLt
  rw [h1, toNat_field, toNat_field]
  omega

/-- The two bytes of a word give it back. -/
theorem byte_byte_fields (p : Word16) : (p.extractLsb 15 8 ++ p.extractLsb 7 0 : Word16) = p := by
  apply BitVec.eq_of_toNat_eq
  have h1 : (p.extractLsb 15 8 ++ p.extractLsb 7 0 : Word16).toNat
      = (p.extractLsb 15 8).toNat * 256 + (p.extractLsb 7 0).toNat := toNat_concat _ _
  have := p.isLt
  rw [h1, toNat_field, toNat_field]
  omega

/-- The low nibble of a byte whose high nibble is clear. -/
theorem low_nibble (x : BitVec 4) : (0#4 ++ x : Byte).extractLsb 3 0 = x := by
  apply BitVec.eq_of_toNat_eq
  have := x.isLt
  rw [toNat_field, toNat_zero4_concat]
  omega

/-- TBLPTRU[5:0] of a byte whose two high bits are clear. -/
theorem low_six (x : BitVec 6) : (0#2 ++ x : Byte).extractLsb 5 0 = x ∧ (0#2 ++ x : Byte).extractLsb 7 6 = 0#2 := by
  have := x.isLt
  constructor <;> apply BitVec.eq_of_toNat_eq <;> rw [toNat_field, toNat_zero2_concat]
  · omega
  · simp
    omega

/-- The three fields of a table pointer give it back. -/
theorem table_fields (v : TAddr) : (v.extractLsb 21 16 ++ v.extractLsb 15 8 ++ v.extractLsb 7 0 : TAddr) = v := by
  apply BitVec.eq_of_toNat_eq
  have h1 := toNat_table (v.extractLsb 21 16) (v.extractLsb 15 8) (v.extractLsb 7 0)
  have := v.isLt
  rw [toNat_field, toNat_field, toNat_field] at h1
  refine h1.trans ?_
  omega

end Sys2Proof
end

