-- ==== Sys2Proof/Laws/Memory.lean ====
section
/-! SUPPORT. Laws/Memory.lean: the laws of the sparse byte memory: reading after a write, and every operation keeps the canonical
form. -/

namespace Sys2Proof.Machine

variable {dflt : Nat → Byte} {m : List Host.Cell} {a b : Nat} {v : Byte}

@[simp] theorem Memory.get_nil : Memory.get dflt [] a = dflt a := rfl

theorem Memory.get_cons (c : Host.Cell) :
    Memory.get dflt (c :: m) a = if c.1 = a then c.2 else Memory.get dflt m a := rfl

theorem Memory.get_erase_same : Memory.get dflt (Memory.erase m a) a = dflt a := by
  induction m with
  | nil => rfl
  | cons c rest ih =>
    by_cases h : c.1 = a
    · simpa [Memory.erase, h] using ih
    · simpa [Memory.erase, h, Memory.get_cons] using ih

theorem Memory.get_erase_other (h : b ≠ a) : Memory.get dflt (Memory.erase m a) b = Memory.get dflt m b := by
  induction m with
  | nil => rfl
  | cons c rest ih =>
    by_cases hc : c.1 = a
    · have hb : c.1 ≠ b := fun e => h (e ▸ hc)
      simpa [Memory.erase, hc, Memory.get_cons, hb, Ne.symm h] using ih
    · simp only [Memory.erase, bne_iff_ne, ne_eq, hc, not_false_eq_true, List.filter_cons_of_pos, Memory.get_cons] at ih ⊢
      simp [ih]

theorem Memory.get_insert_same : Memory.get dflt (Memory.insert m a v) a = v := by
  induction m with
  | nil => simp [Memory.insert, Memory.get_cons]
  | cons c rest ih =>
    simp only [Memory.insert]
    split
    · simp [Memory.get_cons]
    · split
      · simp [Memory.get_cons]
      · rename_i h1 h2
        simp [Memory.get_cons, Ne.symm h2, ih]

theorem Memory.get_insert_other (h : b ≠ a) : Memory.get dflt (Memory.insert m a v) b = Memory.get dflt m b := by
  induction m with
  | nil => simp [Memory.insert, Memory.get_cons, Ne.symm h]
  | cons c rest ih =>
    simp only [Memory.insert]
    split
    · simp [Memory.get_cons, Ne.symm h]
    · split
      · rename_i h1 h2
        simp [Memory.get_cons, Ne.symm h, ← h2]
      · simp [Memory.get_cons, ih]

/-- A byte that was written reads as it was written. -/
@[simp] theorem Memory.get_set_same : Memory.get dflt (Memory.set dflt m a v) a = v := by
  unfold Memory.set
  split
  · rename_i h
    rw [Memory.get_erase_same, h]
  · exact Memory.get_insert_same

/-- A write leaves every other address as it was. -/
theorem Memory.get_set_other (h : b ≠ a) : Memory.get dflt (Memory.set dflt m a v) b = Memory.get dflt m b := by
  unfold Memory.set
  split
  · exact Memory.get_erase_other h
  · exact Memory.get_insert_other h

/-- Reading after a write, in one rewrite. -/
theorem Memory.get_set : Memory.get dflt (Memory.set dflt m a v) b = if b = a then v else Memory.get dflt m b := by
  split
  · rename_i h
    rw [h, Memory.get_set_same]
  · rename_i h
    exact Memory.get_set_other h

/-! ## The canonical form -/

theorem Memory.wf_nil : Memory.wf dflt [] := by simp [Memory.wf]

theorem Memory.wf_filter (p : Host.Cell → Bool) (h : Memory.wf dflt m) : Memory.wf dflt (m.filter p) :=
  ⟨h.1.sublist List.filter_sublist, fun c hc => h.2 c (List.mem_of_mem_filter hc)⟩

theorem Memory.wf_erase (h : Memory.wf dflt m) : Memory.wf dflt (Memory.erase m a) := Memory.wf_filter _ h

theorem Memory.mem_insert {c : Host.Cell} (hc : c ∈ Memory.insert m a v) : c = (a, v) ∨ c ∈ m := by
  induction m with
  | nil => simpa [Memory.insert] using hc
  | cons d rest ih =>
    simp only [Memory.insert] at hc
    split at hc
    · simpa using hc
    · split at hc
      · rcases List.mem_cons.1 hc with h | h
        · exact .inl h
        · exact .inr (List.mem_cons_of_mem _ h)
      · rcases List.mem_cons.1 hc with h | h
        · exact .inr (h ▸ List.mem_cons_self)
        · exact (ih h).imp id (List.mem_cons_of_mem _)

theorem Memory.insert_rising (h : m.Pairwise fun x y => x.1 < y.1) :
    (Memory.insert m a v).Pairwise fun x y => x.1 < y.1 := by
  induction m with
  | nil => simp [Memory.insert]
  | cons d rest ih =>
    obtain ⟨hd, hr⟩ := List.pairwise_cons.1 h
    simp only [Memory.insert]
    split
    · rename_i hlt
      refine List.pairwise_cons.2 ⟨fun y hy => ?_, h⟩
      rcases List.mem_cons.1 hy with e | hy
      · exact e ▸ hlt
      · exact Nat.lt_trans hlt (hd y hy)
    · split
      · rename_i _ heq
        exact List.pairwise_cons.2 ⟨fun y hy => by simpa [heq] using hd y hy, hr⟩
      · rename_i hlt hne
        refine List.pairwise_cons.2 ⟨fun y hy => ?_, ih hr⟩
        rcases Memory.mem_insert hy with e | hy
        · subst e
          change d.1 < a
          omega
        · exact hd y hy

/-- The entries of a memory after a write: the one written, or old ones. -/
theorem Memory.mem_set {c : Host.Cell} (hc : c ∈ Memory.set dflt m a v) : c = (a, v) ∨ c ∈ m := by
  unfold Memory.set at hc
  split at hc
  · exact .inr (List.mem_of_mem_filter hc)
  · exact Memory.mem_insert hc

/-- A write keeps the canonical form. -/
theorem Memory.wf_set (h : Memory.wf dflt m) : Memory.wf dflt (Memory.set dflt m a v) := by
  unfold Memory.set
  split
  · exact Memory.wf_erase h
  · rename_i hv
    refine ⟨Memory.insert_rising h.1, fun c hc => ?_⟩
    rcases Memory.mem_insert hc with e | hc
    · exact e ▸ hv
    · exact h.2 c hc

/-- A predicate on entries that the written entry meets is kept by a write. -/
theorem Memory.forall_set {P : Host.Cell → Prop} (h : ∀ c ∈ m, P c) (ha : P (a, v)) : ∀ c ∈ Memory.set dflt m a v, P c := by
  intro c hc
  rcases Memory.mem_set hc with e | hc
  · exact e ▸ ha
  · exact h c hc

/-- An entry that stands in a memory in canonical form is what its address reads as. -/
theorem Memory.get_of_mem {c : Host.Cell} (h : Memory.wf dflt m) (hc : c ∈ m) : Memory.get dflt m c.1 = c.2 := by
  induction m with
  | nil => exact absurd hc List.not_mem_nil
  | cons d rest ih =>
    obtain ⟨hd, hr⟩ := List.pairwise_cons.1 h.1
    rcases List.mem_cons.1 hc with e | hc
    · simp [e, Memory.get_cons]
    · have hne : d.1 ≠ c.1 := Nat.ne_of_lt (hd c hc)
      simpa [Memory.get_cons, hne] using ih ⟨hr, fun x hx => h.2 x (List.mem_cons_of_mem _ hx)⟩ hc

/-- An address that a memory does not list reads as its default. -/
theorem Memory.get_of_not_listed (h : ∀ c ∈ m, c.1 ≠ a) : Memory.get dflt m a = dflt a := by
  induction m with
  | nil => rfl
  | cons d rest ih =>
    simpa [Memory.get_cons, h d List.mem_cons_self] using ih fun c hc => h c (List.mem_cons_of_mem _ hc)

/-- Reading a filtered memory. -/
theorem Memory.get_filter (p : Nat → Bool) :
    Memory.get dflt (m.filter fun c => p c.1) a = if p a = true then Memory.get dflt m a else dflt a := by
  induction m with
  | nil => simp
  | cons c rest ih =>
    by_cases hc : c.1 = a
    · subst hc
      by_cases hp : p c.1 = true
      · simp [hp, Memory.get_cons]
      · simpa [hp] using ih
    · by_cases hp : p c.1 = true
      · simp only [hp, List.filter_cons_of_pos, Memory.get_cons, hc, if_false, ih]
      · simp only [hp, Bool.false_eq_true, not_false_eq_true, List.filter_cons_of_neg, Memory.get_cons, hc, if_false, ih]

end Sys2Proof.Machine
end

