-- ==== Sys2Proof/Laws/State.lean ====
section
/-! SUPPORT. Laws/State.lean: one lemma per field per update, so that no proof unfolds a record update. -/

namespace Sys2Proof.Machine

variable (s : State)

@[simp] theorem State.setBits_pc (a : DAddr) (m v : Byte) : (s.setBits a m v).pc = s.pc := rfl
@[simp] theorem State.setBits_stk (a : DAddr) (m v : Byte) : (s.setBits a m v).stk = s.stk := rfl
@[simp] theorem State.setBits_sp (a : DAddr) (m v : Byte) : (s.setBits a m v).sp = s.sp := rfl
@[simp] theorem State.setBits_stkful (a : DAddr) (m v : Byte) : (s.setBits a m v).stkful = s.stkful := rfl
@[simp] theorem State.setBits_stkunf (a : DAddr) (m v : Byte) : (s.setBits a m v).stkunf = s.stkunf := rfl
@[simp] theorem State.setBits_ws (a : DAddr) (m v : Byte) : (s.setBits a m v).ws = s.ws := rfl
@[simp] theorem State.setBits_statuss (a : DAddr) (m v : Byte) : (s.setBits a m v).statuss = s.statuss := rfl
@[simp] theorem State.setBits_bsrs (a : DAddr) (m v : Byte) : (s.setBits a m v).bsrs = s.bsrs := rfl
@[simp] theorem State.setBits_prog (a : DAddr) (m v : Byte) : (s.setBits a m v).prog = s.prog := rfl
@[simp] theorem State.setBits_run (a : DAddr) (m v : Byte) : (s.setBits a m v).run = s.run := rfl
@[simp] theorem State.setBits_stackFaults (a : DAddr) (m v : Byte) : (s.setBits a m v).stackFaults = s.stackFaults := rfl
@[simp] theorem State.setBits_params (a : DAddr) (m v : Byte) : (s.setBits a m v).params = s.params := rfl

@[simp] theorem State.setCell_pc (a : DAddr) (v : Byte) : (s.setCell a v).pc = s.pc := rfl
@[simp] theorem State.setCell_stk (a : DAddr) (v : Byte) : (s.setCell a v).stk = s.stk := rfl
@[simp] theorem State.setCell_sp (a : DAddr) (v : Byte) : (s.setCell a v).sp = s.sp := rfl
@[simp] theorem State.setCell_stkful (a : DAddr) (v : Byte) : (s.setCell a v).stkful = s.stkful := rfl
@[simp] theorem State.setCell_stkunf (a : DAddr) (v : Byte) : (s.setCell a v).stkunf = s.stkunf := rfl
@[simp] theorem State.setCell_ws (a : DAddr) (v : Byte) : (s.setCell a v).ws = s.ws := rfl
@[simp] theorem State.setCell_statuss (a : DAddr) (v : Byte) : (s.setCell a v).statuss = s.statuss := rfl
@[simp] theorem State.setCell_bsrs (a : DAddr) (v : Byte) : (s.setCell a v).bsrs = s.bsrs := rfl
@[simp] theorem State.setCell_prog (a : DAddr) (v : Byte) : (s.setCell a v).prog = s.prog := rfl
@[simp] theorem State.setCell_run (a : DAddr) (v : Byte) : (s.setCell a v).run = s.run := rfl
@[simp] theorem State.setCell_stackFaults (a : DAddr) (v : Byte) : (s.setCell a v).stackFaults = s.stackFaults := rfl
@[simp] theorem State.setCell_params (a : DAddr) (v : Byte) : (s.setCell a v).params = s.params := rfl

@[simp] theorem State.affect_pc (m : Byte) (fl : FlagVec) : (s.affect m fl).pc = s.pc := rfl
@[simp] theorem State.affect_stk (m : Byte) (fl : FlagVec) : (s.affect m fl).stk = s.stk := rfl
@[simp] theorem State.affect_sp (m : Byte) (fl : FlagVec) : (s.affect m fl).sp = s.sp := rfl
@[simp] theorem State.affect_stkful (m : Byte) (fl : FlagVec) : (s.affect m fl).stkful = s.stkful := rfl
@[simp] theorem State.affect_stkunf (m : Byte) (fl : FlagVec) : (s.affect m fl).stkunf = s.stkunf := rfl
@[simp] theorem State.affect_ws (m : Byte) (fl : FlagVec) : (s.affect m fl).ws = s.ws := rfl
@[simp] theorem State.affect_statuss (m : Byte) (fl : FlagVec) : (s.affect m fl).statuss = s.statuss := rfl
@[simp] theorem State.affect_bsrs (m : Byte) (fl : FlagVec) : (s.affect m fl).bsrs = s.bsrs := rfl
@[simp] theorem State.affect_prog (m : Byte) (fl : FlagVec) : (s.affect m fl).prog = s.prog := rfl
@[simp] theorem State.affect_run (m : Byte) (fl : FlagVec) : (s.affect m fl).run = s.run := rfl
@[simp] theorem State.affect_stackFaults (m : Byte) (fl : FlagVec) : (s.affect m fl).stackFaults = s.stackFaults := rfl
@[simp] theorem State.affect_params (m : Byte) (fl : FlagVec) : (s.affect m fl).params = s.params := rfl

@[simp] theorem State.setPtr_pc (n : Fsr) (p : DAddr) : (s.setPtr n p).pc = s.pc := rfl
@[simp] theorem State.setPtr_stk (n : Fsr) (p : DAddr) : (s.setPtr n p).stk = s.stk := rfl
@[simp] theorem State.setPtr_sp (n : Fsr) (p : DAddr) : (s.setPtr n p).sp = s.sp := rfl
@[simp] theorem State.setPtr_stkful (n : Fsr) (p : DAddr) : (s.setPtr n p).stkful = s.stkful := rfl
@[simp] theorem State.setPtr_stkunf (n : Fsr) (p : DAddr) : (s.setPtr n p).stkunf = s.stkunf := rfl
@[simp] theorem State.setPtr_ws (n : Fsr) (p : DAddr) : (s.setPtr n p).ws = s.ws := rfl
@[simp] theorem State.setPtr_statuss (n : Fsr) (p : DAddr) : (s.setPtr n p).statuss = s.statuss := rfl
@[simp] theorem State.setPtr_bsrs (n : Fsr) (p : DAddr) : (s.setPtr n p).bsrs = s.bsrs := rfl
@[simp] theorem State.setPtr_prog (n : Fsr) (p : DAddr) : (s.setPtr n p).prog = s.prog := rfl
@[simp] theorem State.setPtr_run (n : Fsr) (p : DAddr) : (s.setPtr n p).run = s.run := rfl
@[simp] theorem State.setPtr_stackFaults (n : Fsr) (p : DAddr) : (s.setPtr n p).stackFaults = s.stackFaults := rfl
@[simp] theorem State.setPtr_params (n : Fsr) (p : DAddr) : (s.setPtr n p).params = s.params := rfl

@[simp] theorem State.applyUpd_pc (u : Option (Fsr × DAddr)) : (s.applyUpd u).pc = s.pc := by cases u <;> rfl
@[simp] theorem State.applyUpd_stk (u : Option (Fsr × DAddr)) : (s.applyUpd u).stk = s.stk := by cases u <;> rfl
@[simp] theorem State.applyUpd_sp (u : Option (Fsr × DAddr)) : (s.applyUpd u).sp = s.sp := by cases u <;> rfl
@[simp] theorem State.applyUpd_stkful (u : Option (Fsr × DAddr)) : (s.applyUpd u).stkful = s.stkful := by cases u <;> rfl
@[simp] theorem State.applyUpd_stkunf (u : Option (Fsr × DAddr)) : (s.applyUpd u).stkunf = s.stkunf := by cases u <;> rfl
@[simp] theorem State.applyUpd_ws (u : Option (Fsr × DAddr)) : (s.applyUpd u).ws = s.ws := by cases u <;> rfl
@[simp] theorem State.applyUpd_statuss (u : Option (Fsr × DAddr)) : (s.applyUpd u).statuss = s.statuss := by cases u <;> rfl
@[simp] theorem State.applyUpd_bsrs (u : Option (Fsr × DAddr)) : (s.applyUpd u).bsrs = s.bsrs := by cases u <;> rfl
@[simp] theorem State.applyUpd_prog (u : Option (Fsr × DAddr)) : (s.applyUpd u).prog = s.prog := by cases u <;> rfl
@[simp] theorem State.applyUpd_run (u : Option (Fsr × DAddr)) : (s.applyUpd u).run = s.run := by cases u <;> rfl
@[simp] theorem State.applyUpd_stackFaults (u : Option (Fsr × DAddr)) : (s.applyUpd u).stackFaults = s.stackFaults := by cases u <;> rfl
@[simp] theorem State.applyUpd_params (u : Option (Fsr × DAddr)) : (s.applyUpd u).params = s.params := by cases u <;> rfl

@[simp] theorem State.setTblptr_pc (v : TAddr) : (s.setTblptr v).pc = s.pc := rfl
@[simp] theorem State.setTblptr_stk (v : TAddr) : (s.setTblptr v).stk = s.stk := rfl
@[simp] theorem State.setTblptr_sp (v : TAddr) : (s.setTblptr v).sp = s.sp := rfl
@[simp] theorem State.setTblptr_stkful (v : TAddr) : (s.setTblptr v).stkful = s.stkful := rfl
@[simp] theorem State.setTblptr_stkunf (v : TAddr) : (s.setTblptr v).stkunf = s.stkunf := rfl
@[simp] theorem State.setTblptr_ws (v : TAddr) : (s.setTblptr v).ws = s.ws := rfl
@[simp] theorem State.setTblptr_statuss (v : TAddr) : (s.setTblptr v).statuss = s.statuss := rfl
@[simp] theorem State.setTblptr_bsrs (v : TAddr) : (s.setTblptr v).bsrs = s.bsrs := rfl
@[simp] theorem State.setTblptr_prog (v : TAddr) : (s.setTblptr v).prog = s.prog := rfl
@[simp] theorem State.setTblptr_run (v : TAddr) : (s.setTblptr v).run = s.run := rfl
@[simp] theorem State.setTblptr_stackFaults (v : TAddr) : (s.setTblptr v).stackFaults = s.stackFaults := rfl
@[simp] theorem State.setTblptr_params (v : TAddr) : (s.setTblptr v).params = s.params := rfl

@[simp] theorem State.loadLatches_pc : (s.loadLatches).pc = s.pc := rfl
@[simp] theorem State.loadLatches_stk : (s.loadLatches).stk = s.stk := rfl
@[simp] theorem State.loadLatches_sp : (s.loadLatches).sp = s.sp := rfl
@[simp] theorem State.loadLatches_stkful : (s.loadLatches).stkful = s.stkful := rfl
@[simp] theorem State.loadLatches_stkunf : (s.loadLatches).stkunf = s.stkunf := rfl
@[simp] theorem State.loadLatches_ws : (s.loadLatches).ws = s.ws := rfl
@[simp] theorem State.loadLatches_statuss : (s.loadLatches).statuss = s.statuss := rfl
@[simp] theorem State.loadLatches_bsrs : (s.loadLatches).bsrs = s.bsrs := rfl
@[simp] theorem State.loadLatches_prog : (s.loadLatches).prog = s.prog := rfl
@[simp] theorem State.loadLatches_run : (s.loadLatches).run = s.run := rfl
@[simp] theorem State.loadLatches_stackFaults : (s.loadLatches).stackFaults = s.stackFaults := rfl
@[simp] theorem State.loadLatches_params : (s.loadLatches).params = s.params := rfl

@[simp] theorem State.afterRead_pc (acc : Access) : (s.afterRead acc).pc = s.pc := by unfold State.afterRead; split <;> rfl
@[simp] theorem State.afterRead_stk (acc : Access) : (s.afterRead acc).stk = s.stk := by unfold State.afterRead; split <;> rfl
@[simp] theorem State.afterRead_sp (acc : Access) : (s.afterRead acc).sp = s.sp := by unfold State.afterRead; split <;> rfl
@[simp] theorem State.afterRead_stkful (acc : Access) : (s.afterRead acc).stkful = s.stkful := by unfold State.afterRead; split <;> rfl
@[simp] theorem State.afterRead_stkunf (acc : Access) : (s.afterRead acc).stkunf = s.stkunf := by unfold State.afterRead; split <;> rfl
@[simp] theorem State.afterRead_ws (acc : Access) : (s.afterRead acc).ws = s.ws := by unfold State.afterRead; split <;> rfl
@[simp] theorem State.afterRead_statuss (acc : Access) : (s.afterRead acc).statuss = s.statuss := by unfold State.afterRead; split <;> rfl
@[simp] theorem State.afterRead_bsrs (acc : Access) : (s.afterRead acc).bsrs = s.bsrs := by unfold State.afterRead; split <;> rfl
@[simp] theorem State.afterRead_prog (acc : Access) : (s.afterRead acc).prog = s.prog := by unfold State.afterRead; split <;> rfl
@[simp] theorem State.afterRead_run (acc : Access) : (s.afterRead acc).run = s.run := by unfold State.afterRead; split <;> rfl
@[simp] theorem State.afterRead_stackFaults (acc : Access) : (s.afterRead acc).stackFaults = s.stackFaults := by unfold State.afterRead; split <;> rfl
@[simp] theorem State.afterRead_params (acc : Access) : (s.afterRead acc).params = s.params := by unfold State.afterRead; split <;> rfl

@[simp] theorem State.restoreShadow_pc : (s.restoreShadow).pc = s.pc := rfl
@[simp] theorem State.restoreShadow_stk : (s.restoreShadow).stk = s.stk := rfl
@[simp] theorem State.restoreShadow_sp : (s.restoreShadow).sp = s.sp := rfl
@[simp] theorem State.restoreShadow_stkful : (s.restoreShadow).stkful = s.stkful := rfl
@[simp] theorem State.restoreShadow_stkunf : (s.restoreShadow).stkunf = s.stkunf := rfl
@[simp] theorem State.restoreShadow_ws : (s.restoreShadow).ws = s.ws := rfl
@[simp] theorem State.restoreShadow_statuss : (s.restoreShadow).statuss = s.statuss := rfl
@[simp] theorem State.restoreShadow_bsrs : (s.restoreShadow).bsrs = s.bsrs := rfl
@[simp] theorem State.restoreShadow_prog : (s.restoreShadow).prog = s.prog := rfl
@[simp] theorem State.restoreShadow_run : (s.restoreShadow).run = s.run := rfl
@[simp] theorem State.restoreShadow_stackFaults : (s.restoreShadow).stackFaults = s.stackFaults := rfl
@[simp] theorem State.restoreShadow_params : (s.restoreShadow).params = s.params := rfl

@[simp] theorem State.leaveInterrupt_pc (b : Bool) : (s.leaveInterrupt b).pc = s.pc := by cases b <;> rfl
@[simp] theorem State.leaveInterrupt_stk (b : Bool) : (s.leaveInterrupt b).stk = s.stk := by cases b <;> rfl
@[simp] theorem State.leaveInterrupt_sp (b : Bool) : (s.leaveInterrupt b).sp = s.sp := by cases b <;> rfl
@[simp] theorem State.leaveInterrupt_stkful (b : Bool) : (s.leaveInterrupt b).stkful = s.stkful := by cases b <;> rfl
@[simp] theorem State.leaveInterrupt_stkunf (b : Bool) : (s.leaveInterrupt b).stkunf = s.stkunf := by cases b <;> rfl
@[simp] theorem State.leaveInterrupt_ws (b : Bool) : (s.leaveInterrupt b).ws = s.ws := by cases b <;> rfl
@[simp] theorem State.leaveInterrupt_statuss (b : Bool) : (s.leaveInterrupt b).statuss = s.statuss := by cases b <;> rfl
@[simp] theorem State.leaveInterrupt_bsrs (b : Bool) : (s.leaveInterrupt b).bsrs = s.bsrs := by cases b <;> rfl
@[simp] theorem State.leaveInterrupt_prog (b : Bool) : (s.leaveInterrupt b).prog = s.prog := by cases b <;> rfl
@[simp] theorem State.leaveInterrupt_run (b : Bool) : (s.leaveInterrupt b).run = s.run := by cases b <;> rfl
@[simp] theorem State.leaveInterrupt_stackFaults (b : Bool) : (s.leaveInterrupt b).stackFaults = s.stackFaults := by cases b <;> rfl
@[simp] theorem State.leaveInterrupt_params (b : Bool) : (s.leaveInterrupt b).params = s.params := by cases b <;> rfl

@[simp] theorem State.tableRead_pc (t : TAddr) : (s.tableRead t).pc = s.pc := rfl
@[simp] theorem State.tableRead_stk (t : TAddr) : (s.tableRead t).stk = s.stk := rfl
@[simp] theorem State.tableRead_sp (t : TAddr) : (s.tableRead t).sp = s.sp := rfl
@[simp] theorem State.tableRead_stkful (t : TAddr) : (s.tableRead t).stkful = s.stkful := rfl
@[simp] theorem State.tableRead_stkunf (t : TAddr) : (s.tableRead t).stkunf = s.stkunf := rfl
@[simp] theorem State.tableRead_ws (t : TAddr) : (s.tableRead t).ws = s.ws := rfl
@[simp] theorem State.tableRead_statuss (t : TAddr) : (s.tableRead t).statuss = s.statuss := rfl
@[simp] theorem State.tableRead_bsrs (t : TAddr) : (s.tableRead t).bsrs = s.bsrs := rfl
@[simp] theorem State.tableRead_prog (t : TAddr) : (s.tableRead t).prog = s.prog := rfl
@[simp] theorem State.tableRead_run (t : TAddr) : (s.tableRead t).run = s.run := rfl
@[simp] theorem State.tableRead_stackFaults (t : TAddr) : (s.tableRead t).stackFaults = s.stackFaults := rfl
@[simp] theorem State.tableRead_params (t : TAddr) : (s.tableRead t).params = s.params := rfl

@[simp] theorem State.setProd_pc (p : Word16) : (s.setProd p).pc = s.pc := rfl
@[simp] theorem State.setProd_stk (p : Word16) : (s.setProd p).stk = s.stk := rfl
@[simp] theorem State.setProd_sp (p : Word16) : (s.setProd p).sp = s.sp := rfl
@[simp] theorem State.setProd_stkful (p : Word16) : (s.setProd p).stkful = s.stkful := rfl
@[simp] theorem State.setProd_stkunf (p : Word16) : (s.setProd p).stkunf = s.stkunf := rfl
@[simp] theorem State.setProd_ws (p : Word16) : (s.setProd p).ws = s.ws := rfl
@[simp] theorem State.setProd_statuss (p : Word16) : (s.setProd p).statuss = s.statuss := rfl
@[simp] theorem State.setProd_bsrs (p : Word16) : (s.setProd p).bsrs = s.bsrs := rfl
@[simp] theorem State.setProd_prog (p : Word16) : (s.setProd p).prog = s.prog := rfl
@[simp] theorem State.setProd_run (p : Word16) : (s.setProd p).run = s.run := rfl
@[simp] theorem State.setProd_stackFaults (p : Word16) : (s.setProd p).stackFaults = s.stackFaults := rfl
@[simp] theorem State.setProd_params (p : Word16) : (s.setProd p).params = s.params := rfl

@[simp] theorem State.recordStackFault_data (k : StackFaultKind) : (s.recordStackFault k).data = s.data := rfl
@[simp] theorem State.recordStackFault_noValue (k : StackFaultKind) : (s.recordStackFault k).noValue = s.noValue := rfl
@[simp] theorem State.recordStackFault_pc (k : StackFaultKind) : (s.recordStackFault k).pc = s.pc := rfl
@[simp] theorem State.recordStackFault_stk (k : StackFaultKind) : (s.recordStackFault k).stk = s.stk := rfl
@[simp] theorem State.recordStackFault_sp (k : StackFaultKind) : (s.recordStackFault k).sp = s.sp := rfl
@[simp] theorem State.recordStackFault_stkful (k : StackFaultKind) : (s.recordStackFault k).stkful = s.stkful := rfl
@[simp] theorem State.recordStackFault_stkunf (k : StackFaultKind) : (s.recordStackFault k).stkunf = s.stkunf := rfl
@[simp] theorem State.recordStackFault_ws (k : StackFaultKind) : (s.recordStackFault k).ws = s.ws := rfl
@[simp] theorem State.recordStackFault_statuss (k : StackFaultKind) : (s.recordStackFault k).statuss = s.statuss := rfl
@[simp] theorem State.recordStackFault_bsrs (k : StackFaultKind) : (s.recordStackFault k).bsrs = s.bsrs := rfl
@[simp] theorem State.recordStackFault_prog (k : StackFaultKind) : (s.recordStackFault k).prog = s.prog := rfl
@[simp] theorem State.recordStackFault_run (k : StackFaultKind) : (s.recordStackFault k).run = s.run := rfl
@[simp] theorem State.recordStackFault_params (k : StackFaultKind) : (s.recordStackFault k).params = s.params := rfl

@[simp] theorem State.push_data (v : PAddr) : (s.push v).data = s.data := by unfold State.push; split <;> rfl
@[simp] theorem State.push_noValue (v : PAddr) : (s.push v).noValue = s.noValue := by unfold State.push; split <;> rfl
@[simp] theorem State.push_pc (v : PAddr) : (s.push v).pc = s.pc := by unfold State.push; split <;> rfl
@[simp] theorem State.push_stkunf (v : PAddr) : (s.push v).stkunf = s.stkunf := by unfold State.push; split <;> rfl
@[simp] theorem State.push_ws (v : PAddr) : (s.push v).ws = s.ws := by unfold State.push; split <;> rfl
@[simp] theorem State.push_statuss (v : PAddr) : (s.push v).statuss = s.statuss := by unfold State.push; split <;> rfl
@[simp] theorem State.push_bsrs (v : PAddr) : (s.push v).bsrs = s.bsrs := by unfold State.push; split <;> rfl
@[simp] theorem State.push_prog (v : PAddr) : (s.push v).prog = s.prog := by unfold State.push; split <;> rfl
@[simp] theorem State.push_run (v : PAddr) : (s.push v).run = s.run := by unfold State.push; split <;> rfl
@[simp] theorem State.push_params (v : PAddr) : (s.push v).params = s.params := by unfold State.push; split <;> rfl

@[simp] theorem State.popped_data : (s.popped).data = s.data := by unfold State.popped; split <;> rfl
@[simp] theorem State.popped_noValue : (s.popped).noValue = s.noValue := by unfold State.popped; split <;> rfl
@[simp] theorem State.popped_pc : (s.popped).pc = s.pc := by unfold State.popped; split <;> rfl
@[simp] theorem State.popped_stk : (s.popped).stk = s.stk := by unfold State.popped; split <;> rfl
@[simp] theorem State.popped_stkful : (s.popped).stkful = s.stkful := by unfold State.popped; split <;> rfl
@[simp] theorem State.popped_ws : (s.popped).ws = s.ws := by unfold State.popped; split <;> rfl
@[simp] theorem State.popped_statuss : (s.popped).statuss = s.statuss := by unfold State.popped; split <;> rfl
@[simp] theorem State.popped_bsrs : (s.popped).bsrs = s.bsrs := by unfold State.popped; split <;> rfl
@[simp] theorem State.popped_prog : (s.popped).prog = s.prog := by unfold State.popped; split <;> rfl
@[simp] theorem State.popped_run : (s.popped).run = s.run := by unfold State.popped; split <;> rfl
@[simp] theorem State.popped_params : (s.popped).params = s.params := by unfold State.popped; split <;> rfl

@[simp] theorem State.setTos_data (t : PAddr) : (s.setTos t).data = s.data := by unfold State.setTos; split <;> rfl
@[simp] theorem State.setTos_noValue (t : PAddr) : (s.setTos t).noValue = s.noValue := by unfold State.setTos; split <;> rfl
@[simp] theorem State.setTos_pc (t : PAddr) : (s.setTos t).pc = s.pc := by unfold State.setTos; split <;> rfl
@[simp] theorem State.setTos_sp (t : PAddr) : (s.setTos t).sp = s.sp := by unfold State.setTos; split <;> rfl
@[simp] theorem State.setTos_stkful (t : PAddr) : (s.setTos t).stkful = s.stkful := by unfold State.setTos; split <;> rfl
@[simp] theorem State.setTos_stkunf (t : PAddr) : (s.setTos t).stkunf = s.stkunf := by unfold State.setTos; split <;> rfl
@[simp] theorem State.setTos_ws (t : PAddr) : (s.setTos t).ws = s.ws := by unfold State.setTos; split <;> rfl
@[simp] theorem State.setTos_statuss (t : PAddr) : (s.setTos t).statuss = s.statuss := by unfold State.setTos; split <;> rfl
@[simp] theorem State.setTos_bsrs (t : PAddr) : (s.setTos t).bsrs = s.bsrs := by unfold State.setTos; split <;> rfl
@[simp] theorem State.setTos_prog (t : PAddr) : (s.setTos t).prog = s.prog := by unfold State.setTos; split <;> rfl
@[simp] theorem State.setTos_run (t : PAddr) : (s.setTos t).run = s.run := by unfold State.setTos; split <;> rfl
@[simp] theorem State.setTos_stackFaults (t : PAddr) : (s.setTos t).stackFaults = s.stackFaults := by unfold State.setTos; split <;> rfl
@[simp] theorem State.setTos_params (t : PAddr) : (s.setTos t).params = s.params := by unfold State.setTos; split <;> rfl

@[simp] theorem State.setStkptr_data (v : Byte) : (s.setStkptr v).data = s.data := rfl
@[simp] theorem State.setStkptr_noValue (v : Byte) : (s.setStkptr v).noValue = s.noValue := rfl
@[simp] theorem State.setStkptr_pc (v : Byte) : (s.setStkptr v).pc = s.pc := rfl
@[simp] theorem State.setStkptr_stk (v : Byte) : (s.setStkptr v).stk = s.stk := rfl
@[simp] theorem State.setStkptr_ws (v : Byte) : (s.setStkptr v).ws = s.ws := rfl
@[simp] theorem State.setStkptr_statuss (v : Byte) : (s.setStkptr v).statuss = s.statuss := rfl
@[simp] theorem State.setStkptr_bsrs (v : Byte) : (s.setStkptr v).bsrs = s.bsrs := rfl
@[simp] theorem State.setStkptr_prog (v : Byte) : (s.setStkptr v).prog = s.prog := rfl
@[simp] theorem State.setStkptr_run (v : Byte) : (s.setStkptr v).run = s.run := rfl
@[simp] theorem State.setStkptr_stackFaults (v : Byte) : (s.setStkptr v).stackFaults = s.stackFaults := rfl
@[simp] theorem State.setStkptr_params (v : Byte) : (s.setStkptr v).params = s.params := rfl

@[simp] theorem State.stackViewWrite_data (a : DAddr) (v : Byte) : (s.stackViewWrite a v).data = s.data := by unfold State.stackViewWrite; split_ifs <;> simp
@[simp] theorem State.stackViewWrite_noValue (a : DAddr) (v : Byte) : (s.stackViewWrite a v).noValue = s.noValue := by unfold State.stackViewWrite; split_ifs <;> simp
@[simp] theorem State.stackViewWrite_pc (a : DAddr) (v : Byte) : (s.stackViewWrite a v).pc = s.pc := by unfold State.stackViewWrite; split_ifs <;> simp
@[simp] theorem State.stackViewWrite_ws (a : DAddr) (v : Byte) : (s.stackViewWrite a v).ws = s.ws := by unfold State.stackViewWrite; split_ifs <;> simp
@[simp] theorem State.stackViewWrite_statuss (a : DAddr) (v : Byte) : (s.stackViewWrite a v).statuss = s.statuss := by unfold State.stackViewWrite; split_ifs <;> simp
@[simp] theorem State.stackViewWrite_bsrs (a : DAddr) (v : Byte) : (s.stackViewWrite a v).bsrs = s.bsrs := by unfold State.stackViewWrite; split_ifs <;> simp
@[simp] theorem State.stackViewWrite_prog (a : DAddr) (v : Byte) : (s.stackViewWrite a v).prog = s.prog := by unfold State.stackViewWrite; split_ifs <;> simp
@[simp] theorem State.stackViewWrite_run (a : DAddr) (v : Byte) : (s.stackViewWrite a v).run = s.run := by unfold State.stackViewWrite; split_ifs <;> simp
@[simp] theorem State.stackViewWrite_stackFaults (a : DAddr) (v : Byte) : (s.stackViewWrite a v).stackFaults = s.stackFaults := by unfold State.stackViewWrite; split_ifs <;> simp
@[simp] theorem State.stackViewWrite_params (a : DAddr) (v : Byte) : (s.stackViewWrite a v).params = s.params := by unfold State.stackViewWrite; split_ifs <;> simp

@[simp] theorem State.saveShadow_data : (s.saveShadow).data = s.data := rfl
@[simp] theorem State.saveShadow_noValue : (s.saveShadow).noValue = s.noValue := rfl
@[simp] theorem State.saveShadow_pc : (s.saveShadow).pc = s.pc := rfl
@[simp] theorem State.saveShadow_stk : (s.saveShadow).stk = s.stk := rfl
@[simp] theorem State.saveShadow_sp : (s.saveShadow).sp = s.sp := rfl
@[simp] theorem State.saveShadow_stkful : (s.saveShadow).stkful = s.stkful := rfl
@[simp] theorem State.saveShadow_stkunf : (s.saveShadow).stkunf = s.stkunf := rfl
@[simp] theorem State.saveShadow_prog : (s.saveShadow).prog = s.prog := rfl
@[simp] theorem State.saveShadow_run : (s.saveShadow).run = s.run := rfl
@[simp] theorem State.saveShadow_stackFaults : (s.saveShadow).stackFaults = s.stackFaults := rfl
@[simp] theorem State.saveShadow_params : (s.saveShadow).params = s.params := rfl

@[simp] theorem State.takeFault_data (w : CoreFault) : (s.takeFault w).data = s.data := rfl
@[simp] theorem State.takeFault_noValue (w : CoreFault) : (s.takeFault w).noValue = s.noValue := rfl
@[simp] theorem State.takeFault_pc (w : CoreFault) : (s.takeFault w).pc = s.pc := rfl
@[simp] theorem State.takeFault_stk (w : CoreFault) : (s.takeFault w).stk = s.stk := rfl
@[simp] theorem State.takeFault_sp (w : CoreFault) : (s.takeFault w).sp = s.sp := rfl
@[simp] theorem State.takeFault_stkful (w : CoreFault) : (s.takeFault w).stkful = s.stkful := rfl
@[simp] theorem State.takeFault_stkunf (w : CoreFault) : (s.takeFault w).stkunf = s.stkunf := rfl
@[simp] theorem State.takeFault_ws (w : CoreFault) : (s.takeFault w).ws = s.ws := rfl
@[simp] theorem State.takeFault_statuss (w : CoreFault) : (s.takeFault w).statuss = s.statuss := rfl
@[simp] theorem State.takeFault_bsrs (w : CoreFault) : (s.takeFault w).bsrs = s.bsrs := rfl
@[simp] theorem State.takeFault_prog (w : CoreFault) : (s.takeFault w).prog = s.prog := rfl
@[simp] theorem State.takeFault_stackFaults (w : CoreFault) : (s.takeFault w).stackFaults = s.stackFaults := rfl
@[simp] theorem State.takeFault_params (w : CoreFault) : (s.takeFault w).params = s.params := rfl

@[simp] theorem State.softReset_pc : (s.softReset).pc = s.pc := rfl
@[simp] theorem State.softReset_stk : (s.softReset).stk = s.stk := rfl
@[simp] theorem State.softReset_stkful : (s.softReset).stkful = s.stkful := rfl
@[simp] theorem State.softReset_stkunf : (s.softReset).stkunf = s.stkunf := rfl
@[simp] theorem State.softReset_ws : (s.softReset).ws = s.ws := rfl
@[simp] theorem State.softReset_statuss : (s.softReset).statuss = s.statuss := rfl
@[simp] theorem State.softReset_bsrs : (s.softReset).bsrs = s.bsrs := rfl
@[simp] theorem State.softReset_prog : (s.softReset).prog = s.prog := rfl
@[simp] theorem State.softReset_stackFaults : (s.softReset).stackFaults = s.stackFaults := rfl
@[simp] theorem State.softReset_params : (s.softReset).params = s.params := rfl

end Sys2Proof.Machine
end

