-- ==== Sys2Proof/Laws/Cells.lean ====
section
/-! SUPPORT. Laws/Cells.lean: what each update makes of a data cell and of its no-value marks, and what each operation over cells
does, said once. -/

namespace Sys2Proof.Machine

variable (s t : State) (a b : DAddr) (m v : Byte)

theorem State.cell_of_data {s t : State} (h : t.data = s.data) : t.cell a = s.cell a := by simp [State.cell, h]

theorem State.unset_of_noValue {s t : State} (h : t.noValue = s.noValue) : t.unset a = s.unset a := by
  simp [State.unset, h]

/-! ## Writing bits and cells -/

theorem State.cell_setBits :
    (s.setBits a m v).cell b = if b = a then (s.cell a &&& ~~~m) ||| (v &&& m) else s.cell b := by
  simp only [State.cell, State.setBits, Memory.get_set, BitVec.toNat_inj]

theorem State.unset_setBits : (s.setBits a m v).unset b = if b = a then s.unset a &&& ~~~m else s.unset b := by
  simp only [State.unset, State.setBits, Memory.get_set, BitVec.toNat_inj]

theorem State.cell_setCell : (s.setCell a v).cell b = if b = a then v else s.cell b := by
  have h : (s.cell a &&& ~~~0xFF#8) ||| (v &&& 0xFF#8) = v := by
    have h1 : ~~~0xFF#8 = 0#8 := by decide
    have h2 : (0xFF#8) = BitVec.allOnes 8 := by decide
    rw [h1, h2, BitVec.and_zero, BitVec.and_allOnes, BitVec.zero_or]
  rw [State.setCell, State.cell_setBits, h]

theorem State.unset_setCell : (s.setCell a v).unset b = if b = a then 0x00#8 else s.unset b := by
  have h : s.unset a &&& ~~~0xFF#8 = 0x00#8 := by
    have h1 : ~~~0xFF#8 = 0#8 := by decide
    rw [h1, BitVec.and_zero]
  rw [State.setCell, State.unset_setBits, h]

theorem State.cell_affect (fl : FlagVec) :
    (s.affect m fl).cell b
      = if b = statusAddr then (s.cell statusAddr &&& ~~~m) ||| (fl.toByte &&& m) else s.cell b :=
  State.cell_setBits s statusAddr b m fl.toByte

theorem State.unset_affect (fl : FlagVec) :
    (s.affect m fl).unset b = if b = statusAddr then s.unset statusAddr &&& ~~~m else s.unset b :=
  State.unset_setBits s statusAddr b m fl.toByte

/-- No bit is written under the empty mask. -/
theorem State.cell_affect_none (fl : FlagVec) : (s.affect maskNone fl).cell b = s.cell b := by
  rw [State.cell_affect]
  have h1 : ~~~maskNone = BitVec.allOnes 8 := by decide
  split
  · rename_i h
    subst h
    have h2 : ∀ x : Byte, x &&& BitVec.allOnes 8 = x := fun x => BitVec.and_allOnes
    rw [h1, h2]
    simp [maskNone]
  · rfl

theorem State.unset_affect_none (fl : FlagVec) : (s.affect maskNone fl).unset b = s.unset b := by
  rw [State.unset_affect]
  have h1 : ~~~maskNone = BitVec.allOnes 8 := by decide
  split
  · rename_i h
    subst h
    have h2 : ∀ x : Byte, x &&& BitVec.allOnes 8 = x := fun x => BitVec.and_allOnes
    rw [h1, h2]
  · rfl

/-! ## Pointers -/

@[simp] theorem Fsr.low_ne_high (n k : Fsr) : n.low ≠ k.high := by cases n <;> cases k <;> decide

theorem Fsr.low_injective {n k : Fsr} (h : n.low = k.low) : n = k := by
  cases n <;> cases k <;> first | rfl | (revert h; decide)

theorem Fsr.high_injective {n k : Fsr} (h : n.high = k.high) : n = k := by
  cases n <;> cases k <;> first | rfl | (revert h; decide)

theorem State.cell_setPtr (n : Fsr) (p : DAddr) :
    (s.setPtr n p).cell b
      = if b = n.high then 0#4 ++ p.extractLsb 11 8 else if b = n.low then p.extractLsb 7 0 else s.cell b := by
  simp only [State.setPtr, State.cell_setCell]

theorem State.unset_setPtr (n : Fsr) (p : DAddr) :
    (s.setPtr n p).unset b = if b = n.high then 0x00#8 else if b = n.low then 0x00#8 else s.unset b := by
  simp only [State.setPtr, State.unset_setCell]

/-- R67: an FSR update changes the two bytes of its FSR and no other cell. -/
theorem State.applyUpd_spec (u : Option (Fsr × DAddr)) :
    UpdApplied u (s.applyUpd u) ∧ SameCells (fun x => ∃ n p, u = some (n, p) ∧ (x = n.low ∨ x = n.high)) s (s.applyUpd u) := by
  rcases u with - | ⟨n, p⟩
  · exact ⟨fun n p h => by simp at h, fun x _ => ⟨rfl, rfl⟩⟩
  · refine ⟨fun k q h => ?_, fun x hx => ?_⟩
    · obtain ⟨rfl, rfl⟩ : n = k ∧ p = q := by simpa using h
      simp [State.applyUpd, State.cell_setPtr]
    · have h : x ≠ n.low ∧ x ≠ n.high :=
        ⟨fun e => hx ⟨n, p, rfl, .inl e⟩, fun e => hx ⟨n, p, rfl, .inr e⟩⟩
      simp [State.applyUpd, State.cell_setPtr, State.unset_setPtr, h.1, h.2]

/-- R290: the three bytes of TBLPTR. -/
theorem State.cell_setTblptr (x : TAddr) :
    (s.setTblptr x).cell b
      = if b = tblptruAddr then 0#2 ++ x.extractLsb 21 16
        else if b = tblptrhAddr then x.extractLsb 15 8
        else if b = tblptrlAddr then x.extractLsb 7 0 else s.cell b := by
  simp only [State.setTblptr, State.cell_setCell]

theorem State.unset_setTblptr (x : TAddr) :
    (s.setTblptr x).unset b
      = if b = tblptruAddr then 0x00#8 else if b = tblptrhAddr then 0x00#8 else if b = tblptrlAddr then 0x00#8
        else s.unset b := by
  simp only [State.setTblptr, State.unset_setCell]

/-! ## The PC latches -/

theorem State.cell_loadLatches :
    s.loadLatches.cell b
      = if b = pclatuAddr then 0#3 ++ (s.pcPlus 2#21).extractLsb 20 16
        else if b = pclathAddr then (s.pcPlus 2#21).extractLsb 15 8 else s.cell b := by
  simp only [State.loadLatches, State.cell_setCell]

theorem State.unset_loadLatches :
    s.loadLatches.unset b = if b = pclatuAddr then 0x00#8 else if b = pclathAddr then 0x00#8 else s.unset b := by
  simp only [State.loadLatches, State.unset_setCell]

/-! ## Updates that touch no cell -/

@[simp] theorem State.cell_push (x : PAddr) : (s.push x).cell b = s.cell b := State.cell_of_data b (by simp)
@[simp] theorem State.unset_push (x : PAddr) : (s.push x).unset b = s.unset b := State.unset_of_noValue b (by simp)
@[simp] theorem State.cell_popped : s.popped.cell b = s.cell b := State.cell_of_data b (by simp)
@[simp] theorem State.unset_popped : s.popped.unset b = s.unset b := State.unset_of_noValue b (by simp)
@[simp] theorem State.cell_saveShadow : s.saveShadow.cell b = s.cell b := rfl
@[simp] theorem State.unset_saveShadow : s.saveShadow.unset b = s.unset b := rfl
@[simp] theorem State.cell_stackViewWrite : (s.stackViewWrite a v).cell b = s.cell b := State.cell_of_data b (by simp)
@[simp] theorem State.unset_stackViewWrite : (s.stackViewWrite a v).unset b = s.unset b :=
  State.unset_of_noValue b (by simp)
@[simp] theorem State.cell_takeFault (w : CoreFault) : (s.takeFault w).cell b = s.cell b := rfl
@[simp] theorem State.unset_takeFault (w : CoreFault) : (s.takeFault w).unset b = s.unset b := rfl

/-! ## The shadow slot -/

theorem State.cell_restoreShadow :
    s.restoreShadow.cell b
      = if b = bsrAddr then s.bsrs else if b = statusAddr then s.statuss else if b = wregAddr then s.ws else s.cell b := by
  simp only [State.restoreShadow, State.cell_setCell]

theorem State.unset_restoreShadow :
    s.restoreShadow.unset b
      = if b = bsrAddr then 0x00#8 else if b = statusAddr then 0x00#8 else if b = wregAddr then 0x00#8 else s.unset b := by
  simp only [State.restoreShadow, State.unset_setCell]

end Sys2Proof.Machine
end

