-- ==== Sys2Proof/Laws/Operands.lean ====
section
/-! SUPPORT. Laws/Operands.lean: the operand forms, the access primitives, the phases of a step and the plans, each said once. -/

namespace Sys2Proof.Machine

variable (s : State) (p : Progress) (acc : Access)

/-! ## Kinds of address -/

theorem isStorage_iff (a : DAddr) :
    isStorage a = true ↔ isGap a = false ∧ a ≠ pclAddr ∧ isStackView a = false ∧ isIndirect a = false := by
  simp [isStorage, isView, and_assoc]

@[simp] theorem isStorage_low (n : Fsr) : isStorage n.low = true := by cases n <;> decide
@[simp] theorem isStorage_high (n : Fsr) : isStorage n.high = true := by cases n <;> decide

/-- The fifteen indirect-access addresses are SFR addresses below PCL. -/
theorem isIndirect_range {a : DAddr} (h : isIndirect a = true) : 0xFDB ≤ a.toNat ∧ a.toNat ≤ 0xFEF := by
  simp only [isIndirect, indirectOf, Option.isSome_map, List.find?_isSome, indirectTable, List.mem_cons, List.not_mem_nil,
    or_false, beq_iff_eq] at h
  obtain ⟨x, hx, he⟩ := h
  rcases hx with rfl | rfl | rfl | rfl | rfl | rfl | rfl | rfl | rfl | rfl | rfl | rfl | rfl | rfl | rfl <;> simp at he <;> omega

theorem isGap_false_of_sfr {a : DAddr} (h : 0xF80 ≤ a.toNat) : isGap a = false := by
  have h1 : ¬a.toNat < Config.sfrBase := by simp only [Config.sfrBase]; omega
  simp [isGap, h1]

theorem isStackView_false_of_indirect {a : DAddr} (h : isIndirect a = true) : isStackView a = false := by
  have := isIndirect_range h
  simp only [isStackView, decide_eq_false_iff_not]
  omega

theorem ne_pcl_of_indirect {a : DAddr} (h : isIndirect a = true) : a ≠ pclAddr := by
  have := isIndirect_range h
  intro e
  subst e
  simp [pclAddr] at this

/-! ## Access descriptors (R66) -/

/-- A direct access does not name an indirect-access address. -/
theorem operandWith_direct {ptr : Fsr → DAddr} {w : Byte} {addr : DAddr} (h : (operandWith ptr w addr).ind = false) :
    (operandWith ptr w addr).ea = addr ∧ isIndirect addr = false ∧ (operandWith ptr w addr).upd = none := by
  unfold operandWith at h ⊢
  split at h <;> simp_all [isIndirect]

theorem operandWith_none {ptr : Fsr → DAddr} {w : Byte} {addr : DAddr} (h : isIndirect addr = false) :
    operandWith ptr w addr = { ea := addr, upd := none, ind := false } := by
  have h1 : indirectOf addr = none := by simpa [isIndirect] using h
  simp [operandWith, h1]

theorem State.operand_none {s : State} {addr : DAddr} (h : isIndirect addr = false) :
    s.operand addr = { ea := addr, upd := none, ind := false } := operandWith_none h

/-! ## Phases of a step -/

@[simp] theorem Progress.start_s : (Progress.start s).s = s := rfl
@[simp] theorem Progress.start_redirect : (Progress.start s).redirect = none := rfl
@[simp] theorem Progress.start_skip : (Progress.start s).skip = false := rfl
@[simp] theorem Progress.update_s (g : State → State) : (p.update g).s = g p.s := rfl
@[simp] theorem Progress.update_redirect (g : State → State) : (p.update g).redirect = p.redirect := rfl
@[simp] theorem Progress.update_skip (g : State → State) : (p.update g).skip = p.skip := rfl
@[simp] theorem Progress.emit_s (e : Event) : (p.emit e).s = p.s := rfl
@[simp] theorem Progress.emit_redirect (e : Event) : (p.emit e).redirect = p.redirect := rfl
@[simp] theorem Progress.emit_skip (e : Event) : (p.emit e).skip = p.skip := rfl
@[simp] theorem Progress.goTo_s (t : PAddr) : (p.goTo t).s = p.s := rfl
@[simp] theorem Progress.goTo_redirect (t : PAddr) : (p.goTo t).redirect = some t := rfl
@[simp] theorem Progress.goTo_skip (t : PAddr) : (p.goTo t).skip = p.skip := rfl
@[simp] theorem Progress.skipIf_s (c : Bool) : (p.skipIf c).s = p.s := rfl
@[simp] theorem Progress.skipIf_redirect (c : Bool) : (p.skipIf c).redirect = p.redirect := rfl
@[simp] theorem Progress.skipIf_skip (c : Bool) : (p.skipIf c).skip = (p.skip || c) := rfl
@[simp] theorem Progress.affect_s (m : Byte) (fl : FlagVec) : (p.affect m fl).s = p.s.affect m fl := rfl
@[simp] theorem Progress.affect_redirect (m : Byte) (fl : FlagVec) : (p.affect m fl).redirect = p.redirect := rfl
@[simp] theorem Progress.affect_skip (m : Byte) (fl : FlagVec) : (p.affect m fl).skip = p.skip := rfl
@[simp] theorem Progress.applyUpd_s (u : Option (Fsr × DAddr)) : (p.applyUpd u).s = p.s.applyUpd u := rfl
@[simp] theorem Progress.applyUpd_redirect (u : Option (Fsr × DAddr)) : (p.applyUpd u).redirect = p.redirect := rfl
@[simp] theorem Progress.applyUpd_skip (u : Option (Fsr × DAddr)) : (p.applyUpd u).skip = p.skip := rfl
@[simp] theorem Progress.read_s : (p.read acc).s = p.s.afterRead acc := rfl
@[simp] theorem Progress.read_redirect : (p.read acc).redirect = p.redirect := rfl
@[simp] theorem Progress.read_skip : (p.read acc).skip = p.skip := rfl
@[simp] theorem Progress.readBit_s (b : BitVec 3) : (p.readBit acc b).s = p.s.afterRead acc := rfl
@[simp] theorem Progress.readBit_redirect (b : BitVec 3) : (p.readBit acc b).redirect = p.redirect := rfl
@[simp] theorem Progress.readBit_skip (b : BitVec 3) : (p.readBit acc b).skip = p.skip := rfl
@[simp] theorem Progress.write_s (v : Byte) : (p.write acc v).s = (p.memWrite acc v).s := rfl
@[simp] theorem Progress.write_redirect (v : Byte) : (p.write acc v).redirect = (p.memWrite acc v).redirect := rfl
@[simp] theorem Progress.write_skip (v : Byte) : (p.write acc v).skip = (p.memWrite acc v).skip := rfl
@[simp] theorem Progress.writeBit_s (b : BitVec 3) (v : Byte) : (p.writeBit acc b v).s = (p.memWrite acc v).s := rfl
@[simp] theorem Progress.writeBit_redirect (b : BitVec 3) (v : Byte) :
    (p.writeBit acc b v).redirect = (p.memWrite acc v).redirect := rfl
@[simp] theorem Progress.writeBit_skip (b : BitVec 3) (v : Byte) : (p.writeBit acc b v).skip = (p.memWrite acc v).skip := rfl

@[simp] theorem Progress.memWrite_skip (v : Byte) : (p.memWrite acc v).skip = p.skip := by
  unfold Progress.memWrite
  split_ifs <;> rfl

/-- The state a `MemWrite` leaves, of the state before it. -/
def State.afterWrite (acc : Access) (v : Byte) (s : State) : State := ((Progress.start s).memWrite acc v).s

theorem Progress.memWrite_s (v : Byte) : (p.memWrite acc v).s = p.s.afterWrite acc v := by
  unfold State.afterWrite Progress.memWrite
  split_ifs <;> rfl

theorem Progress.memWrite_redirect (v : Byte) :
    (p.memWrite acc v).redirect
      = if acc.ea = pclAddr then some ((p.s.cell pclatuAddr).extractLsb 4 0 ++ p.s.cell pclathAddr ++ v) else p.redirect := by
  by_cases h : acc.ea = pclAddr
  · have h1 : isIndirect pclAddr = false := by decide
    have h2 : isGap pclAddr = false := by decide
    rw [Progress.memWrite, if_neg (by simp [h, h1]), if_neg (by simp [h, h2]), if_pos h, if_pos h]
    rfl
  · unfold Progress.memWrite
    split_ifs <;> rfl

theorem Progress.finish_eq (size : PAddr) : p.finish size = { p.s with pc := p.nextPc size } := rfl

/-! ## MemRead and MemWrite (R72, R73) -/

/-- All that a `MemWrite` can do: change one storage cell, redirect the PC, change the return stack, or nothing. -/
theorem Progress.memWrite_cases (v : Byte) :
    (isStorage acc.ea = true ∧ p.memWrite acc v = p.update (State.setCell acc.ea v)) ∨
    (acc.ea = pclAddr ∧ p.memWrite acc v = p.goTo ((p.s.cell pclatuAddr).extractLsb 4 0 ++ p.s.cell pclathAddr ++ v)) ∨
    (isStackView acc.ea = true ∧ acc.ea ≠ pclAddr ∧ isStorage acc.ea = false ∧
      p.memWrite acc v = p.update (State.stackViewWrite acc.ea v)) ∨
    (isStorage acc.ea = false ∧ acc.ea ≠ pclAddr ∧ isStackView acc.ea = false ∧ p.memWrite acc v = p) ∨
    (acc.ind = false ∧ isIndirect acc.ea = true) := by
  by_cases hi : isIndirect acc.ea = true
  · by_cases hd : acc.ind = true
    · refine .inr (.inr (.inr (.inl ⟨?_, ne_pcl_of_indirect hi, isStackView_false_of_indirect hi, ?_⟩)))
      · simp [isStorage, isView, hi]
      · simp [Progress.memWrite, hd, hi]
    · exact .inr (.inr (.inr (.inr ⟨by simpa using hd, hi⟩)))
  · have hi' : isIndirect acc.ea = false := by simpa using hi
    by_cases hg : isGap acc.ea = true
    · refine .inr (.inr (.inr (.inl ⟨by simp [isStorage, hg], ?_, ?_, by simp [Progress.memWrite, hg]⟩)))
      · intro e
        rw [e] at hg
        revert hg
        decide
      · have h1 : isGap acc.ea = true → acc.ea.toNat < Config.sfrBase := by simp [isGap]
        have h2 := h1 hg
        simp only [Config.sfrBase] at h2
        simp only [isStackView, decide_eq_false_iff_not]
        omega
    · have hg' : isGap acc.ea = false := by simpa using hg
      by_cases hp : acc.ea = pclAddr
      · refine .inr (.inl ⟨hp, ?_⟩)
        rw [Progress.memWrite, if_neg (by simp [hi']), if_neg hg, if_pos hp]
      · by_cases hv : isStackView acc.ea = true
        · exact .inr (.inr (.inl ⟨hv, hp, by simp [isStorage, isView, hv], by simp [Progress.memWrite, hi', hg', hp, hv]⟩))
        · have hv' : isStackView acc.ea = false := by simpa using hv
          exact .inl ⟨by simp [isStorage_iff, hg', hp, hv', hi'], by simp [Progress.memWrite, hi', hg', hp, hv']⟩

/-- A `MemWrite` through a descriptor that `Operand` gave. -/
def Access.sound (acc : Access) : Prop := acc.ind = false → isIndirect acc.ea = false

theorem operandWith_sound (ptr : Fsr → DAddr) (w : Byte) (addr : DAddr) : (operandWith ptr w addr).sound := by
  intro h
  obtain ⟨h1, h2, -⟩ := operandWith_direct h
  rw [h1]
  exact h2

theorem State.operand_sound (addr : DAddr) : (s.operand addr).sound := operandWith_sound _ _ _

/-- R72: the value a `MemRead` gives, by the kind of the effective address. -/
theorem State.readValue_storage {s : State} {acc : Access} (h : isStorage acc.ea = true) : s.readValue acc = s.cell acc.ea := by
  obtain ⟨h1, h2, h3, h4⟩ := (isStorage_iff _).1 h
  simp [State.readValue, h1, h2, h3, h4]

theorem State.readValue_gap {s : State} {acc : Access} (h : isGap acc.ea = true) : s.readValue acc = 0x00#8 := by
  simp [State.readValue, h]

/-- Only a read of PCL has an effect of its own (R77). -/
theorem State.afterRead_eq (h : acc.ea ≠ pclAddr) : s.afterRead acc = s := by simp [State.afterRead, h]

/-! ## Plans (R69, R329) -/

theorem State.ready_of_noValue {s : State} (h : s.noValue = []) (needs : List Need) : s.missing needs = none := by
  have h0 : ∀ a, s.unset a = 0x00#8 := fun a => by simp [State.unset, h, zeroByte]
  simp [State.missing, h0]

theorem planRegs_cases (needs : List Need) :
    (s.readyRegs needs ∧ planRegs s needs = .ok ()) ∨ (∃ c, s.missing needs = some c ∧ planRegs s needs = .error (.refused s.pc (.noValue c))) := by
  unfold planRegs
  cases h : s.missing needs with
  | none => exact .inl ⟨h, rfl⟩
  | some c => exact .inr ⟨c, rfl, rfl⟩

theorem planRead_of_ready {s : State} {addr : DAddr} {needs : List Need} (h : s.ready addr needs) :
    planRead s addr needs = .ok (s.operand addr) := by
  unfold planRead
  rw [h]

/-- All that the plan of a read can answer. -/
theorem planRead_cases (addr : DAddr) (needs : List Need) :
    (s.ready addr needs ∧ planRead s addr needs = .ok (s.operand addr)) ∨
    (∃ c, s.missing (operandNeeds addr ++ needs ++ readNeeds (s.operand addr)) = some c ∧
      planRead s addr needs = .error (.refused s.pc (.noValue c))) := by
  unfold planRead State.ready
  cases h : s.missing (operandNeeds addr ++ needs ++ readNeeds (s.operand addr)) with
  | none => exact .inl ⟨rfl, rfl⟩
  | some c => exact .inr ⟨c, rfl, rfl⟩

theorem planModify_of_ready {s : State} {addr : DAddr} {needs : List Need} (h : s.ready addr needs) (hc : ¬s.clashes addr) :
    planModify s addr needs = .ok (s.operand addr) := by
  simp only [State.clashes] at hc
  simp [planModify, planRead_of_ready h, hc]

/-- All that the plan of a read and a write can answer. -/
theorem planModify_cases (addr : DAddr) (needs : List Need) :
    (s.ready addr needs ∧ ¬s.clashes addr ∧ planModify s addr needs = .ok (s.operand addr)) ∨
    (s.ready addr needs ∧ s.clashes addr ∧ planModify s addr needs = .error (.refused s.pc .fsrCollision)) ∨
    (∃ c, s.missing (operandNeeds addr ++ needs ++ readNeeds (s.operand addr)) = some c ∧
      planModify s addr needs = .error (.refused s.pc (.noValue c))) := by
  rcases planRead_cases s addr needs with ⟨h, hp⟩ | ⟨c, h, hp⟩
  · by_cases hc : s.clashes addr
    · exact .inr (.inl ⟨h, hc, by simp only [planModify, hp]; rw [if_pos hc]⟩)
    · exact .inl ⟨h, hc, planModify_of_ready h hc⟩
  · exact .inr (.inr ⟨c, h, by simp only [planModify, hp]⟩)

theorem planWrite_of_ready {s : State} {addr : DAddr} {needs : List Need} (h : s.readyToWrite addr needs) (hc : ¬s.clashes addr) :
    planWrite s addr needs = .ok (s.operand addr) := by
  simp only [State.clashes] at hc
  unfold planWrite
  rw [h]
  simp [hc]

/-- All that the plan of a write can answer. -/
theorem planWrite_cases (addr : DAddr) (needs : List Need) :
    (s.readyToWrite addr needs ∧ ¬s.clashes addr ∧ planWrite s addr needs = .ok (s.operand addr)) ∨
    (s.readyToWrite addr needs ∧ s.clashes addr ∧ planWrite s addr needs = .error (.refused s.pc .fsrCollision)) ∨
    (∃ c, s.missing (operandNeeds addr ++ needs) = some c ∧ planWrite s addr needs = .error (.refused s.pc (.noValue c))) := by
  unfold planWrite State.readyToWrite
  cases h : s.missing (operandNeeds addr ++ needs) with
  | some c => exact .inr (.inr ⟨c, rfl, rfl⟩)
  | none =>
    by_cases hc : s.clashes addr
    · exact .inr (.inl ⟨rfl, hc, by simp only; rw [if_pos hc]⟩)
    · exact .inl ⟨rfl, hc, by simp only; rw [if_neg hc]⟩

theorem planDest_of_ready {s : State} {addr : DAddr} {d : Dest} {needs : List Need} (h : s.ready addr needs)
    (hc : d = .file → ¬s.clashes addr) : planDest s addr d needs = .ok (s.operand addr) := by
  cases d with
  | w => exact planRead_of_ready h
  | file => exact planModify_of_ready h (hc rfl)

theorem planDest_clash {s : State} {addr : DAddr} {needs : List Need} (h : s.ready addr needs) (hc : s.clashes addr) :
    planDest s addr .file needs = .error (.refused s.pc .fsrCollision) := by
  simp only [planDest, planModify, planRead_of_ready h]
  rw [if_pos hc]

theorem planSkip_clash {s : State} {addr : DAddr} (h : s.ready addr []) (hc : s.clashes addr) :
    planSkip s addr .file = .error (.refused s.pc .fsrCollision) := by
  simp only [planSkip, planDest_clash h hc]

theorem planWrite_clash {s : State} {addr : DAddr} {needs : List Need} (h : s.readyToWrite addr needs) (hc : s.clashes addr) :
    planWrite s addr needs = .error (.refused s.pc .fsrCollision) := by
  rcases planWrite_cases s addr needs with ⟨-, h1, -⟩ | ⟨-, -, h2⟩ | ⟨c, h1, -⟩
  · exact absurd hc h1
  · exact h2
  · rw [h] at h1
    cases h1

theorem planSkip_of_ready {s : State} {addr : DAddr} {d : Dest} (h : s.ready addr []) (hc : d = .file → ¬s.clashes addr)
    (hp : d = .file → (s.operand addr).ea ≠ pclAddr) : planSkip s addr d = .ok (s.operand addr) := by
  have h1 : ¬(d = .file ∧ (s.operand addr).ea = pclAddr) := fun ⟨x, y⟩ => hp x y
  simp [planSkip, planDest_of_ready h hc, h1]

/-- Every plan that answers a descriptor answers the one `Operand` gives; every refusal names the PC. -/
theorem planDest_ok {s : State} {addr : DAddr} {d : Dest} {needs : List Need} {acc : Access}
    (h : planDest s addr d needs = .ok acc) : acc = s.operand addr ∧ s.ready addr needs ∧ (d = .file → ¬s.clashes addr) := by
  cases d with
  | w =>
    rcases planRead_cases s addr needs with ⟨h1, h2⟩ | ⟨c, h1, h2⟩
    · rw [planDest, h2] at h
      exact ⟨(Except.ok.inj h).symm, h1, fun e => by cases e⟩
    · rw [planDest, h2] at h
      cases h
  | file =>
    rcases planModify_cases s addr needs with ⟨h1, h2, h3⟩ | ⟨h1, h2, h3⟩ | ⟨c, h1, h2⟩
    · rw [planDest, h3] at h
      exact ⟨(Except.ok.inj h).symm, h1, fun _ => h2⟩
    · rw [planDest, h3] at h
      cases h
    · rw [planDest, h2] at h
      cases h

/-! ## The end of a step (R120) -/

/-- Every instruction answers a next state: its effect, or the state it entered with Faulted. -/
theorem conclude_cases (size : PAddr) (r : Except CoreFault Progress) :
    (∃ q, r = .ok q ∧ conclude s size r = .next (q.finish size)) ∨
    (∃ why, r = .error why ∧ conclude s size r = .next (s.takeFault why)) := by
  cases r with
  | ok q => exact .inl ⟨q, rfl, rfl⟩
  | error why => exact .inr ⟨why, rfl, rfl⟩

theorem conclude_ok {size : PAddr} {r : Except CoreFault Progress} {q : Progress} (h : r = .ok q) :
    conclude s size r = .next (q.finish size) := by rw [h]; rfl

end Sys2Proof.Machine
end

