-- ==== Sys2Proof/Laws/ProgramCounter.lean ====
section
/-! SUPPORT. Laws/ProgramCounter.lean: the arithmetic of the program counter (R37, R122, R250), in natural numbers. -/

namespace Sys2Proof.Machine

variable (p : Params) (s : State)

theorem Params.progBytes_pos : 0 < p.progBytes := Nat.two_pow_pos _

theorem Params.progBytes_dvd : p.progBytes ∣ 2 ^ 21 := Nat.pow_dvd_pow 2 (by have := p.progLog.isLt; omega)

theorem Params.progBytes_le : p.progBytes ≤ 2 ^ 21 := Nat.le_of_dvd (by decide) (Params.progBytes_dvd p)

theorem Params.progBytes_even : 2 ∣ p.progBytes := ⟨2 ^ p.progLog.val, by rw [Params.progBytes, Nat.pow_succ, Nat.mul_comm]⟩

theorem toNat_modProg (v : PAddr) : (modProg p v).toNat = v.toNat % p.progBytes := by
  have h1 := Nat.mod_lt v.toNat (Params.progBytes_pos p)
  have h2 := Params.progBytes_le p
  rw [modProg, BitVec.toNat_ofNat]
  exact Nat.mod_eq_of_lt (by omega)

/-- A sum reduced mod 2^21 and then mod PROG_BYTES is the sum reduced mod PROG_BYTES. -/
theorem toNat_modProg_ofNat (n : Nat) : (modProg p (BitVec.ofNat 21 n)).toNat = n % p.progBytes := by
  rw [toNat_modProg, BitVec.toNat_ofNat, Nat.mod_mod_of_dvd _ (Params.progBytes_dvd p)]

theorem modProg_add (v w : PAddr) : modProg p (v + w) = BitVec.ofNat 21 ((v.toNat + w.toNat) % p.progBytes) := by
  rw [modProg, BitVec.toNat_add, Nat.mod_mod_of_dvd _ (Params.progBytes_dvd p)]

/-- R122: the sequential advance, and the skip. -/
theorem State.pcPlus_eq (size : PAddr) :
    s.pcPlus size = BitVec.ofNat 21 ((s.pc.toNat + size.toNat) % s.params.progBytes) := modProg_add _ _ _

theorem State.toNat_pcPlus (size : PAddr) : (s.pcPlus size).toNat = (s.pc.toNat + size.toNat) % s.params.progBytes := by
  rw [State.pcPlus_eq, BitVec.toNat_ofNat]
  have h1 := Nat.mod_lt (s.pc.toNat + size.toNat) (Params.progBytes_pos s.params)
  have h2 := Params.progBytes_le s.params
  exact Nat.mod_eq_of_lt (by omega)

theorem toNat_clearBit0 (v : PAddr) : (v &&& ~~~1#21).toNat = v.toNat / 2 * 2 := by
  have h : v &&& ~~~1#21 = (v >>> 1) <<< 1 := by
    apply BitVec.eq_of_getLsbD_eq
    intro i hi
    simp only [BitVec.getLsbD_and, BitVec.getLsbD_not, BitVec.getLsbD_shiftLeft, BitVec.getLsbD_ushiftRight, BitVec.getLsbD_one]
    by_cases h0 : i = 0
    · subst h0; simp
    · have : 1 + (i - 1) = i := by omega
      simp [hi, h0, this]
  rw [h, BitVec.toNat_shiftLeft, BitVec.toNat_ushiftRight, Nat.shiftLeft_eq, Nat.shiftRight_eq_div_pow]
  have := v.isLt
  omega

/-- R122: `pc <- target`. -/
theorem toNat_wrapPc (v : PAddr) : (wrapPc p v).toNat = (v.toNat / 2 * 2) % p.progBytes := by
  rw [wrapPc, toNat_modProg, toNat_clearBit0]

theorem wrapPc_eq (v : PAddr) : wrapPc p v = BitVec.ofNat 21 ((v.toNat / 2 * 2) % p.progBytes) := by
  rw [wrapPc, modProg, toNat_clearBit0]

theorem getLsbD_zero_iff (v : PAddr) : v.getLsbD 0 = false ↔ v.toNat % 2 = 0 := by
  rw [BitVec.getLsbD, Nat.testBit_zero]
  simp

theorem mod_progBytes_even {n : Nat} (h : n % 2 = 0) : n % p.progBytes % 2 = 0 := by
  rw [Nat.mod_mod_of_dvd _ (Params.progBytes_even p)]
  exact h

/-- R37: a redirected PC is even and below PROG_BYTES. -/
theorem wrapPc_ok (v : PAddr) : (wrapPc p v).getLsbD 0 = false ∧ (wrapPc p v).toNat < p.progBytes := by
  rw [getLsbD_zero_iff, toNat_wrapPc]
  exact ⟨mod_progBytes_even p (by omega), Nat.mod_lt _ (Params.progBytes_pos p)⟩

/-- R37: so is a PC advanced by an even size. -/
theorem State.pcPlus_ok {s : State} (h : s.pcOk) (size : PAddr) (hs : size.toNat % 2 = 0) :
    (s.pcPlus size).getLsbD 0 = false ∧ (s.pcPlus size).toNat < s.params.progBytes := by
  have h0 := (getLsbD_zero_iff _).1 h.1
  rw [getLsbD_zero_iff, State.toNat_pcPlus]
  exact ⟨mod_progBytes_even _ (by omega), Nat.mod_lt _ (Params.progBytes_pos _)⟩

/-- R37: what a PC that is even and in range makes of its own reduction. -/
theorem wrapPc_self {v : PAddr} (h0 : v.getLsbD 0 = false) (h1 : v.toNat < p.progBytes) : wrapPc p v = v := by
  apply BitVec.eq_of_toNat_eq
  have h := (getLsbD_zero_iff _).1 h0
  rw [toNat_wrapPc, show v.toNat / 2 * 2 = v.toNat by omega, Nat.mod_eq_of_lt h1]

theorem seqPc_eq_pcPlus (skip : Bool) : seqPc s 2 skip = s.pcPlus (2#21 + if skip then 2#21 else 0#21) := by
  cases skip <;> simp [seqPc, State.pcPlus_eq]

theorem seqPc_four_eq_pcPlus : seqPc s 4 false = s.pcPlus 4#21 := by simp [seqPc, State.pcPlus_eq]

theorem latchHigh_eq : latchHigh s = (s.pcPlus 2#21).extractLsb 15 8 := by simp [latchHigh, State.pcPlus_eq]

theorem latchUpper_eq : latchUpper s = 0#3 ++ (s.pcPlus 2#21).extractLsb 20 16 := by simp [latchUpper, State.pcPlus_eq]

theorem pclTarget_eq (u h v : Byte) : pclTarget s u h v = wrapPc s.params (u.extractLsb 4 0 ++ h ++ v) := by
  rw [pclTarget, wrapPc_eq]

/-! ## Relative targets (R250) -/

/-- R250: the target of a relative branch from an even PC, computed in integers. -/
theorem State.toNat_relTarget {s : State} (h : s.pc.getLsbD 0 = false) (n : PAddr) :
    ((wrapPc s.params (s.relTarget n)).toNat : Int)
      = ((s.pc.toNat : Int) + 2 + 2 * n.toInt) % (s.params.progBytes : Int) := by
  have h0 := (getLsbD_zero_iff _).1 h
  have hd : (s.params.progBytes : Int) ∣ 2 ^ 21 := by exact_mod_cast Params.progBytes_dvd s.params
  have ht : ((s.relTarget n).toNat : Int) = ((s.pc.toNat : Int) + 2 + 2 * n.toInt) % 2 ^ 21 := by
    have h1 : (s.relTarget n).toNat = (s.pc.toNat + 2 + 2 * n.toNat) % 2 ^ 21 := by
      simp [State.relTarget, BitVec.toNat_add, BitVec.toNat_mul]
    have h2 := n.isLt
    rw [h1, BitVec.toInt_eq_toNat_cond]
    split <;> omega
  have he : (s.relTarget n).toNat % 2 = 0 := by omega
  have hw : (wrapPc s.params (s.relTarget n)).toNat = (s.relTarget n).toNat % s.params.progBytes := by
    rw [toNat_wrapPc]
    congr 1
    omega
  rw [hw]
  push_cast
  rw [ht, Int.emod_emod_of_dvd _ hd]

/-- R250: the same, as the PC. -/
theorem wrapPc_relTarget {s : State} (h : s.pc.getLsbD 0 = false) (n : PAddr) :
    wrapPc s.params (s.relTarget n) = branchTarget s n.toInt := by
  apply BitVec.eq_of_toNat_eq
  have h1 := State.toNat_relTarget h n
  unfold branchTarget
  rw [← h1, BitVec.toNat_ofInt]
  have := (wrapPc s.params (s.relTarget n)).isLt
  omega

/-- R250: an absolute target. -/
theorem wrapPc_absTarget (k : BitVec 20) : wrapPc s.params (absTarget k) = jumpTarget s k := by
  have h : (absTarget k).toNat = 2 * k.toNat := by
    have h1 : (absTarget k).toNat = k.toNat <<< 1 ||| (0#1).toNat := BitVec.toNat_append k 0#1
    rw [h1, Nat.shiftLeft_eq]
    simp
    omega
  rw [wrapPc_eq, jumpTarget, h]
  congr 2
  omega

/-- R122: the target of a return. -/
theorem wrapPc_return (v : PAddr) : wrapPc s.params v = returnTarget s v := by rw [wrapPc_eq, returnTarget]

end Sys2Proof.Machine
end

