-- ==== Sys2Proof/Laws/Shapes.lean ====
section
/-! SUPPORT. Laws/Shapes.lean: what each shape of Machine/Shapes.lean does, said once, in the predicates of Safety.lean. -/

namespace Sys2Proof.Machine

variable {s t : State} {acc : Access} {r v : Byte}

theorem SameCells.refl (P : DAddr → Prop) (s : State) : SameCells P s s := fun _ _ => ⟨rfl, rfl⟩

theorem SameCells.trans {P : DAddr → Prop} {s t u : State} (h1 : SameCells P s t) (h2 : SameCells P t u) : SameCells P s u :=
  fun x hx => ⟨(h2 x hx).1.trans (h1 x hx).1, (h2 x hx).2.trans (h1 x hx).2⟩

theorem SameCells.mono {P Q : DAddr → Prop} (h : SameCells P s t) (hpq : ∀ x, P x → Q x) : SameCells Q s t :=
  fun x hx => h x (fun hp => hx (hpq x hp))

theorem sameCells_setBits (a : DAddr) (m v : Byte) : SameCells (fun x => x = a) s (s.setBits a m v) := fun x hx => by
  rw [State.cell_setBits, State.unset_setBits, if_neg hx, if_neg hx]
  exact ⟨rfl, rfl⟩

theorem sameCells_setCell (a : DAddr) (v : Byte) : SameCells (fun x => x = a) s (s.setCell a v) := sameCells_setBits a _ v

theorem sameCells_of_data {P : DAddr → Prop} (h1 : t.data = s.data) (h2 : t.noValue = s.noValue) : SameCells P s t :=
  fun x _ => ⟨State.cell_of_data x h1, State.unset_of_noValue x h2⟩

/-- R70: a `MemRead` changes the latches, where it reads PCL, and nothing else. -/
theorem sameCells_afterRead (acc : Access) :
    SameCells (fun x => acc.ea = pclAddr ∧ (x = pclathAddr ∨ x = pclatuAddr)) s (s.afterRead acc) := fun x hx => by
  by_cases h : acc.ea = pclAddr
  · have h1 : x ≠ pclathAddr := fun e => hx ⟨h, .inl e⟩
    have h2 : x ≠ pclatuAddr := fun e => hx ⟨h, .inr e⟩
    simp [State.afterRead, h, State.cell_loadLatches, State.unset_loadLatches, h1, h2]
  · simp [State.afterRead, h]

/-! ## The phases of an instruction with one operand -/

/-- R76: read, write, flags, FSR update and skip of an instruction with one operand; only its events are left out. -/
def operandPhases (s : State) (acc : Access) (reads : Bool) (dst : Option Dest) (r : Byte) (flags : Option (Byte × FlagVec))
    (skip : Bool) : Progress :=
  let p1 := (Progress.start s).update (fun s => if reads then s.afterRead acc else s)
  let p2 := match dst with
    | none => p1
    | some .w => p1.update (State.setCell wregAddr r)
    | some .file => p1.memWrite acc r
  let p3 := match flags with
    | none => p2
    | some (m, fl) => p2.affect m fl
  (p3.applyUpd acc.upd).skipIf skip

theorem Progress.finish_congr {p q : Progress} (h1 : p.s = q.s) (h2 : p.redirect = q.redirect) (h3 : p.skip = q.skip)
    (size : PAddr) : p.finish size = q.finish size := by
  simp [Progress.finish, Progress.nextPc, h1, h2, h3]

/-- The mask of a flag phase: empty where there is none. -/
def phaseMask (flags : Option (Byte × FlagVec)) : Byte := (flags.map fun x => x.1).getD maskNone

/-- The flags of a flag phase. -/
def phaseFlags (flags : Option (Byte × FlagVec)) : FlagVec := (flags.map fun x => x.2).getD FlagVec.none

theorem status_flagPhase (u : State) (flags : Option (Byte × FlagVec)) :
    (match flags with | none => u | some (m, fl) => u.affect m fl).status
      = (u.status &&& ~~~phaseMask flags) ||| ((phaseFlags flags).toByte &&& phaseMask flags) := by
  cases flags with
  | none =>
    have h1 : (~~~maskNone) = BitVec.allOnes 8 := by decide
    simp only [phaseMask, phaseFlags, Option.map_none, Option.getD_none, h1, BitVec.and_allOnes]
    simp [maskNone]
  | some x =>
    obtain ⟨m, fl⟩ := x
    simp [phaseMask, phaseFlags, State.status, State.cell_affect]

theorem sameCells_flagPhase (u : State) (flags : Option (Byte × FlagVec)) :
    SameCells (fun x => phaseMask flags ≠ maskNone ∧ x = statusAddr) u
      (match flags with | none => u | some (m, fl) => u.affect m fl) := by
  cases flags with
  | none => exact SameCells.refl _ _
  | some x =>
    obtain ⟨m, fl⟩ := x
    by_cases hm : m = maskNone
    · subst hm
      exact fun x _ => ⟨State.cell_affect_none _ _ _, State.unset_affect_none _ _ _⟩
    · exact (sameCells_setBits statusAddr m fl.toByte).mono fun x hx => ⟨by simpa [phaseMask] using hm, hx⟩

/-- What the write phase does. -/
structure WritePhase (s t : State) (acc : Access) (dst : Option Dest) (r : Byte) : Prop where
  wreg : dst = some .w → t.w = r
  stored : dst = some .file → isStorage acc.ea = true → t.cell acc.ea = r
  status : t.status = if dst = some .file ∧ acc.ea = statusAddr then r else s.status
  cells : SameCells (fun x => (dst = some .w ∧ x = wregAddr) ∨ (dst = some .file ∧ isStorage acc.ea = true ∧ x = acc.ea)) s t
  stack : if dst = some .file then StackAfterWrite acc r s t else SameStack s t
  shadow : SameShadow s t
  machine : SameMachine s t
  pc : t.pc = s.pc

theorem SameStack.refl (s : State) : SameStack s s := ⟨rfl, rfl, rfl, rfl⟩
theorem SameShadow.refl (s : State) : SameShadow s s := ⟨rfl, rfl, rfl⟩
theorem SameMachine.refl (s : State) : SameMachine s s := ⟨rfl, rfl, rfl, rfl⟩

theorem isStorage_status : isStorage statusAddr = true := by decide
theorem isStorage_pcl : isStorage pclAddr = false := by decide

theorem isStackView_false_of_storage {a : DAddr} (h : isStorage a = true) : isStackView a = false :=
  ((isStorage_iff a).1 h).2.2.1

theorem StackAfterWrite.of_not_view (h : isStackView acc.ea = false) (hs : SameStack s t) : StackAfterWrite acc r s t := by
  simpa [StackAfterWrite, h] using hs

/-- A write phase that changes nothing of the state. -/
theorem WritePhase.of_none (h : dst = none ∨ (dst = some Dest.file ∧ isStorage acc.ea = false ∧ isStackView acc.ea = false)) :
    WritePhase s s acc dst r := by
  have hns : ¬(dst = some .file ∧ acc.ea = statusAddr) := by
    rintro ⟨h1, h2⟩
    rcases h with h | ⟨-, h3, -⟩
    · rw [h] at h1; cases h1
    · rw [h2, isStorage_status] at h3; cases h3
  refine ⟨?_, ?_, by rw [if_neg hns], SameCells.refl _ _, ?_, SameShadow.refl _, SameMachine.refl _, rfl⟩
  · rintro rfl
    simp at h
  · intro h1 h2
    rcases h with h | ⟨-, h3, -⟩
    · rw [h] at h1; cases h1
    · rw [h2] at h3; cases h3
  · rcases h with rfl | ⟨rfl, -, h3⟩
    · exact SameStack.refl s
    · exact StackAfterWrite.of_not_view h3 (SameStack.refl s)

/-- All that the write phase of an instruction with one operand does. -/
theorem writePhase_spec (p : Progress) (hsound : acc.sound) (dst : Option Dest) :
    let q := match dst with
      | none => p
      | some .w => p.update (State.setCell wregAddr r)
      | some .file => p.memWrite acc r
    WritePhase p.s q.s acc dst r ∧ q.skip = p.skip ∧
      q.redirect = if dst = some .file ∧ acc.ea = pclAddr then
          some ((p.s.cell pclatuAddr).extractLsb 4 0 ++ p.s.cell pclathAddr ++ r) else p.redirect := by
  rcases dst with - | d | -
  · exact ⟨WritePhase.of_none (.inl rfl), rfl, by simp⟩
  · refine ⟨⟨fun _ => ?_, fun h => by simp at h, ?_, ?_, SameStack.refl _, SameShadow.refl _, SameMachine.refl _, rfl⟩, rfl, by simp⟩
    · simp [State.w, State.cell_setCell]
    · have h : statusAddr ≠ wregAddr := by decide
      simp [State.status, State.cell_setCell, h]
    · exact (sameCells_setCell wregAddr r).mono fun x hx => .inl ⟨rfl, hx⟩
  · refine ⟨?_, Progress.memWrite_skip _ _ _, ?_⟩
    · rcases Progress.memWrite_cases p acc r with ⟨h, he⟩ | ⟨h, he⟩ | ⟨h, h1, h2, he⟩ | ⟨h, h1, h2, he⟩ | ⟨h, h1⟩
      · simp only [he]
        refine ⟨fun h => by simp at h, fun _ _ => ?_, ?_, ?_, ?_, SameShadow.refl _, SameMachine.refl _, rfl⟩
        · simp [State.cell_setCell]
        · simp [State.status, State.cell_setCell, eq_comm]
        · exact (sameCells_setCell acc.ea r).mono fun x hx => .inr ⟨rfl, h, hx⟩
        · exact StackAfterWrite.of_not_view (isStackView_false_of_storage h) (SameStack.refl _)
      · simp only [he]
        exact WritePhase.of_none (.inr ⟨rfl, h ▸ isStorage_pcl, by rw [h]; decide⟩)
      · simp only [he]
        have hne : acc.ea ≠ statusAddr := by
          intro e
          rw [e, isStorage_status] at h2
          cases h2
        refine ⟨fun h => by simp at h, fun _ h3 => ?_, ?_, ?_, ?_, ?_, ?_, ?_⟩
        · rw [h2] at h3
          cases h3
        · simp [State.status, hne]
        · exact sameCells_of_data (by simp) (by simp)
        · simp [StackAfterWrite, h, SameStack]
        · simp [SameShadow]
        · simp [SameMachine]
        · simp
      · simp only [he]
        exact WritePhase.of_none (.inr ⟨rfl, h, h2⟩)
      · rw [hsound h] at h1
        cases h1
    · rcases Progress.memWrite_cases p acc r with ⟨h, he⟩ | ⟨h, he⟩ | ⟨h, h1, h2, he⟩ | ⟨h, h1, h2, he⟩ | ⟨h, h1⟩
      · have hne : acc.ea ≠ pclAddr := ((isStorage_iff _).1 h).2.1
        simp [he, hne]
      · simp only [he]
        simp [h]
      · simp [he, h1]
      · simp [he, h1]
      · rw [hsound h] at h1
        cases h1

theorem Fsr.low_ne_status (n : Fsr) : statusAddr ≠ n.low := by cases n <;> decide
theorem Fsr.high_ne_status (n : Fsr) : statusAddr ≠ n.high := by cases n <;> decide
theorem Fsr.low_ne_w (n : Fsr) : wregAddr ≠ n.low := by cases n <;> decide
theorem Fsr.high_ne_w (n : Fsr) : wregAddr ≠ n.high := by cases n <;> decide
theorem Fsr.low_ne_latch (n : Fsr) : pclathAddr ≠ n.low ∧ pclatuAddr ≠ n.low := by cases n <;> decide
theorem Fsr.high_ne_latch (n : Fsr) : pclathAddr ≠ n.high ∧ pclatuAddr ≠ n.high := by cases n <;> decide

/-- The cells of an FSR update. -/
def updCells (u : Option (Fsr × DAddr)) (x : DAddr) : Prop := ∃ n p, u = some (n, p) ∧ (x = n.low ∨ x = n.high)

theorem not_updCells {u : Option (Fsr × DAddr)} {x : DAddr} (h : ∀ n : Fsr, x ≠ n.low ∧ x ≠ n.high) : ¬updCells u x := by
  rintro ⟨n, p, -, h1 | h1⟩
  · exact (h n).1 h1
  · exact (h n).2 h1

theorem not_updCells_of_not_collides {u : Option (Fsr × DAddr)} {x : DAddr} (h : collides u x = false) : ¬updCells u x := by
  rintro ⟨n, p, rfl, h1 | h1⟩ <;> simp [collides, h1] at h

/-- R76, R67, R70, R25: all that the phases of an instruction with one operand do. -/
theorem operandPhases_spec (hsound : acc.sound) (reads : Bool) (dst : Option Dest) (flags : Option (Byte × FlagVec)) (skip : Bool)
    (hc : dst = some .file → collides acc.upd acc.ea = false) :
    OperandStep s ((operandPhases s acc reads dst r flags skip).finish 2#21) acc reads dst r (phaseMask flags) (phaseFlags flags)
      skip := by
  set p1 := (Progress.start s).update (fun s => if reads then s.afterRead acc else s) with hp1
  have hw := writePhase_spec (r := r) p1 hsound dst
  simp only at hw
  obtain ⟨hw, hskip, hredir⟩ := hw
  set p2 := (match dst with
    | none => p1
    | some .w => p1.update (State.setCell wregAddr r)
    | some .file => p1.memWrite acc r) with hp2
  -- the reading phase
  have hr : SameCells (accessTouches acc reads) s p1.s := by
    cases reads
    · exact SameCells.refl _ _
    · exact (sameCells_afterRead acc).mono fun x hx => .inr ⟨rfl, hx⟩
  have hr1 : p1.s.pc = s.pc ∧ p1.s.params = s.params ∧ SameStack s p1.s ∧ SameShadow s p1.s ∧ SameMachine s p1.s := by
    cases reads
    · exact ⟨rfl, rfl, SameStack.refl _, SameShadow.refl _, SameMachine.refl _⟩
    · simp [hp1, SameStack, SameShadow, SameMachine]
  have hrs : p1.s.status = s.status := by
    refine (hr statusAddr ?_).1
    rintro (⟨n, p, -, h | h⟩ | ⟨-, -, h | h⟩)
    · exact n.low_ne_status h
    · exact n.high_ne_status h
    · revert h; decide
    · revert h; decide
  have hrl : reads = true → acc.ea = pclAddr → p1.s.cell pclathAddr = latchHigh s ∧ p1.s.cell pclatuAddr = latchUpper s := by
    rintro rfl h
    have hne : pclathAddr ≠ pclatuAddr := by decide
    simp [hne, hp1, State.afterRead, h, State.cell_loadLatches, latchHigh_eq, latchUpper_eq]
  -- the flag phase
  set s3 := (match flags with
    | none => p2.s
    | some (m, fl) => p2.s.affect m fl) with hs3
  have hf := sameCells_flagPhase p2.s flags
  have hf1 : s3.pc = p2.s.pc ∧ SameStack p2.s s3 ∧ SameShadow p2.s s3 ∧ SameMachine p2.s s3 := by
    rcases flags with - | ⟨m, fl⟩
    · exact ⟨rfl, SameStack.refl _, SameShadow.refl _, SameMachine.refl _⟩
    · simp [hs3, SameStack, SameShadow, SameMachine]
  -- the FSR update
  obtain ⟨hu1, hu2⟩ := State.applyUpd_spec s3 acc.upd
  have hbody : (operandPhases s acc reads dst r flags skip).s = s3.applyUpd acc.upd := by
    rcases flags with - | ⟨m, fl⟩ <;> rfl
  have hrd : (operandPhases s acc reads dst r flags skip).redirect = p2.redirect := by
    rcases flags with - | ⟨m, fl⟩ <;> rfl
  have hsk : (operandPhases s acc reads dst r flags skip).skip = skip := by
    have : (operandPhases s acc reads dst r flags skip).skip = (p2.skip || skip) := by
      rcases flags with - | ⟨m, fl⟩ <;> rfl
    rw [this, hskip]
    simp [hp1]
  have hfin : ∀ x, ((operandPhases s acc reads dst r flags skip).finish 2#21).cell x = (s3.applyUpd acc.upd).cell x :=
    fun x => by rw [Progress.finish_eq, ← hbody]; rfl
  have hfinu : ∀ x, ((operandPhases s acc reads dst r flags skip).finish 2#21).unset x = (s3.applyUpd acc.upd).unset x :=
    fun x => by rw [Progress.finish_eq, ← hbody]; rfl
  have hstat : ¬updCells acc.upd statusAddr := not_updCells fun n => ⟨n.low_ne_status, n.high_ne_status⟩
  have hwr : ¬updCells acc.upd wregAddr := not_updCells fun n => ⟨n.low_ne_w, n.high_ne_w⟩
  have hlh : ¬updCells acc.upd pclathAddr := not_updCells fun n => ⟨n.low_ne_latch.1, n.high_ne_latch.1⟩
  have hlu : ¬updCells acc.upd pclatuAddr := not_updCells fun n => ⟨n.low_ne_latch.2, n.high_ne_latch.2⟩
  constructor
  · intro h
    rw [State.w, hfin, (hu2 _ hwr).1, (hf wregAddr (by rintro ⟨-, h⟩; revert h; decide)).1]
    exact hw.wreg h
  · intro h1 h2 h3
    rw [hfin, (hu2 _ (not_updCells_of_not_collides (hc h1))).1, (hf acc.ea (fun h => h3 h.2)).1]
    exact hw.stored h1 h2
  · rw [State.status, hfin, (hu2 _ hstat).1]
    have h := status_flagPhase p2.s flags
    rw [State.status, ← hs3] at h
    rw [h, hw.status, hrs]
  · intro n p h
    have := hu1 n p h
    rw [hfin, hfin]
    exact this
  · intro h1 h2
    have hne : ∀ x, x = pclathAddr ∨ x = pclatuAddr → (p2.s.cell x = p1.s.cell x) := by
      intro x hx
      refine (hw.cells x ?_).1
      rintro (⟨-, h⟩ | ⟨-, h, -⟩)
      · rcases hx with rfl | rfl <;> revert h <;> decide
      · rw [h2, isStorage_pcl] at h; cases h
    have hne2 : ∀ x, x = pclathAddr ∨ x = pclatuAddr → s3.cell x = p2.s.cell x := by
      intro x hx
      refine (hf x ?_).1
      rintro ⟨-, h⟩
      rcases hx with rfl | rfl <;> revert h <;> decide
    rw [hfin, hfin, (hu2 _ hlh).1, (hu2 _ hlu).1, hne2 _ (.inl rfl), hne2 _ (.inr rfl), hne _ (.inl rfl), hne _ (.inr rfl)]
    exact hrl h1 h2
  · intro x hx
    rw [hfin, hfinu]
    have h1 := hr x fun h => hx (.inl h)
    have h2 := hw.cells x fun h => hx (.inr (.inr h))
    have h3 := hf x fun h => hx (.inr (.inl h))
    have h4 := hu2 x fun h => hx (.inl (.inl h))
    exact ⟨h4.1.trans (h3.1.trans (h2.1.trans h1.1)), h4.2.trans (h3.2.trans (h2.2.trans h1.2))⟩
  · have hst : SameStack p2.s ((operandPhases s acc reads dst r flags skip).finish 2#21) := by
      rw [Progress.finish_eq, hbody]
      simpa [SameStack] using hf1.2.1
    have h1 := hw.stack
    have h2 := hr1.2.2.1
    by_cases hd : dst = some .file
    · rw [if_pos hd] at h1 ⊢
      by_cases hv : isStackView acc.ea = true
      · have hview : SameStack (p1.s.stackViewWrite acc.ea r) p2.s := by simpa [StackAfterWrite, hv] using h1
        have hb : SameStack (s.stackViewWrite acc.ea r) (p1.s.stackViewWrite acc.ea r) := by
          obtain ⟨e1, e2, e3, e4⟩ := h2
          unfold SameStack State.stackViewWrite State.setStkptr State.setTos State.tos
          rw [e1, e2]
          split_ifs <;> simp [e1, e2, e3, e4]
        simp only [StackAfterWrite, hv, if_true]
        exact ⟨hst.1.trans (hview.1.trans hb.1), hst.2.1.trans (hview.2.1.trans hb.2.1),
          hst.2.2.1.trans (hview.2.2.1.trans hb.2.2.1), hst.2.2.2.trans (hview.2.2.2.trans hb.2.2.2)⟩
      · have hview : SameStack p1.s p2.s := by simpa [StackAfterWrite, hv] using h1
        simp only [StackAfterWrite, hv]
        exact ⟨hst.1.trans (hview.1.trans h2.1), hst.2.1.trans (hview.2.1.trans h2.2.1),
          hst.2.2.1.trans (hview.2.2.1.trans h2.2.2.1), hst.2.2.2.trans (hview.2.2.2.trans h2.2.2.2)⟩
    · rw [if_neg hd] at h1 ⊢
      exact ⟨hst.1.trans (h1.1.trans h2.1), hst.2.1.trans (h1.2.1.trans h2.2.1),
        hst.2.2.1.trans (h1.2.2.1.trans h2.2.2.1), hst.2.2.2.trans (h1.2.2.2.trans h2.2.2.2)⟩
  · have h1 := hw.shadow
    have h2 := hr1.2.2.2.1
    have h3 := hf1.2.2.1
    rw [Progress.finish_eq, hbody]
    refine ⟨?_, ?_, ?_⟩ <;> simp only [State.applyUpd_ws, State.applyUpd_statuss, State.applyUpd_bsrs]
    · exact h3.1.trans (h1.1.trans h2.1)
    · exact h3.2.1.trans (h1.2.1.trans h2.2.1)
    · exact h3.2.2.trans (h1.2.2.trans h2.2.2)
  · have h1 := hw.machine
    have h2 := hr1.2.2.2.2
    have h3 := hf1.2.2.2
    rw [Progress.finish_eq, hbody]
    refine ⟨?_, ?_, ?_, ?_⟩ <;>
      simp only [State.applyUpd_prog, State.applyUpd_run, State.applyUpd_stackFaults, State.applyUpd_params]
    · exact h3.1.trans (h1.1.trans h2.1)
    · exact h3.2.1.trans (h1.2.1.trans h2.2.1)
    · exact h3.2.2.1.trans (h1.2.2.1.trans h2.2.2.1)
    · exact h3.2.2.2.trans (h1.2.2.2.trans h2.2.2.2)
  · have hpar : (operandPhases s acc reads dst r flags skip).s.params = s.params := by
      rw [hbody, State.applyUpd_params, hf1.2.2.2.2.2.2, hw.machine.2.2.2, hr1.2.1]
    have hpc : (operandPhases s acc reads dst r flags skip).s.pc = s.pc := by
      rw [hbody, State.applyUpd_pc, hf1.1, hw.pc, hr1.1]
    rw [Progress.finish_eq]
    show (operandPhases s acc reads dst r flags skip).nextPc 2#21 = _
    unfold Progress.nextPc
    rw [hrd, hredir, hsk, hpar]
    by_cases hd : dst = some .file ∧ acc.ea = pclAddr
    · rw [if_pos hd, if_pos hd]
      simp only
      have hl : p1.s.cell pclatuAddr = (if reads then latchUpper s else s.cell pclatuAddr) ∧
          p1.s.cell pclathAddr = (if reads then latchHigh s else s.cell pclathAddr) := by
        cases hreads : reads
        · subst hreads; exact ⟨rfl, rfl⟩
        · obtain ⟨h1, h2⟩ := hrl hreads hd.2
          exact ⟨by rw [h2]; rfl, by rw [h1]; rfl⟩
      rw [hl.1, hl.2, pclTarget_eq]
    · rw [if_neg hd, if_neg hd]
      simp only [hp1, Progress.update_redirect, Progress.start_redirect]
      rw [State.pcPlus, hpar, hpc, seqPc_eq_pcPlus, State.pcPlus]

/-! ## The shapes -/

/-- What an instruction of shape `runByteDA` does. -/
theorem runByteDA_spec {needs : List Need} {mask : Byte} {op : State → Byte → Byte × FlagVec} {f : Byte} {d : Dest} {a : Bank}
    (hr : s.ready (s.resolve f a) needs) (hc : d = .file → ¬s.clashes (s.resolve f a)) :
    ∃ t, conclude s 2#21 (runByteDA needs mask op f d a s) = .next t ∧
      OperandStep s t (s.operand (s.resolve f a)) true (some d) (op s (s.readValue (s.operand (s.resolve f a)))).1 mask
        (op s (s.readValue (s.operand (s.resolve f a)))).2 false := by
  have hcol : some d = some Dest.file → collides (s.operand (s.resolve f a)).upd (s.operand (s.resolve f a)).ea = false :=
    fun h => by simpa [State.clashes] using hc (Option.some.inj h)
  have h := operandPhases_spec (s := s) (r := (op s (s.readValue (s.operand (s.resolve f a)))).1) (s.operand_sound _) true (some d)
    (some (mask, (op s (s.readValue (s.operand (s.resolve f a)))).2)) false hcol
  refine ⟨_, ?_, h⟩
  simp only [runByteDA, planDest_of_ready hr hc, Except.map, conclude]
  congr 1
  apply Progress.finish_congr <;> cases d <;>
    simp [operandPhases, Progress.writeDest, Progress.memWrite_s, Progress.memWrite_redirect]

/-- What an instruction of shape `runIncDecSkip` does. -/
theorem runIncDecSkip_spec {op : Byte → Byte} {cond : Byte → Bool} {f : Byte} {d : Dest} {a : Bank}
    (hr : s.ready (s.resolve f a) []) (hc : d = .file → ¬s.clashes (s.resolve f a))
    (hp : d = .file → (s.operand (s.resolve f a)).ea ≠ pclAddr) :
    ∃ t, conclude s 2#21 (runIncDecSkip op cond f d a s) = .next t ∧
      OperandStep s t (s.operand (s.resolve f a)) true (some d) (op (s.readValue (s.operand (s.resolve f a)))) maskNone FlagVec.none
        (cond (op (s.readValue (s.operand (s.resolve f a))))) := by
  have hcol : some d = some Dest.file → collides (s.operand (s.resolve f a)).upd (s.operand (s.resolve f a)).ea = false :=
    fun h => by simpa [State.clashes] using hc (Option.some.inj h)
  have h := operandPhases_spec (s := s) (r := op (s.readValue (s.operand (s.resolve f a)))) (s.operand_sound _) true (some d)
    none (cond (op (s.readValue (s.operand (s.resolve f a))))) hcol
  refine ⟨_, ?_, h⟩
  simp only [runIncDecSkip, planSkip_of_ready hr hc hp, Except.map, conclude]
  congr 1
  apply Progress.finish_congr <;> cases d <;>
    simp [operandPhases, Progress.writeDest, Progress.memWrite_s, Progress.memWrite_redirect]

/-- What an instruction of shape `runCompareSkip` does. -/
theorem runCompareSkip_spec {needs : List Need} {cond : State → Byte → Bool} {f : Byte} {a : Bank}
    (hr : s.ready (s.resolve f a) needs) (r : Byte) :
    ∃ t, conclude s 2#21 (runCompareSkip needs cond f a s) = .next t ∧
      OperandStep s t (s.operand (s.resolve f a)) true none r maskNone FlagVec.none
        (cond s (s.readValue (s.operand (s.resolve f a)))) := by
  have h := operandPhases_spec (s := s) (r := r) (s.operand_sound (s.resolve f a)) true none none
    (cond s (s.readValue (s.operand (s.resolve f a)))) (fun h => by simp at h)
  refine ⟨_, ?_, h⟩
  simp only [runCompareSkip, planRead_of_ready hr, Except.map, conclude]
  congr 1

/-- What an instruction of shape `runBitModify` does. -/
theorem runBitModify_spec {op : Byte → Byte → Byte} {f : Byte} {b : BitVec 3} {a : Bank}
    (hr : s.ready (s.resolve f a) []) (hc : ¬s.clashes (s.resolve f a)) :
    ∃ t, conclude s 2#21 (runBitModify op f b a s) = .next t ∧
      OperandStep s t (s.operand (s.resolve f a)) true (some .file)
        (op (s.readValue (s.operand (s.resolve f a))) (1#8 <<< b.toNat)) maskNone FlagVec.none false := by
  have h := operandPhases_spec (s := s) (r := op (s.readValue (s.operand (s.resolve f a))) (1#8 <<< b.toNat))
    (s.operand_sound (s.resolve f a)) true (some .file) none false (fun _ => by simpa [State.clashes] using hc)
  refine ⟨_, ?_, h⟩
  simp only [runBitModify, planModify_of_ready hr hc, Except.map, conclude]
  congr 1
  apply Progress.finish_congr <;> simp [operandPhases, Progress.memWrite_s, Progress.memWrite_redirect]

/-- What an instruction of shape `runBitSkip` does. -/
theorem runBitSkip_spec {cond : Bool → Bool} {f : Byte} {b : BitVec 3} {a : Bank} (hr : s.ready (s.resolve f a) []) (r : Byte) :
    ∃ t, conclude s 2#21 (runBitSkip cond f b a s) = .next t ∧
      OperandStep s t (s.operand (s.resolve f a)) true none r maskNone FlagVec.none
        (cond ((s.readValue (s.operand (s.resolve f a))).getLsbD b.toNat)) := by
  have h := operandPhases_spec (s := s) (r := r) (s.operand_sound (s.resolve f a)) true none none
    (cond ((s.readValue (s.operand (s.resolve f a))).getLsbD b.toNat)) (fun h => by simp at h)
  refine ⟨_, ?_, h⟩
  simp only [runBitSkip, planRead_of_ready hr, Except.map, conclude]
  congr 1

/-- What an instruction of shape `runModify` does. -/
theorem runModify_spec {mask : Byte} {op : Byte → Byte × FlagVec} {f : Byte} {a : Bank}
    (hr : s.ready (s.resolve f a) []) (hc : ¬s.clashes (s.resolve f a)) :
    ∃ t, conclude s 2#21 (runModify mask op f a s) = .next t ∧
      OperandStep s t (s.operand (s.resolve f a)) true (some .file) (op (s.readValue (s.operand (s.resolve f a)))).1 mask
        (op (s.readValue (s.operand (s.resolve f a)))).2 false := by
  have h := operandPhases_spec (s := s) (r := (op (s.readValue (s.operand (s.resolve f a)))).1)
    (s.operand_sound (s.resolve f a)) true (some .file) (some (mask, (op (s.readValue (s.operand (s.resolve f a)))).2)) false
    (fun _ => by simpa [State.clashes] using hc)
  refine ⟨_, ?_, h⟩
  simp only [runModify, planModify_of_ready hr hc, Except.map, conclude]
  congr 1
  apply Progress.finish_congr <;> simp [operandPhases, Progress.memWrite_s, Progress.memWrite_redirect]

/-- What an instruction of shape `runWrite` does. -/
theorem runWrite_spec {needs : List Need} {value : State → Byte} {mask : Byte} {fl : FlagVec} {f : Byte} {a : Bank}
    (hr : s.readyToWrite (s.resolve f a) needs) (hc : ¬s.clashes (s.resolve f a)) :
    ∃ t, conclude s 2#21 (runWrite needs value mask fl f a s) = .next t ∧
      OperandStep s t (s.operand (s.resolve f a)) false (some .file) (value s) mask fl false := by
  have h := operandPhases_spec (s := s) (r := value s)
    (s.operand_sound (s.resolve f a)) false (some .file) (some (mask, fl)) false (fun _ => by simpa [State.clashes] using hc)
  refine ⟨_, ?_, h⟩
  simp only [runWrite, planWrite_of_ready hr hc, Except.map, conclude]
  congr 1
  apply Progress.finish_congr <;> simp [operandPhases, Progress.memWrite_s, Progress.memWrite_redirect]

/-- What an instruction of shape `runLiteral` does. -/
theorem runLiteral_spec {mask : Byte} {op : Byte → Byte → Byte × FlagVec} {k : Byte} (hr : s.readyRegs [needW]) :
    ∃ t, conclude s 2#21 (runLiteral mask op k s) = .next t ∧ LiteralStep s t (op s.w k).1 mask (op s.w k).2 := by
  have he : conclude s 2#21 (runLiteral mask op k s)
      = .next { (s.setCell wregAddr (op s.w k).1).affect mask (op s.w k).2 with pc := s.pcPlus 2#21 } := by
    simp only [State.readyRegs] at hr
    simp [runLiteral, planRegs, hr, Except.map, conclude, Progress.finish, Progress.nextPc, State.pcPlus]
  refine ⟨_, he, ?_, ?_, ⟨?_, ?_, ?_⟩, ?_, ?_⟩
  · show ((s.setCell wregAddr (op s.w k).1).affect mask (op s.w k).2).cell wregAddr = _
    have h : wregAddr ≠ statusAddr := by decide
    simp [State.cell_affect, State.cell_setCell, h]
  · show ((s.setCell wregAddr (op s.w k).1).affect mask (op s.w k).2).cell statusAddr = _
    have h : statusAddr ≠ wregAddr := by decide
    simp [State.cell_affect, State.cell_setCell, h, State.status]
  · intro x hx
    have h1 := sameCells_setCell (s := s) wregAddr (op s.w k).1 x fun e => hx (.inl e)
    have h2 := sameCells_flagPhase (s.setCell wregAddr (op s.w k).1) (some (mask, (op s.w k).2)) x fun h => hx (.inr h)
    exact ⟨h2.1.trans h1.1, h2.2.trans h1.2⟩
  · simp [SameShadow]
  · simp [SameMachine]
  · simp [SameStack]
  · simp [seqPc_eq_pcPlus]

/-- What an instruction of shape `runState` does. -/
theorem runState_spec (g : State → State) (size : PAddr) :
    conclude s size (runState g s) = .next { g s with pc := (g s).pcPlus size } := by
  simp [runState, conclude, Progress.finish, Progress.nextPc]

/-- What a conditional branch does. -/
theorem runBranch_spec {mask : Byte} {taken : State → Bool} {n : Byte} (hr : s.readyRegs [needFlags mask]) :
    conclude s 2#21 (runBranch mask taken n s)
      = .next { s with pc := if taken s then wrapPc s.params (s.relTarget (n.signExtend 21)) else s.pcPlus 2#21 } := by
  simp only [State.readyRegs] at hr
  cases h : taken s <;>
    simp [runBranch, planRegs, hr, Except.map, conclude, Progress.finish, Progress.nextPc, h]

end Sys2Proof.Machine
end

