-- ==== Sys2Proof/Laws/Invariant.lean ====
section
/-! SUPPORT. Laws/Invariant.lean: every operation over memory keeps the canonical form, and the reset states have it. -/

namespace Sys2Proof.Machine

variable {s t : State}

theorem State.memoryOk_congr (h : s.memoryOk) (h1 : t.data = s.data) (h2 : t.noValue = s.noValue) (h3 : t.prog = s.prog)
    (h4 : t.params = s.params) : t.memoryOk := by
  unfold State.memoryOk State.dataOk State.noValueOk State.progOk at h ⊢
  rw [h1, h2, h3, h4]
  exact h

theorem State.memoryOk_reset : State.reset.memoryOk := by
  unfold State.memoryOk State.dataOk State.noValueOk State.progOk
  decide

/-- No bit of a cell can hold no value unless its silicon POR value is unknown (R36). -/
theorem State.unset_in_marks (h : s.noValueOk) (a : DAddr) :
    s.unset a &&& ~~~Memory.get zeroByte porUnknownMarks a.toNat = 0x00#8 := by
  by_cases hm : ∃ c ∈ s.noValue, c.1 = a.toNat
  · obtain ⟨c, hc, he⟩ := hm
    rw [State.unset, ← he, Memory.get_of_mem h.1 hc]
    exact h.2.1 c hc
  · have : s.unset a = 0x00#8 := Memory.get_of_not_listed fun c hc he => hm ⟨c, hc, he⟩
    rw [this, BitVec.zero_and]

theorem State.memoryOk_setBits {a : DAddr} (ha : isStorage a = true) (m v : Byte) (h : s.memoryOk) :
    (s.setBits a m v).memoryOk := by
  refine ⟨⟨Memory.wf_set h.1.1, Memory.forall_set (m := s.data) h.1.2 ⟨a.isLt, by simpa using ha⟩⟩,
    ⟨Memory.wf_set h.2.1.1, Memory.forall_set (m := s.noValue) h.2.1.2.1 ?_, fun hp => ?_⟩, h.2.2⟩
  · have h1 := State.unset_in_marks h.2.1 a
    have h2 : ∀ x y z : Byte, (x &&& z) &&& y = (x &&& y) &&& z := fun x y z => by
      rw [BitVec.and_assoc, BitVec.and_assoc, BitVec.and_comm z y]
    simp only
    rw [h2, h1, BitVec.zero_and]
  · have h1 : s.noValue = [] := h.2.1.2.2 hp
    simp [State.setBits, h1, State.unset, zeroByte, Memory.set, Memory.erase]

theorem State.memoryOk_setCell {a : DAddr} (ha : isStorage a = true) (v : Byte) (h : s.memoryOk) : (s.setCell a v).memoryOk :=
  State.memoryOk_setBits ha _ v h

theorem State.memoryOk_affect (m : Byte) (fl : FlagVec) (h : s.memoryOk) : (s.affect m fl).memoryOk :=
  State.memoryOk_setBits (by decide) m _ h

theorem State.memoryOk_setPtr (n : Fsr) (p : DAddr) (h : s.memoryOk) : (s.setPtr n p).memoryOk :=
  State.memoryOk_setCell (isStorage_high n) _ (State.memoryOk_setCell (isStorage_low n) _ h)

theorem State.memoryOk_applyUpd (u : Option (Fsr × DAddr)) (h : s.memoryOk) : (s.applyUpd u).memoryOk := by
  rcases u with - | ⟨n, p⟩
  · exact h
  · exact State.memoryOk_setPtr n p h

theorem State.memoryOk_setTblptr (v : TAddr) (h : s.memoryOk) : (s.setTblptr v).memoryOk :=
  State.memoryOk_setCell (by decide) _ (State.memoryOk_setCell (by decide) _ (State.memoryOk_setCell (by decide) _ h))

theorem State.memoryOk_loadLatches (h : s.memoryOk) : s.loadLatches.memoryOk :=
  State.memoryOk_setCell (by decide) _ (State.memoryOk_setCell (by decide) _ h)

theorem State.memoryOk_afterRead (acc : Access) (h : s.memoryOk) : (s.afterRead acc).memoryOk := by
  unfold State.afterRead
  split
  · exact State.memoryOk_loadLatches h
  · exact h

theorem State.memoryOk_afterWrite {acc : Access} (hs : acc.sound) (v : Byte) (h : s.memoryOk) : (s.afterWrite acc v).memoryOk := by
  rcases Progress.memWrite_cases (Progress.start s) acc v with
    ⟨h1, he⟩ | ⟨h1, he⟩ | ⟨h1, h2, h3, he⟩ | ⟨h1, h2, h3, he⟩ | ⟨h1, h2⟩
  · rw [State.afterWrite, he]
    exact State.memoryOk_setCell h1 v h
  · rw [State.afterWrite, he]
    exact h
  · rw [State.afterWrite, he]
    exact State.memoryOk_congr h (by simp) (by simp) (by simp) (by simp)
  · rw [State.afterWrite, he]
    exact h
  · rw [hs h1] at h2
    cases h2

theorem State.memoryOk_restoreShadow (h : s.memoryOk) : s.restoreShadow.memoryOk :=
  State.memoryOk_setCell (by decide) _ (State.memoryOk_setCell (by decide) _ (State.memoryOk_setCell (by decide) _ h))

theorem State.memoryOk_leaveInterrupt (fast : Bool) (h : s.memoryOk) : (s.leaveInterrupt fast).memoryOk := by
  cases fast
  · exact State.memoryOk_setBits (by decide) _ _ h
  · exact State.memoryOk_setBits (by decide) _ _ (State.memoryOk_restoreShadow h)

theorem State.memoryOk_tableRead (t : TAddr) (h : s.memoryOk) : (s.tableRead t).memoryOk :=
  State.memoryOk_setCell (by decide) _ h

theorem State.memoryOk_setProd (p : Word16) (h : s.memoryOk) : (s.setProd p).memoryOk :=
  State.memoryOk_setCell (by decide) _ (State.memoryOk_setCell (by decide) _ h)

theorem State.memoryOk_push (v : PAddr) (h : s.memoryOk) : (s.push v).memoryOk :=
  State.memoryOk_congr h (by simp) (by simp) (by simp) (by simp)

theorem State.memoryOk_popped (h : s.memoryOk) : s.popped.memoryOk :=
  State.memoryOk_congr h (by simp) (by simp) (by simp) (by simp)

theorem State.memoryOk_softReset (h : s.memoryOk) : s.softReset.memoryOk := by
  refine State.memoryOk_setBits (by decide) _ _ (State.memoryOk_setBits (by decide) _ _ ?_)
  refine ⟨⟨Memory.wf_filter _ h.1.1, fun c hc => h.1.2 c (List.mem_of_mem_filter hc)⟩,
    ⟨Memory.wf_filter _ h.2.1.1, fun c hc => h.2.1.2.1 c (List.mem_of_mem_filter hc), fun hp => ?_⟩, h.2.2⟩
  have h1 : s.noValue = [] := h.2.1.2.2 hp
  simp [h1]

theorem State.memoryOk_powerOnReset (h : s.progOk) : s.powerOnReset.memoryOk := by
  refine ⟨⟨Memory.wf_nil, by simp [State.powerOnReset]⟩, ?_, h⟩
  by_cases hp : s.params.porSfrInit = .unknown
  · have h1 : s.powerOnReset.noValue = porUnknownMarks := by simp [State.powerOnReset, hp]
    have h2 : s.powerOnReset.params.porSfrInit ≠ .zero := by simp [State.powerOnReset, hp]
    refine ⟨?_, ?_, fun h => absurd h h2⟩
    · rw [h1]; decide
    · rw [h1]; decide
  · have h1 : s.powerOnReset.noValue = [] := by simp [State.powerOnReset, hp]
    rw [State.noValueOk, h1]
    exact ⟨Memory.wf_nil, by simp, fun _ => rfl⟩

theorem State.memoryOk_setProgByte {a : Nat} (ha : a < s.params.progBytes) (v : Byte) (h : s.memoryOk) :
    (s.setProgByte a v).memoryOk :=
  ⟨h.1, h.2.1, Memory.wf_set h.2.2.1, Memory.forall_set (m := s.prog) h.2.2.2 ha⟩

/-- R37, R120: a step that kept the memories and the PC ends in a state of the invariant. -/
theorem Progress.finish_inv {p : Progress} {size : PAddr} (h : p.s.memoryOk) (hp : p.s.pcOk) (hs : size.toNat % 2 = 0) :
    (p.finish size).Inv := by
  refine ⟨State.memoryOk_congr h rfl rfl rfl rfl, ?_⟩
  show (p.nextPc size).getLsbD 0 = false ∧ (p.nextPc size).toNat < p.s.params.progBytes
  unfold Progress.nextPc
  split
  · exact wrapPc_ok _ _
  · apply State.pcPlus_ok hp
    rw [BitVec.toNat_add]
    split <;> simp <;> omega

/-- R321, R329: a fault or a refusal keeps the invariant. -/
theorem State.inv_takeFault (why : CoreFault) (h : s.Inv) : (s.takeFault why).Inv := h

theorem conclude_inv {r : Except CoreFault Progress} {size : PAddr} (hs : size.toNat % 2 = 0) (h : s.Inv)
    (hr : ∀ p, r = .ok p → p.s.memoryOk ∧ p.s.pcOk) (ht : conclude s size r = .next t) : t.Inv := by
  cases r with
  | error why =>
    cases ht
    exact State.inv_takeFault why h
  | ok p =>
    cases ht
    exact Progress.finish_inv (hr p rfl).1 (hr p rfl).2 hs

end Sys2Proof.Machine
end

