-- ==== Sys2Proof/Laws/Dispatch.lean ====
section
/-! SUPPORT. Laws/Dispatch.lean: the dispatch said once: every instruction concludes its `run…`, so it answers a next state. -/

namespace Sys2Proof.Machine

theorem exec_eq (i : Instr) (s : State) : exec i s = conclude s (BitVec.ofNat 21 i.size) (runInstr i s) := by
  cases i
  case lfsr f k =>
    by_cases h : f = 3#2
    · subst h
      rfl
    · have h1 : (f != 3#2) = true := by simpa using h
      simp [exec, execLfsr, runInstr, Instr.size, Instr.twoWord, h]
  all_goals rfl

/-- R120, R321, R329: an instruction has its effect, or its plan stops it and only the run state changes. -/
theorem exec_cases (i : Instr) (s : State) :
    (∃ p, runInstr i s = .ok p ∧ exec i s = .next (p.finish (BitVec.ofNat 21 i.size))) ∨
    (∃ why, runInstr i s = .error why ∧ exec i s = .next (s.takeFault why)) := by
  rw [exec_eq]
  exact conclude_cases s _ _

/-- R120, R121. -/
theorem step_running {s : State} (h : s.run = .running) : step s = exec (fetch s) s := by simp [step, h]

theorem step_cases (s : State) :
    (s.run = .running ∧ step s = exec (fetch s) s) ∨ (s.run = .halted ∧ step s = .fault .coreHalted) ∨
    (∃ why, s.run = .faulted why ∧ step s = .fault (.coreFaulted why)) := by
  cases h : s.run with
  | running => exact .inl ⟨rfl, step_running h⟩
  | halted => exact .inr (.inl ⟨rfl, by simp [step, h]⟩)
  | faulted why => exact .inr (.inr ⟨why, rfl, by simp [step, h]⟩)

end Sys2Proof.Machine
end

