-- ==== Sys2Proof/Laws/Registers.lean ====
section
/-! SUPPORT. Laws/Registers.lean: the registers of several bytes, the shadow slot, the program memory and the resets, each operation
said once. -/

namespace Sys2Proof.Machine

variable (s : State)

/-! ## Pointers and products -/

/-- R29, R67, R215: a pointer that was written reads as it was written, its two bytes being the only cells that change. -/
theorem State.ptr_setPtr (n : Fsr) (p : DAddr) : (s.setPtr n p).ptr n = p := by
  simp only [State.ptr, State.cell_setPtr, if_true, Fsr.low_ne_high, if_false]
  rw [low_nibble]
  exact nibble_byte_fields p

theorem sameCells_setPtr (n : Fsr) (p : DAddr) : SameCells (fun x => x = n.low ∨ x = n.high) s (s.setPtr n p) := fun x hx => by
  simp only [not_or] at hx
  simp [State.cell_setPtr, State.unset_setPtr, hx.1, hx.2]

/-- R290: the table pointer reads as it was set, and TBLPTRU[7:6] is clear. -/
theorem State.tblptr_setTblptr (v : TAddr) : TblptrSet v (s.setTblptr v) := by
  have h1 : tblptruAddr ≠ tblptrhAddr := by decide
  have h2 : tblptruAddr ≠ tblptrlAddr := by decide
  have h3 : tblptrhAddr ≠ tblptrlAddr := by decide
  have hu := low_six (v.extractLsb 21 16)
  constructor
  · simp only [State.tblptr, State.cell_setTblptr, h1.symm, h2.symm, h3.symm, if_true, if_false]
    rw [hu.1]
    exact table_fields v
  · simp only [State.cell_setTblptr, if_true]
    exact hu.2

theorem sameCells_setTblptr (v : TAddr) : SameCells tablePointerCell s (s.setTblptr v) := fun x hx => by
  simp only [tablePointerCell, not_or] at hx
  simp [State.cell_setTblptr, State.unset_setTblptr, hx.1, hx.2.1, hx.2.2]

theorem toNat_product (x y : Byte) : (product x y).toNat = x.toNat * y.toNat := by
  have h1 := x.isLt
  have h2 := y.isLt
  have h3 : x.toNat * y.toNat ≤ 255 * 255 := Nat.mul_le_mul (by omega) (by omega)
  rw [product, BitVec.toNat_ofNat]
  exact Nat.mod_eq_of_lt (by omega)

/-- R240: PRODH and PRODL hold the product. -/
theorem State.prod_setProd (p : Word16) : ((s.setProd p).cell prodhAddr ++ (s.setProd p).cell prodlAddr : Word16) = p := by
  have h : prodhAddr ≠ prodlAddr := by decide
  simp only [State.setProd, State.cell_setCell, if_true, h, if_false]
  exact byte_byte_fields p

theorem sameCells_setProd (p : Word16) : SameCells (fun x => x = prodhAddr ∨ x = prodlAddr) s (s.setProd p) := fun x hx => by
  simp only [not_or] at hx
  simp [State.setProd, State.cell_setCell, State.unset_setCell, hx.1, hx.2]

/-! ## The shadow slot and RETFIE -/

/-- R42: W, STATUS and BSR come back, and no other cell changes. -/
theorem State.restoreShadow_spec :
    ShadowRestored s s.restoreShadow ∧ SameCells (fun x => x = wregAddr ∨ x = statusAddr ∨ x = bsrAddr) s s.restoreShadow := by
  have h1 : wregAddr ≠ bsrAddr := by decide
  have h2 : wregAddr ≠ statusAddr := by decide
  have h3 : statusAddr ≠ bsrAddr := by decide
  refine ⟨⟨?_, ?_, ?_⟩, fun x hx => ?_⟩
  · simp [State.w, State.cell_restoreShadow, h1, h2]
  · simp [State.status, State.cell_restoreShadow, h3]
  · simp [State.bsr, State.cell_restoreShadow]
  · simp only [not_or] at hx
    simp [State.cell_restoreShadow, State.unset_restoreShadow, hx.1, hx.2.1, hx.2.2]

/-- R264: GIE is set, over the restored registers where `fast`. -/
theorem State.cell_leaveInterrupt (fast : Bool) (x : DAddr) :
    (s.leaveInterrupt fast).cell x
      = if x = intconAddr then s.cell intconAddr ||| 0x80#8 else if fast then s.restoreShadow.cell x else s.cell x := by
  have hb : ∀ v : Byte, (v &&& ~~~0x80#8) ||| (0x80#8 &&& 0x80#8) = v ||| 0x80#8 := by decide
  have hi : s.restoreShadow.cell intconAddr = s.cell intconAddr := ((State.restoreShadow_spec s).2 intconAddr (by decide)).1
  cases fast
  · simp only [State.leaveInterrupt, State.cell_setBits, hb, Bool.false_eq_true, if_false]
  · simp only [State.leaveInterrupt, State.cell_setBits, hb, if_true, hi]

theorem State.unset_leaveInterrupt (fast : Bool) {x : DAddr} (h : x ≠ intconAddr) :
    (s.leaveInterrupt fast).unset x = if fast then s.restoreShadow.unset x else s.unset x := by
  cases fast <;> simp [State.leaveInterrupt, State.unset_setBits, h]

/-! ## Program memory -/

theorem State.progByte_setProgByte (a b : Nat) (v : Byte) :
    (s.setProgByte a v).progByte b = if b = a then v else s.progByte b := Memory.get_set

/-! ## Resets -/

/-- R370: every data cell at its POR value. -/
theorem State.cell_powerOnReset (a : DAddr) : s.powerOnReset.cell a = porByte a.toNat := rfl

/-- R36: the marks of a power-on reset, in one comparison of addresses. -/
theorem State.unset_powerOnReset (a : DAddr) :
    s.powerOnReset.unset a = if s.params.porSfrInit = .unknown then Memory.get zeroByte porUnknownMarks a.toNat else 0x00#8 := by
  by_cases h : s.params.porSfrInit = .unknown <;> simp [State.unset, State.powerOnReset, h, zeroByte]

/-- R371: the software reset, mark by mark: a bit that is written holds a value, a kept cell keeps its marks. -/
theorem State.unset_softReset (a : DAddr) :
    s.softReset.unset a
      = if a = rconAddr then s.unset rconAddr &&& 0x0F#8
        else if a = intconAddr then s.unset intconAddr &&& 0x01#8
        else if keptByReset a.toNat = true then s.unset a else 0x00#8 := by
  have hne : rconAddr ≠ intconAddr := by decide
  have hk : ∀ x : DAddr, ({ s with
        data := s.data.filter fun c => keptByReset c.1
        noValue := s.noValue.filter fun c => keptByReset c.1
        sp := 0#5
        run := .running } : State).unset x = if keptByReset x.toNat = true then s.unset x else 0x00#8 :=
    fun x => Memory.get_filter keptByReset
  have k1 : keptByReset rconAddr.toNat = true := by decide
  have k2 : keptByReset intconAddr.toNat = true := by decide
  have b1 : (~~~0xF0#8 : Byte) = 0x0F#8 := by decide
  have b2 : (~~~0xFE#8 : Byte) = 0x01#8 := by decide
  simp only [State.softReset, State.unset_setBits, hk, k1, k2, hne, if_true, if_false, b1, b2]

/-- R371: the software reset, cell by cell. -/
theorem State.cell_softReset (a : DAddr) :
    s.softReset.cell a
      = if a = rconAddr then s.cell rconAddr &&& 0x0F#8
        else if a = intconAddr then s.cell intconAddr &&& 0x01#8
        else if keptByReset a.toNat = true then s.cell a else porByte a.toNat := by
  have hb1 : ∀ v : Byte, (v &&& ~~~0xF0#8) ||| (0x00#8 &&& 0xF0#8) = v &&& 0x0F#8 := by decide
  have hb2 : ∀ v : Byte, (v &&& ~~~0xFE#8) ||| (0x00#8 &&& 0xFE#8) = v &&& 0x01#8 := by decide
  have hne : rconAddr ≠ intconAddr := by decide
  have hk : ∀ x : DAddr, ({ s with
        data := s.data.filter fun c => keptByReset c.1
        noValue := s.noValue.filter fun c => keptByReset c.1
        sp := 0#5
        run := .running } : State).cell x = if keptByReset x.toNat = true then s.cell x else porByte x.toNat :=
    fun x => Memory.get_filter keptByReset
  have k1 : keptByReset rconAddr.toNat = true := by decide
  have k2 : keptByReset intconAddr.toNat = true := by decide
  simp only [State.softReset, State.cell_setBits, hk, k1, k2, hne, if_true, if_false, hb1, hb2]

end Sys2Proof.Machine
end

