-- ==== Sys2Proof/Laws/HostPort.lean ====
section
/-! SUPPORT. Laws/HostPort.lean: what a load writes and where it fails, said once (R342), and the port cells (R343). -/

namespace Sys2Proof.Machine

/-- R342: the load address of a record in natural numbers. -/
theorem toNat_loadAddress (hi addr : BitVec 16) : (hi ++ addr).toNat = 65536 * hi.toNat + addr.toNat := by
  rw [BitVec.toNat_append, ← Nat.shiftLeft_add_eq_or_of_lt addr.isLt, Nat.shiftLeft_eq]
  omega

/-- R342: a payload whose addresses all lie below PROG_BYTES: what it writes, and that it writes nothing else. -/
theorem loadBytes_ok (bytes : List Byte) (base : Nat) (s : State) (h : ∀ n : Nat, n < bytes.length → base + n < s.params.progBytes) :
    ∃ t, loadBytes base bytes s = .ok t ∧ t = { s with prog := t.prog } ∧
      (∀ n b, bytes[n]? = some b → t.progByte (base + n) = b) ∧
      ∀ x : Nat, x < base ∨ base + bytes.length ≤ x → t.progByte x = s.progByte x := by
  induction bytes generalizing base s with
  | nil => exact ⟨s, rfl, rfl, by simp, by simp⟩
  | cons v rest ih =>
    have h0 : base < s.params.progBytes := by simpa using h 0 (by simp)
    obtain ⟨t, h1, h2, h3, h4⟩ := ih (base + 1) (s.setProgByte base v) fun n hn => by
      have := h (n + 1) (by simp; omega)
      show base + 1 + n < s.params.progBytes
      omega
    refine ⟨t, by simp [loadBytes, loadByte, h0, h1], by rw [h2]; rfl, fun n b hb => ?_, fun x hx => ?_⟩
    · cases n with
      | zero =>
        have hv : v = b := by simpa using hb
        rw [Nat.add_zero, h4 base (by omega), State.progByte_setProgByte, if_pos rfl, hv]
      | succ n =>
        rw [← h3 n b (by simpa using hb)]
        congr 1
        omega
    · simp only [List.length_cons] at hx
      rw [h4 x (by omega), State.progByte_setProgByte, if_neg (by omega)]

/-- R342: a payload that goes beyond PROG_BYTES: the load-time error names its first address out of range. -/
theorem loadBytes_beyond (bytes : List Byte) (base : Nat) (s : State) (hne : bytes ≠ []) (h : s.params.progBytes < base + bytes.length) :
    loadBytes base bytes s = .error (.beyondProgram (max base s.params.progBytes)) := by
  induction bytes generalizing base s with
  | nil => exact absurd rfl hne
  | cons v rest ih =>
    simp only [List.length_cons] at h
    by_cases h0 : base < s.params.progBytes
    · have hr : rest ≠ [] := by
        rintro rfl
        simp only [List.length_nil] at h
        omega
      have h1 := ih (base + 1) (s.setProgByte base v) hr (by show s.params.progBytes < _; omega)
      have h2 : (s.setProgByte base v).params = s.params := rfl
      simp only [loadBytes, loadByte, h0, if_true, h1, h2]
      congr 2
      omega
    · simp only [loadBytes, loadByte, h0, if_false]
      congr 2
      omega

/-- R343: a port cell is a storage cell, so the host's accesses of it are never rejected. -/
theorem Port.isStorage_addr (p : Port) : isStorage p.addr = true := by cases p <;> decide

end Sys2Proof.Machine
end

