-- ==== Sys2Proof/Laws/Stack.lean ====
section
/-! SUPPORT. Laws/Stack.lean: the return stack: push, pop, the top of the stack and its views (R38 to R41). -/

namespace Sys2Proof.Machine

variable (s : State) (v : PAddr)

theorem State.tos_of_empty {s : State} (h : s.sp = 0#5) : s.tos = 0#21 := by simp [State.tos, h]

theorem State.tos_of_ne {s : State} (h : s.sp ≠ 0#5) : s.tos = (s.stk[s.sp.toNat - 1]?).getD 0#21 := by simp [State.tos, h]

theorem State.sp_pos {s : State} (h : s.sp ≠ 0#5) : 1 ≤ s.sp.toNat := by
  rcases Nat.eq_zero_or_pos s.sp.toNat with h0 | h0
  · exact absurd (BitVec.eq_of_toNat_eq h0) h
  · exact h0

/-- R40, below the depth: one more entry, which is `v`; the entries below it stay. -/
theorem State.push_room {s : State} (h : s.sp.toNat < 31) :
    (s.push v).sp.toNat = s.sp.toNat + 1 ∧ (s.push v).tos = v ∧ (∀ m : Nat, m ≠ s.sp.toNat → (s.push v).stk[m]? = s.stk[m]?) ∧
      (s.push v).stkful = (s.stkful || decide (s.sp.toNat = 30)) ∧ (s.push v).stackFaults = s.stackFaults := by
  have h1 : (s.sp + 1#5).toNat = s.sp.toNat + 1 := by
    rw [BitVec.toNat_add]
    show (s.sp.toNat + 1) % 32 = _
    omega
  have he : s.push v =
      { s with
        sp := s.sp + 1#5
        stk := s.stk.setIfInBounds s.sp.toNat v
        stkful := s.stkful || decide (s.sp.toNat + 1 = Config.stackDepth) } := by
    simp [State.push, Config.stackDepth, h]
  have hne : s.sp + 1#5 ≠ 0#5 := fun e => by
    rw [e] at h1
    simp at h1
  have hd : decide (s.sp.toNat + 1 = Config.stackDepth) = decide (s.sp.toNat = 30) := by
    simp [Config.stackDepth]
  refine ⟨by rw [he]; exact h1, ?_, fun m hm => ?_, by rw [he, hd], by rw [he]⟩
  · rw [State.tos_of_ne (by rw [he]; exact hne), he]
    simp only [h1, Nat.add_sub_cancel, Vector.getElem?_setIfInBounds]
    simp [h]
  · rw [he]
    simp only [Vector.getElem?_setIfInBounds]
    rw [if_neg (Ne.symm hm)]

/-- R40, below the depth: nothing but the entry, SP and STKFUL changes. -/
theorem State.push_frame {s : State} (h : s.sp.toNat < 31) :
    s.push v = { s with sp := (s.push v).sp, stk := (s.push v).stk, stkful := (s.push v).stkful } := by
  simp [State.push, Config.stackDepth, h]

/-- R40, at the depth: the push is dropped and recorded. -/
theorem State.push_full {s : State} (h : s.sp.toNat = 31) :
    s.push v = { s with stkful := true, stackFaults := s.stackFaults ++ [{ kind := .overflow, pc0 := s.pc }] } := by
  simp [State.push, Config.stackDepth, h, State.recordStackFault]

/-- R41, on a stack that is not empty. -/
theorem State.popped_of_ne {s : State} (h : s.sp ≠ 0#5) : s.popped = { s with sp := s.sp - 1#5 } := by simp [State.popped, h]

/-- R41, on an empty stack: recorded. -/
theorem State.popped_of_empty {s : State} (h : s.sp = 0#5) :
    s.popped = { s with stkunf := true, stackFaults := s.stackFaults ++ [{ kind := .underflow, pc0 := s.pc }] } := by
  simp [State.popped, h, State.recordStackFault]

theorem State.sp_popped {s : State} (h : s.sp ≠ 0#5) : s.popped.sp.toNat = s.sp.toNat - 1 := by
  rw [State.popped_of_ne h]
  have h1 := State.sp_pos h
  have h2 := s.sp.isLt
  simp only [BitVec.toNat_sub]
  show (2 ^ 5 - 1 + s.sp.toNat) % 2 ^ 5 = _
  omega

/-- The pop does not see the data cells. -/
theorem State.popped_setBits (a : DAddr) (m x : Byte) : (s.setBits a m x).popped = s.popped.setBits a m x := by
  by_cases h : s.sp = 0#5
  · rw [State.popped_of_empty h, State.popped_of_empty (s := s.setBits a m x) h]
    rfl
  · rw [State.popped_of_ne h, State.popped_of_ne (s := s.setBits a m x) h]
    rfl

theorem State.popped_setCell (a : DAddr) (x : Byte) : (s.setCell a x).popped = s.popped.setCell a x := State.popped_setBits s a _ x

/-- The push does not see the shadow slot. -/
theorem State.push_saveShadow :
    s.saveShadow.push v = { s.push v with ws := s.w, statuss := s.status, bsrs := s.bsr } := by
  unfold State.push
  by_cases h : s.sp.toNat < Config.stackDepth
  · rw [if_pos h, if_pos (show s.saveShadow.sp.toNat < Config.stackDepth from h)]
    rfl
  · rw [if_neg h, if_neg (show ¬s.saveShadow.sp.toNat < Config.stackDepth from h)]
    rfl

/-! ## The views (R39) -/

/-- A write through a TOS view replaces the top entry and nothing else. -/
theorem State.setTos_spec {s : State} (h : s.sp ≠ 0#5) (t : PAddr) :
    (s.setTos t).tos = t ∧ ∀ m : Nat, m ≠ s.sp.toNat - 1 → (s.setTos t).stk[m]? = s.stk[m]? := by
  have hp := State.sp_pos h
  have hl := s.sp.isLt
  have he : s.setTos t = { s with stk := s.stk.setIfInBounds (s.sp.toNat - 1) t } := by simp [State.setTos, h]
  refine ⟨?_, fun m hm => ?_⟩
  · rw [State.tos_of_ne (by rw [he]; exact h), he]
    simp only [Vector.getElem?_setIfInBounds]
    rw [if_pos trivial, if_pos (by omega)]
    rfl
  · rw [he]
    simp only [Vector.getElem?_setIfInBounds]
    rw [if_neg (Ne.symm hm)]

/-- R39: a write through a TOS view changes the entries alone. -/
theorem State.setTos_frame (t : PAddr) : s.setTos t = { s with stk := (s.setTos t).stk } := by
  unfold State.setTos
  split <;> rfl

theorem State.setTos_of_empty {s : State} (h : s.sp = 0#5) (t : PAddr) : s.setTos t = s := by simp [State.setTos, h]

end Sys2Proof.Machine
end

