-- ==== Sys2Proof/Laws/Inversion.lean ====
section
/-! SUPPORT. Laws/Inversion.lean: from the outcome of a shape back to what it was: the phases it went through, or the refusal that
stopped it. -/

namespace Sys2Proof.Machine

variable {s : State} {p : Progress}

/-- Two steps in progress that differ in their events at most. -/
def SamePhases (p q : Progress) : Prop := p.s = q.s ∧ p.redirect = q.redirect ∧ p.skip = q.skip

/-- A step of one operand: its phases are those of `operandPhases` through a descriptor that `Operand` gave, and it does not both skip
and write PCL. -/
def OneOperand (s : State) (p : Progress) : Prop :=
  ∃ (acc : Access) (reads : Bool) (dst : Option Dest) (r : Byte) (flags : Option (Byte × FlagVec)) (skip : Bool),
    acc.sound ∧ SamePhases p (operandPhases s acc reads dst r flags skip) ∧ (skip = true → ¬(dst = some .file ∧ acc.ea = pclAddr))

/-- A step that a plan stopped by a refusal. -/
def Refused (s : State) (r : Except CoreFault Progress) : Prop := ∃ reason, r = .error (.refused s.pc reason)

theorem planRegs_inv {needs : List Need} {why : CoreFault} (h : planRegs s needs = .error why) : ∃ c, why = .refused s.pc (.noValue c) := by
  rcases planRegs_cases s needs with ⟨-, h1⟩ | ⟨c, -, h1⟩
  · rw [h1] at h; cases h
  · rw [h1] at h; cases h; exact ⟨c, rfl⟩

theorem planDest_cases (s : State) (addr : DAddr) (d : Dest) (needs : List Need) :
    (s.ready addr needs ∧ (d = .file → ¬s.clashes addr) ∧ planDest s addr d needs = .ok (s.operand addr)) ∨
    (∃ reason, planDest s addr d needs = .error (.refused s.pc reason)) := by
  cases d with
  | w =>
    rcases planRead_cases s addr needs with ⟨h1, h2⟩ | ⟨c, -, h2⟩
    · exact .inl ⟨h1, (fun e => nomatch e), h2⟩
    · exact .inr ⟨_, h2⟩
  | file =>
    rcases planModify_cases s addr needs with ⟨h1, h2, h3⟩ | ⟨-, -, h3⟩ | ⟨c, -, h3⟩
    · exact .inl ⟨h1, fun _ => h2, h3⟩
    · exact .inr ⟨_, h3⟩
    · exact .inr ⟨_, h3⟩

theorem planSkip_cases (s : State) (addr : DAddr) (d : Dest) :
    (s.ready addr [] ∧ (d = .file → ¬s.clashes addr ∧ (s.operand addr).ea ≠ pclAddr) ∧ planSkip s addr d = .ok (s.operand addr)) ∨
    (∃ reason, planSkip s addr d = .error (.refused s.pc reason)) := by
  rcases planDest_cases s addr d [] with ⟨h1, h2, h3⟩ | ⟨reason, h3⟩
  · by_cases hp : d = .file ∧ (s.operand addr).ea = pclAddr
    · exact .inr ⟨.skipWritesPcl, by simp only [planSkip, h3, if_pos hp]⟩
    · exact .inl ⟨h1, fun e => ⟨h2 e, fun e2 => hp ⟨e, e2⟩⟩, by simp only [planSkip, h3, if_neg hp]⟩
  · exact .inr ⟨reason, by simp only [planSkip, h3]⟩

theorem runByteDA_inv (needs : List Need) (mask : Byte) (op : State → Byte → Byte × FlagVec) (f : Byte) (d : Dest) (a : Bank) :
    (∃ p, runByteDA needs mask op f d a s = .ok p ∧ OneOperand s p) ∨ Refused s (runByteDA needs mask op f d a s) := by
  rcases planDest_cases s (s.resolve f a) d needs with ⟨h1, h2, h3⟩ | ⟨reason, h3⟩
  · refine .inl ⟨_, by simp only [runByteDA, h3, Except.map]; rfl, s.operand (s.resolve f a), true, some d,
      (op s (s.readValue (s.operand (s.resolve f a)))).1, some (mask, (op s (s.readValue (s.operand (s.resolve f a)))).2), false,
      s.operand_sound _, ?_, fun h => by cases h⟩
    cases d <;> simp [SamePhases, operandPhases, Progress.writeDest, Progress.memWrite_s, Progress.memWrite_redirect]
  · exact .inr ⟨reason, by simp only [runByteDA, h3, Except.map]⟩

theorem runIncDecSkip_inv (op : Byte → Byte) (cond : Byte → Bool) (f : Byte) (d : Dest) (a : Bank) :
    (∃ p, runIncDecSkip op cond f d a s = .ok p ∧ OneOperand s p) ∨ Refused s (runIncDecSkip op cond f d a s) := by
  rcases planSkip_cases s (s.resolve f a) d with ⟨h1, h2, h3⟩ | ⟨reason, h3⟩
  · refine .inl ⟨_, by simp only [runIncDecSkip, h3, Except.map]; rfl, s.operand (s.resolve f a), true, some d,
      op (s.readValue (s.operand (s.resolve f a))), none, cond (op (s.readValue (s.operand (s.resolve f a)))),
      s.operand_sound _, ?_, fun _ h => (h2 (Option.some.inj h.1)).2 h.2⟩
    cases d <;> simp [SamePhases, operandPhases, Progress.writeDest, Progress.memWrite_s, Progress.memWrite_redirect]
  · exact .inr ⟨reason, by simp only [runIncDecSkip, h3, Except.map]⟩

theorem runCompareSkip_inv (needs : List Need) (cond : State → Byte → Bool) (f : Byte) (a : Bank) :
    (∃ p, runCompareSkip needs cond f a s = .ok p ∧ OneOperand s p) ∨ Refused s (runCompareSkip needs cond f a s) := by
  rcases planRead_cases s (s.resolve f a) needs with ⟨h1, h3⟩ | ⟨c, -, h3⟩
  · refine .inl ⟨_, by simp only [runCompareSkip, h3, Except.map]; rfl, s.operand (s.resolve f a), true, none, 0#8, none,
      cond s (s.readValue (s.operand (s.resolve f a))), s.operand_sound _, ?_, fun _ h => by cases h.1⟩
    simp [SamePhases, operandPhases]
  · exact .inr ⟨_, by simp only [runCompareSkip, h3, Except.map]; rfl⟩

theorem runBitSkip_inv (cond : Bool → Bool) (f : Byte) (b : BitVec 3) (a : Bank) :
    (∃ p, runBitSkip cond f b a s = .ok p ∧ OneOperand s p) ∨ Refused s (runBitSkip cond f b a s) := by
  rcases planRead_cases s (s.resolve f a) [] with ⟨h1, h3⟩ | ⟨c, -, h3⟩
  · refine .inl ⟨_, by simp only [runBitSkip, h3, Except.map]; rfl, s.operand (s.resolve f a), true, none, 0#8, none,
      cond ((s.readValue (s.operand (s.resolve f a))).getLsbD b.toNat), s.operand_sound _, ?_, fun _ h => by cases h.1⟩
    simp [SamePhases, operandPhases]
  · exact .inr ⟨_, by simp only [runBitSkip, h3, Except.map]; rfl⟩

theorem runBitModify_inv (op : Byte → Byte → Byte) (f : Byte) (b : BitVec 3) (a : Bank) :
    (∃ p, runBitModify op f b a s = .ok p ∧ OneOperand s p) ∨ Refused s (runBitModify op f b a s) := by
  rcases planModify_cases s (s.resolve f a) [] with ⟨h1, h2, h3⟩ | ⟨-, -, h3⟩ | ⟨c, -, h3⟩
  · refine .inl ⟨_, by simp only [runBitModify, h3, Except.map]; rfl, s.operand (s.resolve f a), true, some .file,
      op (s.readValue (s.operand (s.resolve f a))) (1#8 <<< b.toNat), none, false, s.operand_sound _, ?_, fun h => by cases h⟩
    simp [SamePhases, operandPhases, Progress.memWrite_s, Progress.memWrite_redirect]
  · exact .inr ⟨_, by simp only [runBitModify, h3, Except.map]; rfl⟩
  · exact .inr ⟨_, by simp only [runBitModify, h3, Except.map]; rfl⟩

theorem runModify_inv (mask : Byte) (op : Byte → Byte × FlagVec) (f : Byte) (a : Bank) :
    (∃ p, runModify mask op f a s = .ok p ∧ OneOperand s p) ∨ Refused s (runModify mask op f a s) := by
  rcases planModify_cases s (s.resolve f a) [] with ⟨h1, h2, h3⟩ | ⟨-, -, h3⟩ | ⟨c, -, h3⟩
  · refine .inl ⟨_, by simp only [runModify, h3, Except.map]; rfl, s.operand (s.resolve f a), true, some .file,
      (op (s.readValue (s.operand (s.resolve f a)))).1, some (mask, (op (s.readValue (s.operand (s.resolve f a)))).2), false,
      s.operand_sound _, ?_, fun h => by cases h⟩
    simp [SamePhases, operandPhases, Progress.memWrite_s, Progress.memWrite_redirect]
  · exact .inr ⟨_, by simp only [runModify, h3, Except.map]; rfl⟩
  · exact .inr ⟨_, by simp only [runModify, h3, Except.map]; rfl⟩

theorem runWrite_inv (needs : List Need) (value : State → Byte) (mask : Byte) (fl : FlagVec) (f : Byte) (a : Bank) :
    (∃ p, runWrite needs value mask fl f a s = .ok p ∧ OneOperand s p) ∨ Refused s (runWrite needs value mask fl f a s) := by
  rcases planWrite_cases s (s.resolve f a) needs with ⟨h1, h2, h3⟩ | ⟨-, -, h3⟩ | ⟨c, -, h3⟩
  · refine .inl ⟨_, by simp only [runWrite, h3, Except.map]; rfl, s.operand (s.resolve f a), false, some .file, value s,
      some (mask, fl), false, s.operand_sound _, ?_, fun h => by cases h⟩
    simp [SamePhases, operandPhases, Progress.memWrite_s, Progress.memWrite_redirect]
  · exact .inr ⟨_, by simp only [runWrite, h3, Except.map]; rfl⟩
  · exact .inr ⟨_, by simp only [runWrite, h3, Except.map]; rfl⟩

/-! ## What a step of one operand keeps -/

/-- The read phase over states. -/
def readPhase (acc : Access) (reads : Bool) (s : State) : State := if reads then s.afterRead acc else s

/-- The write phase over states. -/
def writePhase (acc : Access) (dst : Option Dest) (r : Byte) (s : State) : State :=
  match dst with
  | none => s
  | some .w => s.setCell wregAddr r
  | some .file => s.afterWrite acc r

/-- The flag phase over states. -/
def flagPhase (flags : Option (Byte × FlagVec)) (s : State) : State :=
  match flags with
  | none => s
  | some x => s.affect x.1 x.2

/-- The state the phases leave before the PC advances. -/
theorem operandPhases_state (acc : Access) (reads : Bool) (dst : Option Dest) (r : Byte) (flags : Option (Byte × FlagVec)) (skip : Bool) :
    (operandPhases s acc reads dst r flags skip).s =
      (flagPhase flags (writePhase acc dst r (readPhase acc reads s))).applyUpd acc.upd := by
  rcases dst with - | d | - <;> rcases flags with - | x <;>
    simp only [operandPhases, flagPhase, writePhase, readPhase, Progress.memWrite_s, Progress.skipIf_s, Progress.applyUpd_s,
      Progress.affect_s, Progress.update_s, Progress.start_s]

/-- The state a step of one operand leaves before the PC advances. -/
theorem OneOperand.state (h : OneOperand s p) :
    ∃ (acc : Access) (reads : Bool) (dst : Option Dest) (r : Byte) (flags : Option (Byte × FlagVec)), acc.sound ∧
      p.s = (flagPhase flags (writePhase acc dst r (readPhase acc reads s))).applyUpd acc.upd := by
  obtain ⟨acc, reads, dst, r, flags, skip, hs, ⟨h1, -, -⟩, -⟩ := h
  exact ⟨acc, reads, dst, r, flags, hs, h1.trans (operandPhases_state acc reads dst r flags skip)⟩

@[simp] theorem State.afterWrite_pc (acc : Access) (v : Byte) : (s.afterWrite acc v).pc = s.pc := by
  unfold State.afterWrite Progress.memWrite
  split_ifs <;> simp

@[simp] theorem State.afterWrite_prog (acc : Access) (v : Byte) : (s.afterWrite acc v).prog = s.prog := by
  unfold State.afterWrite Progress.memWrite
  split_ifs <;> simp

@[simp] theorem State.afterWrite_params (acc : Access) (v : Byte) : (s.afterWrite acc v).params = s.params := by
  unfold State.afterWrite Progress.memWrite
  split_ifs <;> simp

@[simp] theorem State.afterWrite_run (acc : Access) (v : Byte) : (s.afterWrite acc v).run = s.run := by
  unfold State.afterWrite Progress.memWrite
  split_ifs <;> simp

@[simp] theorem State.afterWrite_stackFaults (acc : Access) (v : Byte) : (s.afterWrite acc v).stackFaults = s.stackFaults := by
  unfold State.afterWrite Progress.memWrite
  split_ifs <;> simp

/-- A step of one operand keeps the PC, program memory, the parameters, the run state and the stack-fault record until it ends. -/
theorem OneOperand.keeps (h : OneOperand s p) :
    p.s.pc = s.pc ∧ p.s.prog = s.prog ∧ p.s.params = s.params ∧ p.s.run = s.run ∧ p.s.stackFaults = s.stackFaults := by
  obtain ⟨acc, reads, dst, r, flags, -, h1⟩ := h.state
  rw [h1]
  rcases flags with - | x <;> rcases dst with - | d | - <;> cases reads <;> simp [flagPhase, writePhase, readPhase]

theorem OneOperand.memoryOk (h : OneOperand s p) (hm : s.memoryOk) : p.s.memoryOk := by
  obtain ⟨acc, reads, dst, r, flags, hs, h1⟩ := h.state
  rw [h1]
  apply State.memoryOk_applyUpd
  have h2 : (readPhase acc reads s).memoryOk := by
    cases reads
    · exact hm
    · exact State.memoryOk_afterRead acc hm
  have h3 : (writePhase acc dst r (readPhase acc reads s)).memoryOk := by
    rcases dst with - | d | -
    · exact h2
    · exact State.memoryOk_setCell (by decide) r h2
    · exact State.memoryOk_afterWrite hs r h2
  rcases flags with - | x
  · exact h3
  · exact State.memoryOk_affect x.1 x.2 h3

theorem OneOperand.control (h : OneOperand s p) : ¬(p.skip = true ∧ p.redirect.isSome = true) := by
  obtain ⟨acc, reads, dst, r, flags, skip, hs, ⟨-, h2, h3⟩, hk⟩ := h
  rintro ⟨h4, h5⟩
  have hskip : (operandPhases s acc reads dst r flags skip).skip = skip := by
    rcases flags with - | ⟨m, fl⟩ <;> rcases dst with - | d | - <;> simp [operandPhases]
  have hred : (operandPhases s acc reads dst r flags skip).redirect.isSome = true → dst = some .file ∧ acc.ea = pclAddr := by
    intro h
    rcases dst with - | d | -
    · rcases flags with - | ⟨m, fl⟩ <;> simp [operandPhases] at h
    · rcases flags with - | ⟨m, fl⟩ <;> simp [operandPhases] at h
    · refine ⟨rfl, ?_⟩
      by_contra hne
      rcases flags with - | ⟨m, fl⟩ <;> simp [operandPhases, Progress.memWrite_redirect, hne] at h
  rw [h3, hskip] at h4
  rw [h2] at h5
  exact hk h4 (hred h5)

/-! ## By instruction -/

/-- The instructions of one operand, but for MULWF. -/
def hasOneOperand : Instr → Bool
  | .addwf _ _ _ | .addwfc _ _ _ | .subwf _ _ _ | .subwfb _ _ _ | .subfwb _ _ _ | .negf _ _ | .incf _ _ _ | .decf _ _ _ => true
  | .andwf _ _ _ | .iorwf _ _ _ | .xorwf _ _ _ | .comf _ _ _ | .movf _ _ _ | .movwf _ _ | .clrf _ _ | .setf _ _ => true
  | .rlcf _ _ _ | .rlncf _ _ _ | .rrcf _ _ _ | .rrncf _ _ _ | .swapf _ _ _ => true
  | .incfsz _ _ _ | .infsnz _ _ _ | .decfsz _ _ _ | .dcfsnz _ _ _ => true
  | .cpfseq _ _ | .cpfsgt _ _ | .cpfslt _ _ | .tstfsz _ _ => true
  | .bcf _ _ _ | .bsf _ _ _ | .btg _ _ _ | .btfsc _ _ _ | .btfss _ _ _ => true
  | _ => false

theorem runInstr_oneOperand (i : Instr) (h : hasOneOperand i = true) :
    (∃ p, runInstr i s = .ok p ∧ OneOperand s p) ∨ Refused s (runInstr i s) := by
  cases i
  case addwf => simp only [runInstr, runAddwf]; exact runByteDA_inv _ _ _ _ _ _
  case addwfc => simp only [runInstr, runAddwfc]; exact runByteDA_inv _ _ _ _ _ _
  case subwf => simp only [runInstr, runSubwf]; exact runByteDA_inv _ _ _ _ _ _
  case subwfb => simp only [runInstr, runSubwfb]; exact runByteDA_inv _ _ _ _ _ _
  case subfwb => simp only [runInstr, runSubfwb]; exact runByteDA_inv _ _ _ _ _ _
  case incf => simp only [runInstr, runIncf]; exact runByteDA_inv _ _ _ _ _ _
  case decf => simp only [runInstr, runDecf]; exact runByteDA_inv _ _ _ _ _ _
  case andwf => simp only [runInstr, runAndwf]; exact runByteDA_inv _ _ _ _ _ _
  case iorwf => simp only [runInstr, runIorwf]; exact runByteDA_inv _ _ _ _ _ _
  case xorwf => simp only [runInstr, runXorwf]; exact runByteDA_inv _ _ _ _ _ _
  case comf => simp only [runInstr, runComf]; exact runByteDA_inv _ _ _ _ _ _
  case movf => simp only [runInstr, runMovf]; exact runByteDA_inv _ _ _ _ _ _
  case rlcf => simp only [runInstr, runRlcf]; exact runByteDA_inv _ _ _ _ _ _
  case rlncf => simp only [runInstr, runRlncf]; exact runByteDA_inv _ _ _ _ _ _
  case rrcf => simp only [runInstr, runRrcf]; exact runByteDA_inv _ _ _ _ _ _
  case rrncf => simp only [runInstr, runRrncf]; exact runByteDA_inv _ _ _ _ _ _
  case swapf => simp only [runInstr, runSwapf]; exact runByteDA_inv _ _ _ _ _ _
  case incfsz => simp only [runInstr, runIncfsz]; exact runIncDecSkip_inv _ _ _ _ _
  case infsnz => simp only [runInstr, runInfsnz]; exact runIncDecSkip_inv _ _ _ _ _
  case decfsz => simp only [runInstr, runDecfsz]; exact runIncDecSkip_inv _ _ _ _ _
  case dcfsnz => simp only [runInstr, runDcfsnz]; exact runIncDecSkip_inv _ _ _ _ _
  case cpfseq => simp only [runInstr, runCpfseq]; exact runCompareSkip_inv _ _ _ _
  case cpfsgt => simp only [runInstr, runCpfsgt]; exact runCompareSkip_inv _ _ _ _
  case cpfslt => simp only [runInstr, runCpfslt]; exact runCompareSkip_inv _ _ _ _
  case tstfsz => simp only [runInstr, runTstfsz]; exact runCompareSkip_inv _ _ _ _
  case bcf => simp only [runInstr, runBcf]; exact runBitModify_inv _ _ _ _
  case bsf => simp only [runInstr, runBsf]; exact runBitModify_inv _ _ _ _
  case btg => simp only [runInstr, runBtg]; exact runBitModify_inv _ _ _ _
  case btfsc => simp only [runInstr, runBtfsc]; exact runBitSkip_inv _ _ _ _
  case btfss => simp only [runInstr, runBtfss]; exact runBitSkip_inv _ _ _ _
  case negf => simp only [runInstr, runNegf]; exact runModify_inv _ _ _ _
  case movwf => simp only [runInstr, runMovwf]; exact runWrite_inv _ _ _ _ _ _
  case clrf => simp only [runInstr, runClrf]; exact runWrite_inv _ _ _ _ _ _
  case setf => simp only [runInstr, runSetf]; exact runWrite_inv _ _ _ _ _ _
  all_goals cases h

theorem planRegs_map_cases {α : Type} (needs : List Need) (g : Unit → α) :
    (s.readyRegs needs ∧ (planRegs s needs).map g = .ok (g ())) ∨
    (∃ c, (planRegs s needs).map g = .error (.refused s.pc (.noValue c))) := by
  rcases planRegs_cases s needs with ⟨h1, h2⟩ | ⟨c, -, h2⟩
  · exact .inl ⟨h1, by rw [h2]; rfl⟩
  · exact .inr ⟨c, by rw [h2]; rfl⟩

theorem runMulwf_inv (f : Byte) (a : Bank) :
    (∃ p, runMulwf f a s = .ok p ∧
      p.s = (((s.afterRead (s.operand (s.resolve f a))).setProd
        (product s.w (s.readValue (s.operand (s.resolve f a))))).applyUpd (s.operand (s.resolve f a)).upd) ∧
      p.redirect = none ∧ p.skip = false) ∨ Refused s (runMulwf f a s) := by
  rcases planRead_cases s (s.resolve f a) [needW] with ⟨h1, h3⟩ | ⟨c, -, h3⟩
  · exact .inl ⟨_, by simp only [runMulwf, h3, Except.map]; rfl, rfl, rfl, rfl⟩
  · exact .inr ⟨_, by simp only [runMulwf, h3, Except.map]; rfl⟩

/-- All that MOVFF's plan can answer. -/
theorem planMovff_cases (fs fd : DAddr) :
    ((restrictedThrough s fs (movffSource fs s).ea || restrictedThrough s fd (movffDest fs fd s).ea) = true ∧
      planMovff fs fd s = .error (movffFault fs fd s)) ∨
    (∃ c, s.missing (operandNeeds fs ++ operandNeeds fd ++ readNeeds (movffSource fs s)) = some c ∧
      planMovff fs fd s = .error (.refused s.pc (.noValue c))) ∨
    (s.missing (operandNeeds fs ++ operandNeeds fd ++ readNeeds (movffSource fs s)) = none ∧
      (collides (movffSource fs s).upd (movffDest fs fd s).ea || collides (movffDest fs fd s).upd (movffDest fs fd s).ea) = true ∧
      planMovff fs fd s = .error (.refused s.pc .fsrCollision)) ∨
    ((restrictedThrough s fs (movffSource fs s).ea || restrictedThrough s fd (movffDest fs fd s).ea) = false ∧
      s.missing (operandNeeds fs ++ operandNeeds fd ++ readNeeds (movffSource fs s)) = none ∧
      (collides (movffSource fs s).upd (movffDest fs fd s).ea || collides (movffDest fs fd s).upd (movffDest fs fd s).ea) = false ∧
      planMovff fs fd s = .ok (movffSource fs s, movffDest fs fd s)) := by
  unfold planMovff
  by_cases h1 : (restrictedThrough s fs (movffSource fs s).ea || restrictedThrough s fd (movffDest fs fd s).ea) = true
  · exact .inl ⟨h1, if_pos h1⟩
  rw [if_neg h1]
  cases h2 : s.missing (operandNeeds fs ++ operandNeeds fd ++ readNeeds (movffSource fs s)) with
  | some c => exact .inr (.inl ⟨c, rfl, rfl⟩)
  | none =>
    by_cases h3 : (collides (movffSource fs s).upd (movffDest fs fd s).ea || collides (movffDest fs fd s).upd (movffDest fs fd s).ea) = true
    · exact .inr (.inr (.inl ⟨rfl, h3, by simp only [if_pos h3]⟩))
    · exact .inr (.inr (.inr ⟨by simpa using h1, rfl, by simpa using h3, by simp only [if_neg h3]⟩))

theorem operandNeeds_missing {as bs cs : List Need} (h : s.missing (as ++ bs ++ cs) = none) : s.missing as = none ∧ s.missing bs = none := by
  simp only [State.missing, Option.map_eq_none_iff, List.find?_append, Option.or_eq_none_iff] at h ⊢
  exact h.1

/-- R211: a MOVFF that is not stopped reaches no restricted address. -/
theorem restrictedThrough_ea {addr ea : DAddr} (h : restrictedThrough s addr ea = false) (hm : s.missing (operandNeeds addr) = none) :
    restricted addr = false ∧ restricted ea = false := by
  simpa [restrictedThrough, hm] using h

theorem ne_pcl_of_not_restricted {a : DAddr} (h : restricted a = false) : a ≠ pclAddr := by
  rintro rfl
  revert h
  decide

/-- MOVFF runs, reading and writing no restricted address, or it is refused, or it is fatal. -/
theorem runMovff_inv (fs fd : DAddr) :
    (∃ p, runMovff fs fd s = .ok p ∧
      p.s = ((s.afterWrite (movffDest fs fd s) (s.readValue (s.operand fs))).applyUpd (s.operand fs).upd).applyUpd (movffDest fs fd s).upd ∧
      p.redirect = none ∧ p.skip = false) ∨
    Refused s (runMovff fs fd s) ∨ runMovff fs fd s = .error (movffFault fs fd s) := by
  rcases planMovff_cases (s := s) fs fd with ⟨-, h⟩ | ⟨c, -, h⟩ | ⟨-, -, h⟩ | ⟨h1, h2, -, h⟩
  · exact .inr (.inr (by simp only [runMovff, h, Except.map]))
  · exact .inr (.inl ⟨_, by simp only [runMovff, h, Except.map]; rfl⟩)
  · exact .inr (.inl ⟨_, by simp only [runMovff, h, Except.map]; rfl⟩)
  · simp only [Bool.or_eq_false_iff] at h1
    obtain ⟨m1, m2⟩ := operandNeeds_missing h2
    have hs := ne_pcl_of_not_restricted (restrictedThrough_ea h1.1 m1).2
    have hd := ne_pcl_of_not_restricted (restrictedThrough_ea h1.2 m2).2
    refine .inl ⟨_, by simp only [runMovff, h, Except.map]; rfl, ?_, ?_, ?_⟩
    · simp only [Progress.applyUpd_s, Progress.write_s, Progress.memWrite_s, Progress.read_s, Progress.start_s, State.afterRead_eq s _ hs]
      rfl
    · simp [Progress.memWrite_redirect, hd]
    · simp

end Sys2Proof.Machine
end

