-- ==== Sys2Proof/Laws/Needs.lean ====
section
/-! SUPPORT. Laws/Needs.lean: what each plan answers where a cell it reads holds no value (R329, third case). -/

namespace Sys2Proof.Machine

variable {s : State} {addr : DAddr} {needs : List Need} {c : DAddr}

theorem planRegs_missing (h : s.missing needs = some c) : planRegs s needs = .error (.refused s.pc (.noValue c)) := by
  simp [planRegs, h]

theorem planRead_missing (h : s.missing (operandNeeds addr ++ needs ++ readNeeds (s.operand addr)) = some c) :
    planRead s addr needs = .error (.refused s.pc (.noValue c)) := by
  simp only [planRead, h]

theorem planModify_missing (h : s.missing (operandNeeds addr ++ needs ++ readNeeds (s.operand addr)) = some c) :
    planModify s addr needs = .error (.refused s.pc (.noValue c)) := by
  simp only [planModify, planRead_missing h]

theorem planDest_missing (d : Dest) (h : s.missing (operandNeeds addr ++ needs ++ readNeeds (s.operand addr)) = some c) :
    planDest s addr d needs = .error (.refused s.pc (.noValue c)) := by
  cases d
  · exact planRead_missing h
  · exact planModify_missing h

theorem planSkip_missing (d : Dest) (h : s.missing (operandNeeds addr ++ [] ++ readNeeds (s.operand addr)) = some c) :
    planSkip s addr d = .error (.refused s.pc (.noValue c)) := by
  simp only [planSkip, planDest_missing d h]

theorem planWrite_missing (h : s.missing (operandNeeds addr ++ needs) = some c) :
    planWrite s addr needs = .error (.refused s.pc (.noValue c)) := by
  simp only [planWrite, h]

/-- A plan that is refused for want of a value lacks one of its reads. -/
theorem planDest_noValue {d : Dest} {pc0 : PAddr} (h : planDest s addr d needs = .error (.refused pc0 (.noValue c))) :
    s.missing (operandNeeds addr ++ needs ++ readNeeds (s.operand addr)) = some c := by
  cases d with
  | w =>
    rcases planRead_cases s addr needs with ⟨-, h2⟩ | ⟨c', h1, h2⟩
    · rw [planDest, h2] at h; cases h
    · rw [planDest, h2] at h; cases h; exact h1
  | file =>
    rcases planModify_cases s addr needs with ⟨-, -, h2⟩ | ⟨-, -, h2⟩ | ⟨c', h1, h2⟩
    · rw [planDest, h2] at h; cases h
    · rw [planDest, h2] at h; cases h
    · rw [planDest, h2] at h; cases h; exact h1

theorem planSkip_noValue {d : Dest} {pc0 : PAddr} (h : planSkip s addr d = .error (.refused pc0 (.noValue c))) :
    s.missing (operandNeeds addr ++ [] ++ readNeeds (s.operand addr)) = some c := by
  unfold planSkip at h
  split at h
  · next why h1 => cases h; exact planDest_noValue h1
  · split at h <;> cases h

theorem planWrite_noValue {pc0 : PAddr} (h : planWrite s addr needs = .error (.refused pc0 (.noValue c))) :
    s.missing (operandNeeds addr ++ needs) = some c := by
  rcases planWrite_cases s addr needs with ⟨-, -, h2⟩ | ⟨-, -, h2⟩ | ⟨c', h1, h2⟩
  · rw [h2] at h; cases h
  · rw [h2] at h; cases h
  · rw [h2] at h; cases h; exact h1

/-- An unrestricted MOVFF is stopped by no fatal fault. -/
theorem restrictedThrough_of_unrestricted {fs fd : DAddr} (h : movffUnrestricted fs fd s) :
    restrictedThrough s fs (movffSource fs s).ea = false ∧ restrictedThrough s fd (movffDest fs fd s).ea = false := by
  obtain ⟨h1, h2, h3, h4⟩ := h
  have hx : ∀ x : DAddr, x ∉ [pclAddr, toslAddr, toshAddr, tosuAddr] → restricted x = false := fun x hx => by
    simpa [restricted, and_assoc] using hx
  unfold restrictedThrough
  rw [hx _ h1, hx _ h2]
  constructor
  · cases hm : s.missing (operandNeeds fs) with
    | none => simp [hx _ (h3 hm), movffSource]
    | some _ => simp
  · cases hm : s.missing (operandNeeds fd) with
    | none => simp [hx _ (h4 hm)]
    | some _ => simp

theorem planMovff_missing {fs fd : DAddr} (hu : movffUnrestricted fs fd s)
    (h : s.missing (operandNeeds fs ++ operandNeeds fd ++ readNeeds (s.operand fs)) = some c) :
    planMovff fs fd s = .error (.refused s.pc (.noValue c)) := by
  obtain ⟨h1, h2⟩ := restrictedThrough_of_unrestricted hu
  simp only [movffSource] at h1
  simp only [planMovff, movffSource, h1, h2, h, Bool.or_self, Bool.false_eq_true, if_false]

theorem planMovff_of_ready {fs fd : DAddr} (hu : movffUnrestricted fs fd s)
    (h : s.missing (operandNeeds fs ++ operandNeeds fd ++ readNeeds (s.operand fs)) = none)
    (hs : collides (s.operand fs).upd (movffDest fs fd s).ea = false)
    (hd : collides (movffDest fs fd s).upd (movffDest fs fd s).ea = false) :
    planMovff fs fd s = .ok (s.operand fs, movffDest fs fd s) := by
  obtain ⟨h1, h2⟩ := restrictedThrough_of_unrestricted hu
  simp only [movffSource] at h1
  simp only [planMovff, movffSource, h1, h2, h, hs, hd, Bool.or_self, Bool.false_eq_true, if_false]

end Sys2Proof.Machine
end

