-- ==== Sys2Proof/Laws/PerInstr.lean ====
section
/-! SUPPORT. Laws/PerInstr.lean: a fact of each instruction as syntax, one lemma per constructor. -/

namespace Sys2Proof.Laws

/-- R103: the encoding of a well-formed instruction has as many bytes as the instruction. -/
def EncodeSize.Statement (i : Instr) : Prop := i.wellFormed = true → 2 * (encode i).length = i.size

theorem EncodeSize.addwf (f : Byte) (d : Dest) (a : Bank) : EncodeSize.Statement (.addwf f d a) := fun _ => rfl
theorem EncodeSize.addwfc (f : Byte) (d : Dest) (a : Bank) : EncodeSize.Statement (.addwfc f d a) := fun _ => rfl
theorem EncodeSize.addlw (k : Byte) : EncodeSize.Statement (.addlw k) := fun _ => rfl
theorem EncodeSize.subwf (f : Byte) (d : Dest) (a : Bank) : EncodeSize.Statement (.subwf f d a) := fun _ => rfl
theorem EncodeSize.subwfb (f : Byte) (d : Dest) (a : Bank) : EncodeSize.Statement (.subwfb f d a) := fun _ => rfl
theorem EncodeSize.subfwb (f : Byte) (d : Dest) (a : Bank) : EncodeSize.Statement (.subfwb f d a) := fun _ => rfl
theorem EncodeSize.sublw (k : Byte) : EncodeSize.Statement (.sublw k) := fun _ => rfl
theorem EncodeSize.negf (f : Byte) (a : Bank) : EncodeSize.Statement (.negf f a) := fun _ => rfl
theorem EncodeSize.incf (f : Byte) (d : Dest) (a : Bank) : EncodeSize.Statement (.incf f d a) := fun _ => rfl
theorem EncodeSize.decf (f : Byte) (d : Dest) (a : Bank) : EncodeSize.Statement (.decf f d a) := fun _ => rfl
theorem EncodeSize.daw : EncodeSize.Statement (.daw) := fun _ => rfl
theorem EncodeSize.andwf (f : Byte) (d : Dest) (a : Bank) : EncodeSize.Statement (.andwf f d a) := fun _ => rfl
theorem EncodeSize.iorwf (f : Byte) (d : Dest) (a : Bank) : EncodeSize.Statement (.iorwf f d a) := fun _ => rfl
theorem EncodeSize.xorwf (f : Byte) (d : Dest) (a : Bank) : EncodeSize.Statement (.xorwf f d a) := fun _ => rfl
theorem EncodeSize.comf (f : Byte) (d : Dest) (a : Bank) : EncodeSize.Statement (.comf f d a) := fun _ => rfl
theorem EncodeSize.andlw (k : Byte) : EncodeSize.Statement (.andlw k) := fun _ => rfl
theorem EncodeSize.iorlw (k : Byte) : EncodeSize.Statement (.iorlw k) := fun _ => rfl
theorem EncodeSize.xorlw (k : Byte) : EncodeSize.Statement (.xorlw k) := fun _ => rfl
theorem EncodeSize.incfsz (f : Byte) (d : Dest) (a : Bank) : EncodeSize.Statement (.incfsz f d a) := fun _ => rfl
theorem EncodeSize.infsnz (f : Byte) (d : Dest) (a : Bank) : EncodeSize.Statement (.infsnz f d a) := fun _ => rfl
theorem EncodeSize.decfsz (f : Byte) (d : Dest) (a : Bank) : EncodeSize.Statement (.decfsz f d a) := fun _ => rfl
theorem EncodeSize.dcfsnz (f : Byte) (d : Dest) (a : Bank) : EncodeSize.Statement (.dcfsnz f d a) := fun _ => rfl
theorem EncodeSize.cpfseq (f : Byte) (a : Bank) : EncodeSize.Statement (.cpfseq f a) := fun _ => rfl
theorem EncodeSize.cpfsgt (f : Byte) (a : Bank) : EncodeSize.Statement (.cpfsgt f a) := fun _ => rfl
theorem EncodeSize.cpfslt (f : Byte) (a : Bank) : EncodeSize.Statement (.cpfslt f a) := fun _ => rfl
theorem EncodeSize.tstfsz (f : Byte) (a : Bank) : EncodeSize.Statement (.tstfsz f a) := fun _ => rfl
theorem EncodeSize.bcf (f : Byte) (b : BitVec 3) (a : Bank) : EncodeSize.Statement (.bcf f b a) := fun _ => rfl
theorem EncodeSize.bsf (f : Byte) (b : BitVec 3) (a : Bank) : EncodeSize.Statement (.bsf f b a) := fun _ => rfl
theorem EncodeSize.btg (f : Byte) (b : BitVec 3) (a : Bank) : EncodeSize.Statement (.btg f b a) := fun _ => rfl
theorem EncodeSize.btfsc (f : Byte) (b : BitVec 3) (a : Bank) : EncodeSize.Statement (.btfsc f b a) := fun _ => rfl
theorem EncodeSize.btfss (f : Byte) (b : BitVec 3) (a : Bank) : EncodeSize.Statement (.btfss f b a) := fun _ => rfl
theorem EncodeSize.movf (f : Byte) (d : Dest) (a : Bank) : EncodeSize.Statement (.movf f d a) := fun _ => rfl
theorem EncodeSize.movff (fs fd : DAddr) : EncodeSize.Statement (.movff fs fd) := fun _ => rfl
theorem EncodeSize.movwf (f : Byte) (a : Bank) : EncodeSize.Statement (.movwf f a) := fun _ => rfl
theorem EncodeSize.movlw (k : Byte) : EncodeSize.Statement (.movlw k) := fun _ => rfl
theorem EncodeSize.movlb (k : BitVec 4) : EncodeSize.Statement (.movlb k) := fun _ => rfl
theorem EncodeSize.lfsr (f : BitVec 2) (k : BitVec 12) : EncodeSize.Statement (.lfsr f k) := fun h => by
  have hf : (f != 3#2) = true := h
  simp [encode, Instr.size, Instr.twoWord, hf]
theorem EncodeSize.clrf (f : Byte) (a : Bank) : EncodeSize.Statement (.clrf f a) := fun _ => rfl
theorem EncodeSize.setf (f : Byte) (a : Bank) : EncodeSize.Statement (.setf f a) := fun _ => rfl
theorem EncodeSize.rlcf (f : Byte) (d : Dest) (a : Bank) : EncodeSize.Statement (.rlcf f d a) := fun _ => rfl
theorem EncodeSize.rlncf (f : Byte) (d : Dest) (a : Bank) : EncodeSize.Statement (.rlncf f d a) := fun _ => rfl
theorem EncodeSize.rrcf (f : Byte) (d : Dest) (a : Bank) : EncodeSize.Statement (.rrcf f d a) := fun _ => rfl
theorem EncodeSize.rrncf (f : Byte) (d : Dest) (a : Bank) : EncodeSize.Statement (.rrncf f d a) := fun _ => rfl
theorem EncodeSize.swapf (f : Byte) (d : Dest) (a : Bank) : EncodeSize.Statement (.swapf f d a) := fun _ => rfl
theorem EncodeSize.mulwf (f : Byte) (a : Bank) : EncodeSize.Statement (.mulwf f a) := fun _ => rfl
theorem EncodeSize.mullw (k : Byte) : EncodeSize.Statement (.mullw k) := fun _ => rfl
theorem EncodeSize.bra (n : BitVec 11) : EncodeSize.Statement (.bra n) := fun _ => rfl
theorem EncodeSize.bz (n : Byte) : EncodeSize.Statement (.bz n) := fun _ => rfl
theorem EncodeSize.bnz (n : Byte) : EncodeSize.Statement (.bnz n) := fun _ => rfl
theorem EncodeSize.bc (n : Byte) : EncodeSize.Statement (.bc n) := fun _ => rfl
theorem EncodeSize.bnc (n : Byte) : EncodeSize.Statement (.bnc n) := fun _ => rfl
theorem EncodeSize.bov (n : Byte) : EncodeSize.Statement (.bov n) := fun _ => rfl
theorem EncodeSize.bnov (n : Byte) : EncodeSize.Statement (.bnov n) := fun _ => rfl
theorem EncodeSize.bn (n : Byte) : EncodeSize.Statement (.bn n) := fun _ => rfl
theorem EncodeSize.bnn (n : Byte) : EncodeSize.Statement (.bnn n) := fun _ => rfl
theorem EncodeSize.goto (k : BitVec 20) : EncodeSize.Statement (.goto k) := fun _ => rfl
theorem EncodeSize.call (k : BitVec 20) (s : Speed) : EncodeSize.Statement (.call k s) := fun _ => rfl
theorem EncodeSize.rcall (n : BitVec 11) : EncodeSize.Statement (.rcall n) := fun _ => rfl
theorem EncodeSize.retfie (s : Speed) : EncodeSize.Statement (.retfie s) := fun _ => rfl
theorem EncodeSize.ret (s : Speed) : EncodeSize.Statement (.ret s) := fun _ => rfl
theorem EncodeSize.retlw (k : Byte) : EncodeSize.Statement (.retlw k) := fun _ => rfl
theorem EncodeSize.push : EncodeSize.Statement (.push) := fun _ => rfl
theorem EncodeSize.pop : EncodeSize.Statement (.pop) := fun _ => rfl
theorem EncodeSize.tblrd : EncodeSize.Statement (.tblrd) := fun _ => rfl
theorem EncodeSize.tblrdPostInc : EncodeSize.Statement (.tblrdPostInc) := fun _ => rfl
theorem EncodeSize.tblrdPostDec : EncodeSize.Statement (.tblrdPostDec) := fun _ => rfl
theorem EncodeSize.tblrdPreInc : EncodeSize.Statement (.tblrdPreInc) := fun _ => rfl
theorem EncodeSize.tblwt : EncodeSize.Statement (.tblwt) := fun _ => rfl
theorem EncodeSize.tblwtPostInc : EncodeSize.Statement (.tblwtPostInc) := fun _ => rfl
theorem EncodeSize.tblwtPostDec : EncodeSize.Statement (.tblwtPostDec) := fun _ => rfl
theorem EncodeSize.tblwtPreInc : EncodeSize.Statement (.tblwtPreInc) := fun _ => rfl
theorem EncodeSize.nop : EncodeSize.Statement (.nop) := fun _ => rfl
theorem EncodeSize.sleep : EncodeSize.Statement (.sleep) := fun _ => rfl
theorem EncodeSize.clrwdt : EncodeSize.Statement (.clrwdt) := fun _ => rfl
theorem EncodeSize.reset : EncodeSize.Statement (.reset) := fun _ => rfl

end Sys2Proof.Laws
end

