-- ==== Sys2Proof/Laws/Trace.lean ====
section
/-! SUPPORT. Laws/Trace.lean: the trace events of each shape, said once (R345). -/

namespace Sys2Proof.Machine

variable {s : State} {needs : List Need} {mask : Byte} {f : Byte} {a : Bank}

@[simp] theorem eventsOf_error (why : CoreFault) : eventsOf (.error why) = [] := rfl

@[simp] theorem eventsOf_ok (p : Progress) : eventsOf (.ok p) = p.events := rfl

@[simp] theorem Progress.start_events (s : State) : (Progress.start s).events = [] := rfl

@[simp] theorem Progress.update_events (p : Progress) (g : State → State) : (p.update g).events = p.events := rfl

@[simp] theorem Progress.affect_events (p : Progress) (m : Byte) (fl : FlagVec) : (p.affect m fl).events = p.events := rfl

@[simp] theorem Progress.applyUpd_events (p : Progress) (u : Option (Fsr × DAddr)) : (p.applyUpd u).events = p.events := rfl

@[simp] theorem Progress.goTo_events (p : Progress) (t : PAddr) : (p.goTo t).events = p.events := rfl

@[simp] theorem Progress.skipIf_events (p : Progress) (c : Bool) : (p.skipIf c).events = p.events := rfl

@[simp] theorem Progress.read_events (p : Progress) (acc : Access) :
    (p.read acc).events = p.events ++ [.registerRead acc.ea (p.s.readValue acc)] := rfl

@[simp] theorem Progress.readBit_events (p : Progress) (acc : Access) (b : BitVec 3) :
    (p.readBit acc b).events = p.events ++ [.bitRead acc.ea b ((p.s.readValue acc).getLsbD b.toNat)] := rfl

/-- What a `MemWrite` does to the state, the redirect or nothing, it emits no event of its own. -/
@[simp] theorem Progress.memWrite_events (p : Progress) (acc : Access) (v : Byte) : (p.memWrite acc v).events = p.events := by
  unfold Progress.memWrite
  split_ifs <;> rfl

@[simp] theorem Progress.write_events (p : Progress) (acc : Access) (v : Byte) :
    (p.write acc v).events = p.events ++ [.registerWrite acc.ea v] := by
  simp [Progress.write, Progress.emit]

@[simp] theorem Progress.writeBit_events (p : Progress) (acc : Access) (b : BitVec 3) (v : Byte) :
    (p.writeBit acc b v).events = p.events ++ [.bitWrite acc.ea b (v.getLsbD b.toNat)] := by
  simp [Progress.writeBit, Progress.emit]

@[simp] theorem Progress.writeDest_events (p : Progress) (d : Dest) (acc : Access) (v : Byte) :
    (p.writeDest d acc v).events = p.events ++ [.registerWrite (if d = .w then wregAddr else acc.ea) v] := by
  cases d
  · rfl
  · simp [Progress.writeDest]

/-! ## The shapes -/

/-- The events of an instruction that reads its operand and steers a result by d. -/
def steeredEvents (acc : Access) (d : Dest) (v r : Byte) : List Event :=
  [.registerRead acc.ea v, .registerWrite (if d = .w then wregAddr else acc.ea) r]

theorem runByteDA_events {op : State → Byte → Byte × FlagVec} {d : Dest} (hr : s.ready (s.resolve f a) needs)
    (hc : d = .file → ¬s.clashes (s.resolve f a)) :
    eventsOf (runByteDA needs mask op f d a s)
      = steeredEvents (s.operand (s.resolve f a)) d (s.readValue (s.operand (s.resolve f a)))
          (op s (s.readValue (s.operand (s.resolve f a)))).1 := by
  simp [runByteDA, planDest_of_ready hr hc, Except.map, steeredEvents]

theorem runIncDecSkip_events {op : Byte → Byte} {cond : Byte → Bool} {d : Dest} (hr : s.ready (s.resolve f a) [])
    (hc : d = .file → ¬s.clashes (s.resolve f a)) (hp : d = .file → (s.operand (s.resolve f a)).ea ≠ pclAddr) :
    eventsOf (runIncDecSkip op cond f d a s)
      = steeredEvents (s.operand (s.resolve f a)) d (s.readValue (s.operand (s.resolve f a)))
          (op (s.readValue (s.operand (s.resolve f a)))) := by
  simp [runIncDecSkip, planSkip_of_ready hr hc hp, Except.map, steeredEvents]

theorem runCompareSkip_events {cond : State → Byte → Bool} (hr : s.ready (s.resolve f a) needs) :
    eventsOf (runCompareSkip needs cond f a s)
      = [.registerRead (s.operand (s.resolve f a)).ea (s.readValue (s.operand (s.resolve f a)))] := by
  simp [runCompareSkip, planRead_of_ready hr, Except.map]

theorem runBitSkip_events {cond : Bool → Bool} {b : BitVec 3} (hr : s.ready (s.resolve f a) []) :
    eventsOf (runBitSkip cond f b a s)
      = [.bitRead (s.operand (s.resolve f a)).ea b ((s.readValue (s.operand (s.resolve f a))).getLsbD b.toNat)] := by
  simp [runBitSkip, planRead_of_ready hr, Except.map]

theorem runBitModify_events {op : Byte → Byte → Byte} {b : BitVec 3} (hr : s.ready (s.resolve f a) [])
    (hc : ¬s.clashes (s.resolve f a)) :
    eventsOf (runBitModify op f b a s)
      = [.registerRead (s.operand (s.resolve f a)).ea (s.readValue (s.operand (s.resolve f a))),
          .bitWrite (s.operand (s.resolve f a)).ea b
            ((op (s.readValue (s.operand (s.resolve f a))) (1#8 <<< b.toNat)).getLsbD b.toNat)] := by
  simp [runBitModify, planModify_of_ready hr hc, Except.map]

theorem runModify_events {op : Byte → Byte × FlagVec} (hr : s.ready (s.resolve f a) []) (hc : ¬s.clashes (s.resolve f a)) :
    eventsOf (runModify mask op f a s)
      = [.registerRead (s.operand (s.resolve f a)).ea (s.readValue (s.operand (s.resolve f a))),
          .registerWrite (s.operand (s.resolve f a)).ea (op (s.readValue (s.operand (s.resolve f a)))).1] := by
  simp [runModify, planModify_of_ready hr hc, Except.map]

theorem runWrite_events {value : State → Byte} {fl : FlagVec} (hr : s.readyToWrite (s.resolve f a) needs)
    (hc : ¬s.clashes (s.resolve f a)) :
    eventsOf (runWrite needs value mask fl f a s) = [.registerWrite (s.operand (s.resolve f a)).ea (value s)] := by
  simp [runWrite, planWrite_of_ready hr hc, Except.map]

theorem runMulwf_events (hr : s.ready (s.resolve f a) [needW]) :
    eventsOf (runMulwf f a s) = [.registerRead (s.operand (s.resolve f a)).ea (s.readValue (s.operand (s.resolve f a)))] := by
  simp [runMulwf, planRead_of_ready hr, Except.map]

theorem runMovff_events {fs fd : DAddr} {p : Access × Access} (h : planMovff fs fd s = .ok p) :
    eventsOf (runMovff fs fd s) = [.registerRead p.1.ea (s.readValue p.1), .registerWrite p.2.ea (s.readValue p.1)] := by
  simp [runMovff, h, Except.map]

/-- A step over registers alone emits nothing, whether its plan refuses it or not. -/
theorem planRegs_map_events {g : Unit → Progress} (h : (g ()).events = []) : eventsOf ((planRegs s needs).map g) = [] := by
  rcases planRegs_cases s needs with ⟨-, h1⟩ | ⟨c, -, h1⟩
  · simpa [h1, Except.map] using h
  · simp [h1, Except.map]

theorem runLiteral_events {op : Byte → Byte → Byte × FlagVec} {k : Byte} : eventsOf (runLiteral mask op k s) = [] :=
  planRegs_map_events rfl

theorem runBranch_events {taken : State → Bool} {n : Byte} : eventsOf (runBranch mask taken n s) = [] :=
  planRegs_map_events (by split <;> rfl)

theorem runState_events (g : State → State) : eventsOf (runState g s) = [] := rfl

/-! ## The fetch -/

/-- The second word does not change how many words an instruction has. -/
theorem twoWord_fold {op : Instr} {w2 : Word16} (h : op.twoWord = true) : (fold op w2).twoWord = true := by
  cases op <;> exact h

theorem twoWord_fetch (s : State) : (fetch s).twoWord = (decode (s.progWord s.pc)).twoWord := by
  unfold fetch decodeWords
  split
  · next h => rw [twoWord_fold h, h]
  · rfl

theorem stepEvents_running (h : s.run = .running) : stepEvents s = fetchEvents s ++ dataEvents (fetch s) s := by simp [stepEvents, h]

theorem stepEvents_stopped (h : s.run ≠ .running) : stepEvents s = [] := by
  unfold stepEvents
  split
  · next h1 => exact absurd h1 h
  · rfl

end Sys2Proof.Machine
end

