-- ==== Sys2Proof/Tests/Slice0.lean ====
section
/-! SUPPORT. Tests/Slice0.lean: the smoke test of the well-formedness check; words of every constructor written out from the encodings of the
spec's rules, decoded; one step of every instruction from the vectors of spec/95_test_vectors.md; and the witnesses of the statements'
hypotheses. -/

namespace Sys2Proof.Tests

open Sys2Proof.Machine

/-! ## Well-formedness -/

/-- The one check: LFSR's field value 3 is refused (R110), its other values and every other operand are not. -/
theorem test_wellFormed_refuses_lfsr3 :
    Instr.wellFormed (.lfsr 3#2 0x123#12) = false ∧ Instr.wellFormed (.lfsr 2#2 0x123#12) = true ∧
      Instr.wellFormed (.movff 0xFFF#12 0xFFF#12) = true := by decide

/-- LFSR's word with f = 3 decodes to NOP, so no word decodes to the ill-formed term (R110). -/
theorem test_decode_lfsr3 : decodeTableWord 32 0b11110000000100101110111000110000 = some .nop := by decide

/-- A list of bytes that is too short is refused by name. -/
theorem test_decode_short :
    decodeBytes [0x00#8] = .error .noFirstWord ∧ decodeBytes [0x80#8, 0xEF#8, 0x00#8] = .error .noSecondWord := by decide

/-- Words outside the table decode to NOP (R107). -/
theorem test_decode_unrecognized :
    decodeTableWord 16 0x0014 = some .nop ∧ decodeTableWord 16 0x0110 = some .nop ∧ decodeTableWord 16 0xEBFF = some .nop := by decide

/-! ## Decoding, from the encodings of the rules -/

/-- 40_arithmetic.md: the words of its encodings, bit by bit, the second word first. -/
theorem test_decode_arithmetic_1 :
    decodeTableWord 16 0b0010010100111100 = some (.addwf 0x3C#8 .w .banked) ∧
    decodeTableWord 16 0b0010001010000001 = some (.addwfc 0x81#8 .file .access) ∧
    decodeTableWord 16 0b0000111101111110 = some (.addlw 0x7E#8) ∧
    decodeTableWord 16 0b0101110001011010 = some (.subwf 0x5A#8 .w .access) ∧
    decodeTableWord 16 0b0101100111000011 = some (.subwfb 0xC3#8 .w .banked) ∧
    decodeTableWord 16 0b0101011010100101 = some (.subfwb 0xA5#8 .file .access) := by
  decide

/-- 40_arithmetic.md: the words of its encodings, bit by bit, the second word first. -/
theorem test_decode_arithmetic_2 :
    decodeTableWord 16 0b0000100000111100 = some (.sublw 0x3C#8) ∧
    decodeTableWord 16 0b0110110010000001 = some (.negf 0x81#8 .access) ∧
    decodeTableWord 16 0b0010100101111110 = some (.incf 0x7E#8 .w .banked) ∧
    decodeTableWord 16 0b0000011001011010 = some (.decf 0x5A#8 .file .access) ∧
    decodeTableWord 16 0b0000000000000111 = some .daw := by
  decide

/-- 41_logic.md: the words of its encodings, bit by bit, the second word first. -/
theorem test_decode_logic_1 :
    decodeTableWord 16 0b0001010010100101 = some (.andwf 0xA5#8 .w .access) ∧
    decodeTableWord 16 0b0001000100111100 = some (.iorwf 0x3C#8 .w .banked) ∧
    decodeTableWord 16 0b0001101010000001 = some (.xorwf 0x81#8 .file .access) ∧
    decodeTableWord 16 0b0001111101111110 = some (.comf 0x7E#8 .file .banked) ∧
    decodeTableWord 16 0b0000101101011010 = some (.andlw 0x5A#8) ∧
    decodeTableWord 16 0b0000100111000011 = some (.iorlw 0xC3#8) := by
  decide

/-- 41_logic.md: the words of its encodings, bit by bit, the second word first. -/
theorem test_decode_logic_2 :
    decodeTableWord 16 0b0000101010100101 = some (.xorlw 0xA5#8) := by
  decide

/-- 42_incdec_skip.md: the words of its encodings, bit by bit, the second word first. -/
theorem test_decode_incdec_skip :
    decodeTableWord 16 0b0011111100111100 = some (.incfsz 0x3C#8 .file .banked) ∧
    decodeTableWord 16 0b0100100010000001 = some (.infsnz 0x81#8 .w .access) ∧
    decodeTableWord 16 0b0010110101111110 = some (.decfsz 0x7E#8 .w .banked) ∧
    decodeTableWord 16 0b0100111001011010 = some (.dcfsnz 0x5A#8 .file .access) := by
  decide

/-- 43_compare_skip.md: the words of its encodings, bit by bit, the second word first. -/
theorem test_decode_compare_skip :
    decodeTableWord 16 0b0110001111000011 = some (.cpfseq 0xC3#8 .banked) ∧
    decodeTableWord 16 0b0110010010100101 = some (.cpfsgt 0xA5#8 .access) ∧
    decodeTableWord 16 0b0110000100111100 = some (.cpfslt 0x3C#8 .banked) ∧
    decodeTableWord 16 0b0110011010000001 = some (.tstfsz 0x81#8 .access) := by
  decide

/-- 44_bit.md: the words of its encodings, bit by bit, the second word first. -/
theorem test_decode_bit :
    decodeTableWord 16 0b1001001101111110 = some (.bcf 0x7E#8 1#3 .banked) ∧
    decodeTableWord 16 0b1000100001011010 = some (.bsf 0x5A#8 4#3 .access) ∧
    decodeTableWord 16 0b0111111111000011 = some (.btg 0xC3#8 7#3 .banked) ∧
    decodeTableWord 16 0b1011010010100101 = some (.btfsc 0xA5#8 2#3 .access) ∧
    decodeTableWord 16 0b1010101100111100 = some (.btfss 0x3C#8 5#3 .banked) := by
  decide

/-- 45_move.md: the words of its encodings, bit by bit, the second word first. -/
theorem test_decode_move_1 :
    decodeTableWord 16 0b0101000010000001 = some (.movf 0x81#8 .w .access) ∧
    decodeTableWord 32 0b11111001110001101100010110100011 = some (.movff 0x5A3#12 0x9C6#12) ∧
    decodeTableWord 16 0b0110111001011010 = some (.movwf 0x5A#8 .access) ∧
    decodeTableWord 16 0b0000111011000011 = some (.movlw 0xC3#8) ∧
    decodeTableWord 16 0b0000000100001011 = some (.movlb 0xB#4) ∧
    decodeTableWord 32 0b11110000101001011110111000100111 = some (.lfsr 2#2 0x7A5#12) := by
  decide

/-- 45_move.md: the words of its encodings, bit by bit, the second word first. -/
theorem test_decode_move_2 :
    decodeTableWord 16 0b0110101010000001 = some (.clrf 0x81#8 .access) ∧
    decodeTableWord 16 0b0110100101111110 = some (.setf 0x7E#8 .banked) := by
  decide

/-- 46_shift_rotate.md: the words of its encodings, bit by bit, the second word first. -/
theorem test_decode_shift_rotate :
    decodeTableWord 16 0b0011010001011010 = some (.rlcf 0x5A#8 .w .access) ∧
    decodeTableWord 16 0b0100010111000011 = some (.rlncf 0xC3#8 .w .banked) ∧
    decodeTableWord 16 0b0011001010100101 = some (.rrcf 0xA5#8 .file .access) ∧
    decodeTableWord 16 0b0100001100111100 = some (.rrncf 0x3C#8 .file .banked) ∧
    decodeTableWord 16 0b0011100010000001 = some (.swapf 0x81#8 .w .access) := by
  decide

/-- 47_multiply.md: the words of its encodings, bit by bit, the second word first. -/
theorem test_decode_multiply :
    decodeTableWord 16 0b0000001101111110 = some (.mulwf 0x7E#8 .banked) ∧
    decodeTableWord 16 0b0000110101011010 = some (.mullw 0x5A#8) := by
  decide

/-- 48_control.md: the words of its encodings, bit by bit, the second word first. -/
theorem test_decode_control_1 :
    decodeTableWord 16 0b1101010110100100 = some (.bra 0x5A4#11) ∧
    decodeTableWord 16 0b1110000010100101 = some (.bz 0xA5#8) ∧
    decodeTableWord 16 0b1110000100111100 = some (.bnz 0x3C#8) ∧
    decodeTableWord 16 0b1110001010000001 = some (.bc 0x81#8) ∧
    decodeTableWord 16 0b1110001101111110 = some (.bnc 0x7E#8) ∧
    decodeTableWord 16 0b1110010001011010 = some (.bov 0x5A#8) := by
  decide

/-- 48_control.md: the words of its encodings, bit by bit, the second word first. -/
theorem test_decode_control_2 :
    decodeTableWord 16 0b1110010111000011 = some (.bnov 0xC3#8) ∧
    decodeTableWord 16 0b1110011010100101 = some (.bn 0xA5#8) ∧
    decodeTableWord 16 0b1110011100111100 = some (.bnn 0x3C#8) ∧
    decodeTableWord 32 0b11111001110001101110111110100101 = some (.goto 0x9C6A5#20) ∧
    decodeTableWord 32 0b11110110001111001110110101011010 = some (.call 0x63C5A#20 .fast) ∧
    decodeTableWord 16 0b1101110110100011 = some (.rcall 0x5A3#11) := by
  decide

/-- 48_control.md: the words of its encodings, bit by bit, the second word first. -/
theorem test_decode_control_3 :
    decodeTableWord 16 0b0000000000010000 = some (.retfie .normal) ∧
    decodeTableWord 16 0b0000000000010011 = some (.ret .fast) ∧
    decodeTableWord 16 0b0000110000111100 = some (.retlw 0x3C#8) ∧
    decodeTableWord 16 0b0000000000000101 = some .push ∧
    decodeTableWord 16 0b0000000000000110 = some .pop := by
  decide

/-- 49_table_system.md: the words of its encodings, bit by bit, the second word first. -/
theorem test_decode_table_system_1 :
    decodeTableWord 16 0b0000000000001000 = some .tblrd ∧
    decodeTableWord 16 0b0000000000001001 = some .tblrdPostInc ∧
    decodeTableWord 16 0b0000000000001010 = some .tblrdPostDec ∧
    decodeTableWord 16 0b0000000000001011 = some .tblrdPreInc ∧
    decodeTableWord 16 0b0000000000001100 = some .tblwt ∧
    decodeTableWord 16 0b0000000000001101 = some .tblwtPostInc := by
  decide

/-- 49_table_system.md: the words of its encodings, bit by bit, the second word first. -/
theorem test_decode_table_system_2 :
    decodeTableWord 16 0b0000000000001110 = some .tblwtPostDec ∧
    decodeTableWord 16 0b0000000000001111 = some .tblwtPreInc ∧
    decodeTableWord 16 0b0000000000000000 = some .nop ∧
    decodeTableWord 16 0b1111010110100011 = some .nop ∧
    decodeTableWord 16 0b0000000000000011 = some .sleep ∧
    decodeTableWord 16 0b0000000000000100 = some .clrwdt := by
  decide

/-- 49_table_system.md: the words of its encodings, bit by bit, the second word first. -/
theorem test_decode_table_system_3 :
    decodeTableWord 16 0b0000000011111111 = some .reset := by
  decide

/-! ## One step of every instruction, from the vectors of 95_test_vectors.md -/

/-- The reset state with these data cells written. -/
def withCells (cells : List (Nat × Nat)) : State :=
  cells.foldl (fun s c => s.setCell (BitVec.ofNat 12 c.1) (BitVec.ofNat 8 c.2)) State.reset

/-- The next state of a step that runs the instruction with these bits. -/
def after (s : State) (nbits w : Nat) : Option State :=
  match step (s.withFetchWord nbits w) with
  | .next t => some t
  | _ => none

/-- VA2: ADDWF 0x20, 1, 0. -/
theorem test_addwf :
    (after (withCells [(0xFE8, 0xF), (0x20, 0x1)]) 16 0x2620).map
        (fun t => (t.cell 0x20#12, t.cell 0xFD8#12, t.pc))
      = some (0x10#8, 0x2#8, 0x2#21) := by
  decide

/-- VF38: ADDWF PCL, 1, 0 at 0x000100. -/
theorem test_addwf_pcl :
    (after { withCells [(0xFE8, 0x4)] with pc := 0x100#21 } 16 0x26F9).map
        (fun t => (t.cell 0xFFA#12, t.pc))
      = some (0x1#8, 0x106#21) := by
  decide

/-- VA6: ADDWFC 0x20, 0, 0. -/
theorem test_addwfc :
    (after (withCells [(0xFE8, 0x0), (0x20, 0xFF), (0xFD8, 0x1)]) 16 0x2020).map
        (fun t => (t.cell 0xFD8#12, t.pc))
      = some (0x7#8, 0x2#21) := by
  decide

/-- VA9: ADDLW 0x3A. -/
theorem test_addlw :
    (after (withCells [(0xFE8, 0x46)]) 16 0xF3A).map
        (fun t => (t.cell 0xFD8#12, t.cell 0xFE8#12, t.pc))
      = some (0x1A#8, 0x80#8, 0x2#21) := by
  decide

/-- VA11: SUBWF 0x20, 0, 0. -/
theorem test_subwf :
    (after (withCells [(0xFE8, 0x5), (0x20, 0x3)]) 16 0x5C20).map
        (fun t => (t.cell 0xFD8#12, t.cell 0xFE8#12, t.pc))
      = some (0x10#8, 0xFE#8, 0x2#21) := by
  decide

/-- VA13: SUBWF 0x20, 0, 0. -/
theorem test_subwf_overflow :
    (after (withCells [(0xFE8, 0x1), (0x20, 0x80)]) 16 0x5C20).map
        (fun t => (t.cell 0xFD8#12, t.cell 0xFE8#12, t.pc))
      = some (0x9#8, 0x7F#8, 0x2#21) := by
  decide

/-- VA14: SUBWFB 0x20, 0, 0. -/
theorem test_subwfb :
    (after (withCells [(0xFE8, 0x3), (0x20, 0x5), (0xFD8, 0x0)]) 16 0x5820).map
        (fun t => (t.cell 0xFD8#12, t.cell 0xFE8#12, t.pc))
      = some (0x3#8, 0x1#8, 0x2#21) := by
  decide

/-- VA17: SUBFWB 0x20, 1, 0. -/
theorem test_subfwb :
    (after (withCells [(0xFE8, 0x2), (0x20, 0x3), (0xFD8, 0x0)]) 16 0x5620).map
        (fun t => (t.cell 0x20#12, t.cell 0xFD8#12, t.pc))
      = some (0xFE#8, 0x10#8, 0x2#21) := by
  decide

/-- VA18: SUBLW 0x10. -/
theorem test_sublw :
    (after (withCells [(0xFE8, 0x1)]) 16 0x810).map
        (fun t => (t.cell 0xFD8#12, t.cell 0xFE8#12, t.pc))
      = some (0x1#8, 0xF#8, 0x2#21) := by
  decide

/-- VA22: NEGF 0x20, 0. -/
theorem test_negf :
    (after (withCells [(0x20, 0x80)]) 16 0x6C20).map
        (fun t => (t.cell 0xFD8#12, t.pc))
      = some (0x1A#8, 0x2#21) := by
  decide

/-- VA24: INCF 0x20, 0, 0. -/
theorem test_incf :
    (after (withCells [(0x20, 0x7F)]) 16 0x2820).map
        (fun t => (t.cell 0xFD8#12, t.cell 0xFE8#12, t.pc))
      = some (0x1A#8, 0x80#8, 0x2#21) := by
  decide

/-- VA27: DECF 0x20, 1, 0. -/
theorem test_decf :
    (after (withCells [(0x20, 0x80)]) 16 0x620).map
        (fun t => (t.cell 0x20#12, t.cell 0xFD8#12, t.pc))
      = some (0x7F#8, 0x9#8, 0x2#21) := by
  decide

/-- VA31: DAW. -/
theorem test_daw :
    (after (withCells [(0xFE8, 0x12), (0xFD8, 0x3)]) 16 0x7).map
        (fun t => (t.cell 0xFE8#12, t.pc))
      = some (0x78#8, 0x2#21) := by
  decide

/-- VA32: DAW. -/
theorem test_daw_flags_kept :
    (after (withCells [(0xFE8, 0x55), (0xFD8, 0x1E)]) 16 0x7).map
        (fun t => (t.cell 0xFE8#12, t.pc))
      = some (0x5B#8, 0x2#21) := by
  decide

/-- VL1: ANDWF 0x20, 0, 0. -/
theorem test_andwf :
    (after (withCells [(0xFE8, 0xF0), (0x20, 0x3C), (0xFD8, 0xB)]) 16 0x1420).map
        (fun t => (t.cell 0xFE8#12, t.pc))
      = some (0x30#8, 0x2#21) := by
  decide

/-- VL3: IORWF 0x20, 0, 0. -/
theorem test_iorwf :
    (after (withCells [(0xFE8, 0x80), (0x20, 0x1)]) 16 0x1020).map
        (fun t => (t.cell 0xFD8#12, t.cell 0xFE8#12, t.pc))
      = some (0x10#8, 0x81#8, 0x2#21) := by
  decide

/-- VL6: XORWF 0x20, 0, 0. -/
theorem test_xorwf :
    (after (withCells [(0xFE8, 0xFF), (0x20, 0xF)]) 16 0x1820).map
        (fun t => (t.cell 0xFD8#12, t.cell 0xFE8#12, t.pc))
      = some (0x10#8, 0xF0#8, 0x2#21) := by
  decide

/-- VL8: COMF 0x20, 0, 0. -/
theorem test_comf :
    (after (withCells [(0x20, 0x0), (0xFD8, 0x4)]) 16 0x1C20).map
        (fun t => (t.cell 0xFD8#12, t.cell 0xFE8#12, t.pc))
      = some (0x10#8, 0xFF#8, 0x2#21) := by
  decide

/-- VL9: ANDLW 0x0F. -/
theorem test_andlw :
    (after (withCells [(0xFE8, 0xF0)]) 16 0xB0F).map
        (fun t => (t.cell 0xFD8#12, t.cell 0xFE8#12, t.pc))
      = some (0x4#8, 0x0#8, 0x2#21) := by
  decide

/-- VL10: IORLW 0x80. -/
theorem test_iorlw :
    (after (withCells [(0xFE8, 0x1)]) 16 0x980).map
        (fun t => (t.cell 0xFD8#12, t.cell 0xFE8#12, t.pc))
      = some (0x10#8, 0x81#8, 0x2#21) := by
  decide

/-- VL11: XORLW 0xFF. -/
theorem test_xorlw :
    (after (withCells [(0xFE8, 0xFF), (0xFD8, 0x1)]) 16 0xAFF).map
        (fun t => (t.cell 0xFD8#12, t.cell 0xFE8#12, t.pc))
      = some (0x5#8, 0x0#8, 0x2#21) := by
  decide

/-- VS1: INCFSZ 0x20, 1, 0. -/
theorem test_incfsz :
    (after (withCells [(0x20, 0xFF)]) 16 0x3E20).map
        (fun t => (t.cell 0x20#12, t.pc))
      = some (0x0#8, 0x4#21) := by
  decide

/-- VS4: INFSNZ 0x20, 1, 0. -/
theorem test_infsnz :
    (after (withCells [(0x20, 0x5)]) 16 0x4A20).map
        (fun t => (t.cell 0x20#12, t.pc))
      = some (0x6#8, 0x4#21) := by
  decide

/-- VS7: DECFSZ 0x20, 1, 0. -/
theorem test_decfsz :
    (after (withCells [(0x20, 0x0)]) 16 0x2E20).map
        (fun t => (t.cell 0x20#12, t.pc))
      = some (0xFF#8, 0x2#21) := by
  decide

/-- VS10: DECFSZ PCL, 1, 0. -/
theorem test_decfsz_pcl_refused :
    (after State.reset 16 0x2EF9).map
        (fun t => (t.pc, t.run))
      = some (0x0#21, .faulted (.refused 0x0#21 .skipWritesPcl)) := by
  decide

/-- VS9: DCFSNZ 0x20, 1, 0. -/
theorem test_dcfsnz :
    (after (withCells [(0x20, 0x3)]) 16 0x4E20).map
        (fun t => (t.cell 0x20#12, t.pc))
      = some (0x2#8, 0x4#21) := by
  decide

/-- VK1: CPFSEQ 0x20, 0. -/
theorem test_cpfseq :
    (after (withCells [(0xFE8, 0x42), (0x20, 0x42), (0xFD8, 0x1F)]) 16 0x6220).map
        (fun t => (t.pc))
      = some (0x4#21) := by
  decide

/-- VK3: CPFSGT 0x20, 0. -/
theorem test_cpfsgt :
    (after (withCells [(0xFE8, 0x7F), (0x20, 0x80)]) 16 0x6420).map
        (fun t => (t.pc))
      = some (0x4#21) := by
  decide

/-- VK5: CPFSLT 0x20, 0. -/
theorem test_cpfslt :
    (after (withCells [(0xFE8, 0x80), (0x20, 0x7F)]) 16 0x6020).map
        (fun t => (t.pc))
      = some (0x4#21) := by
  decide

/-- VK9: TSTFSZ POSTINC0, 0. -/
theorem test_tstfsz :
    (after (withCells [(0xFE9, 0x30), (0x30, 0x0)]) 16 0x66EE).map
        (fun t => (t.cell 0xFE9#12, t.pc))
      = some (0x31#8, 0x4#21) := by
  decide

/-- VB1: BCF 0x20, 7, 0. -/
theorem test_bcf :
    (after (withCells [(0x20, 0xFF)]) 16 0x9E20).map
        (fun t => (t.cell 0x20#12, t.pc))
      = some (0x7F#8, 0x2#21) := by
  decide

/-- VB9: BSF 0x20, 1, 1. -/
theorem test_bsf :
    (after (withCells [(0xFE0, 0x2), (0x220, 0x0)]) 16 0x8320).map
        (fun t => (t.cell 0x220#12, t.pc))
      = some (0x2#8, 0x2#21) := by
  decide

/-- VB4: BSF STATUS, 2, 0. -/
theorem test_bsf_status :
    (after (withCells [(0xFD8, 0x0)]) 16 0x84D8).map
        (fun t => (t.cell 0xFD8#12, t.pc))
      = some (0x4#8, 0x2#21) := by
  decide

/-- VB3: BTG 0x20, 3, 0. -/
theorem test_btg :
    (after (withCells [(0x20, 0xF)]) 16 0x7620).map
        (fun t => (t.cell 0x20#12, t.pc))
      = some (0x7#8, 0x2#21) := by
  decide

/-- VB5: BTFSC 0x20, 4, 0. -/
theorem test_btfsc :
    (after (withCells [(0x20, 0xEF)]) 16 0xB820).map
        (fun t => (t.pc))
      = some (0x4#21) := by
  decide

/-- VB8: BTFSS 0x20, 4, 0. -/
theorem test_btfss :
    (after (withCells [(0x20, 0xEF)]) 16 0xA820).map
        (fun t => (t.pc))
      = some (0x2#21) := by
  decide

/-- VM15: MOVF PLUSW0, 0, 0. -/
theorem test_movf :
    (after (withCells [(0xFE8, 0xFE), (0xFE9, 0x12), (0x10, 0x99)]) 16 0x50EB).map
        (fun t => (t.cell 0xFD8#12, t.cell 0xFE8#12, t.pc))
      = some (0x10#8, 0x99#8, 0x2#21) := by
  decide

/-- VF40: MOVF PCL, 0, 0 at 0x012300. -/
theorem test_movf_pcl :
    (after { State.reset with pc := 0x12300#21 } 16 0x50F9).map
        (fun t => (t.cell 0xFE8#12, t.cell 0xFFA#12, t.cell 0xFFB#12, t.pc))
      = some (0x2#8, 0x23#8, 0x1#8, 0x12302#21) := by
  decide

/-- VM7: MOVFF POSTINC0, POSTINC0. -/
theorem test_movff :
    (after (withCells [(0xFE9, 0x40), (0x40, 0x77)]) 32 0xFFEECFEE).map
        (fun t => (t.cell 0x41#12, t.cell 0xFE9#12, t.pc))
      = some (0x77#8, 0x42#8, 0x4#21) := by
  decide

/-- VM6: MOVFF INDF0, 0x020. -/
theorem test_movff_restricted :
    (after (withCells [(0xFE9, 0xF9), (0xFEA, 0xF)]) 32 0xF020CFEF).map
        (fun t => (t.pc, t.run))
      = some (0x0#21, .faulted (.fatal .restrictedRegister ⟨0x0#21, [0xCFEF#16, 0xF020#16], 0xFEF#12, 0x020#12, 0xFF9#12⟩)) := by
  decide

/-- VM12: MOVWF POSTINC0, 0. -/
theorem test_movwf :
    (after (withCells [(0xFE8, 0xAB), (0xFE9, 0xFF), (0xFEA, 0x0)]) 16 0x6EEE).map
        (fun t => (t.cell 0xFF#12, t.cell 0xFE9#12, t.cell 0xFEA#12, t.pc))
      = some (0xAB#8, 0x0#8, 0x1#8, 0x2#21) := by
  decide

/-- VM17: MOVWF POSTINC0, 0. -/
theorem test_movwf_collision :
    (after (withCells [(0xFE8, 0x12), (0xFE9, 0xE9), (0xFEA, 0xF)]) 16 0x6EEE).map
        (fun t => (t.pc, t.run))
      = some (0x0#21, .faulted (.refused 0x0#21 .fsrCollision)) := by
  decide

/-- VM18: MOVLW 0xA5. -/
theorem test_movlw :
    (after (withCells [(0xFD8, 0x1F)]) 16 0xEA5).map
        (fun t => (t.cell 0xFE8#12, t.pc))
      = some (0xA5#8, 0x2#21) := by
  decide

/-- VM19: MOVLB 0x0F. -/
theorem test_movlb :
    (after State.reset 16 0x10F).map
        (fun t => (t.cell 0xFE0#12, t.pc))
      = some (0xF#8, 0x2#21) := by
  decide

/-- VE12: LFSR 0, 0x123 at 0x1FFFFC. -/
theorem test_lfsr :
    (after { State.reset with pc := 0x1FFFFC#21 } 32 0xF023EE01).map
        (fun t => (t.cell 0xFE9#12, t.cell 0xFEA#12, t.pc))
      = some (0x23#8, 0x1#8, 0x0#21) := by
  decide

/-- VM21: word 0xEE30 (LFSR with f = 3). -/
theorem test_lfsr3 :
    (after State.reset 32 0xF012EE30).map
        (fun t => (t.pc))
      = some (0x2#21) := by
  decide

/-- VM22: CLRF 0x20, 0. -/
theorem test_clrf :
    (after (withCells [(0x20, 0x77), (0xFD8, 0x1B)]) 16 0x6A20).map
        (fun t => (t.cell 0x20#12, t.cell 0xFD8#12, t.pc))
      = some (0x0#8, 0x1F#8, 0x2#21) := by
  decide

/-- VF46: CLRF STKPTR, 0. -/
theorem test_clrf_stkptr :
    (after { State.reset with sp := 31#5, stkful := true } 16 0x6AFC).map
        (fun t => (t.cell 0xFD8#12, t.sp, t.stkful, t.pc))
      = some (0x4#8, 0#5, false, 0x2#21) := by
  decide

/-- VF47: SETF STKPTR, 0. -/
theorem test_setf :
    (after { State.reset with sp := 3#5 } 16 0x68FC).map
        (fun t => (t.sp, t.pc))
      = some (31#5, 0x2#21) := by
  decide

/-- VR2: RLCF 0x20, 0, 0. -/
theorem test_rlcf :
    (after (withCells [(0x20, 0x41), (0xFD8, 0x1)]) 16 0x3420).map
        (fun t => (t.cell 0xFD8#12, t.cell 0xFE8#12, t.pc))
      = some (0x10#8, 0x83#8, 0x2#21) := by
  decide

/-- VR3: RLNCF 0x20, 1, 0. -/
theorem test_rlncf :
    (after (withCells [(0x20, 0x81), (0xFD8, 0x1)]) 16 0x4620).map
        (fun t => (t.cell 0x20#12, t.pc))
      = some (0x3#8, 0x2#21) := by
  decide

/-- VR5: RRCF 0x20, 1, 0. -/
theorem test_rrcf :
    (after (withCells [(0x20, 0x2), (0xFD8, 0x1)]) 16 0x3220).map
        (fun t => (t.cell 0x20#12, t.cell 0xFD8#12, t.pc))
      = some (0x81#8, 0x10#8, 0x2#21) := by
  decide

/-- VR6: RRNCF 0x20, 1, 0. -/
theorem test_rrncf :
    (after (withCells [(0x20, 0x1)]) 16 0x4220).map
        (fun t => (t.cell 0x20#12, t.cell 0xFD8#12, t.pc))
      = some (0x80#8, 0x10#8, 0x2#21) := by
  decide

/-- VR7: SWAPF 0x20, 1, 0. -/
theorem test_swapf :
    (after (withCells [(0x20, 0xA5), (0xFD8, 0x4)]) 16 0x3A20).map
        (fun t => (t.cell 0x20#12, t.pc))
      = some (0x5A#8, 0x2#21) := by
  decide

/-- VX1: MULWF 0x20, 0. -/
theorem test_mulwf :
    (after (withCells [(0xFE8, 0xFF), (0x20, 0xFF), (0xFD8, 0x1F)]) 16 0x220).map
        (fun t => (t.cell 0xFF3#12, t.cell 0xFF4#12, t.pc))
      = some (0x1#8, 0xFE#8, 0x2#21) := by
  decide

/-- VX3: MULLW 0x00. -/
theorem test_mullw :
    (after (withCells [(0xFE8, 0xC8), (0xFF3, 0x12), (0xFF4, 0x34)]) 16 0xD00).map
        (fun t => (t.cell 0xFF3#12, t.cell 0xFF4#12, t.pc))
      = some (0x0#8, 0x0#8, 0x2#21) := by
  decide

/-- VF3: BRA −0x400 at 0x000100. -/
theorem test_bra :
    (after { State.reset with pc := 0x100#21 } 16 0xD400).map
        (fun t => (t.pc))
      = some (0x1FF902#21) := by
  decide

/-- VF4: BRA +0x3FF at 0x1FFFFE. -/
theorem test_bra_past_top :
    (after { State.reset with pc := 0x1FFFFE#21 } 16 0xD3FF).map
        (fun t => (t.pc))
      = some (0x7FE#21) := by
  decide

/-- VF21: BZ −128 at 0x000100. -/
theorem test_bz :
    (after { withCells [(0xFD8, 0x4)] with pc := 0x100#21 } 16 0xE080).map
        (fun t => (t.pc))
      = some (0x2#21) := by
  decide

/-- VF8: BNZ +4 at 0x000100. -/
theorem test_bnz :
    (after { withCells [(0xFD8, 0x1B)] with pc := 0x100#21 } 16 0xE104).map
        (fun t => (t.pc))
      = some (0x10A#21) := by
  decide

/-- VF9: BC +4 at 0x000100. -/
theorem test_bc :
    (after { withCells [(0xFD8, 0x1)] with pc := 0x100#21 } 16 0xE204).map
        (fun t => (t.pc))
      = some (0x10A#21) := by
  decide

/-- VF11: BNC +4 at 0x000100. -/
theorem test_bnc :
    (after { withCells [(0xFD8, 0x1)] with pc := 0x100#21 } 16 0xE304).map
        (fun t => (t.pc))
      = some (0x102#21) := by
  decide

/-- VF13: BOV +4 at 0x000100. -/
theorem test_bov :
    (after { withCells [(0xFD8, 0x8)] with pc := 0x100#21 } 16 0xE404).map
        (fun t => (t.pc))
      = some (0x10A#21) := by
  decide

/-- VF15: BNOV +4 at 0x000100. -/
theorem test_bnov :
    (after { withCells [(0xFD8, 0x8)] with pc := 0x100#21 } 16 0xE504).map
        (fun t => (t.pc))
      = some (0x102#21) := by
  decide

/-- VF17: BN +4 at 0x000100. -/
theorem test_bn :
    (after { withCells [(0xFD8, 0x10)] with pc := 0x100#21 } 16 0xE604).map
        (fun t => (t.pc))
      = some (0x10A#21) := by
  decide

/-- VF20: BNN +4 at 0x000100. -/
theorem test_bnn :
    (after { withCells [(0xFD8, 0xF)] with pc := 0x100#21 } 16 0xE704).map
        (fun t => (t.pc))
      = some (0x10A#21) := by
  decide

/-- VF22: GOTO 0x012345. -/
theorem test_goto :
    (after { State.reset with pc := 0x100#21 } 32 0xF091EFA2).map
        (fun t => (t.pc))
      = some (0x12344#21) := by
  decide

/-- VF24: CALL 0x000200, 1. -/
theorem test_call_fast :
    (after { withCells [(0xFE8, 0x11), (0xFD8, 0x3), (0xFE0, 0x4)] with pc := 0x100#21 } 32 0xF001ED00).map
        (fun t => (t.sp, t.stk[0], t.ws, t.statuss, t.bsrs, t.pc))
      = some (1#5, 0x104#21, 0x11#8, 0x3#8, 0x4#8, 0x200#21) := by
  decide

/-- VF25: CALL 0x000200, 0. -/
theorem test_call_overflow :
    (after { State.reset with pc := 0x100#21, sp := 31#5, stkful := true } 32 0xF001EC00).map
        (fun t => (t.stackFaults, t.pc))
      = some ([⟨.overflow, 0x100#21⟩], 0x200#21) := by
  decide

/-- VF26: RCALL +0x20 at 0x000100. -/
theorem test_rcall :
    (after { State.reset with pc := 0x100#21 } 16 0xD820).map
        (fun t => (t.sp, t.stk[0], t.pc))
      = some (1#5, 0x102#21, 0x142#21) := by
  decide

/-- VF31: RETFIE 1. -/
theorem test_retfie_fast :
    (after { State.reset with pc := 0x200#21, sp := 2#5, stk := ((State.reset.stk.set 0 0x104#21).set 1 0x208#21), ws := 0x11#8, statuss := 0x3#8, bsrs := 0x4#8 } 16 0x11).map
        (fun t => (t.cell 0xFD8#12, t.cell 0xFE0#12, t.cell 0xFE8#12, t.cell 0xFF2#12, t.sp, t.pc))
      = some (0x3#8, 0x4#8, 0x11#8, 0x80#8, 1#5, 0x208#21) := by
  decide

/-- VF27: RETURN 0. -/
theorem test_return :
    (after { State.reset with pc := 0x200#21, sp := 1#5, stk := (State.reset.stk.set 0 0x104#21) } 16 0x12).map
        (fun t => (t.sp, t.pc))
      = some (0#5, 0x104#21) := by
  decide

/-- VF29: RETURN 0. -/
theorem test_return_underflow :
    (after { State.reset with pc := 0x200#21 } 16 0x12).map
        (fun t => (t.stkunf, t.stackFaults, t.pc))
      = some (true, [⟨.underflow, 0x200#21⟩], 0x0#21) := by
  decide

/-- VF32: RETLW 0x42. -/
theorem test_retlw :
    (after { withCells [(0xFD8, 0x4)] with pc := 0x200#21, sp := 1#5, stk := (State.reset.stk.set 0 0x104#21) } 16 0xC42).map
        (fun t => (t.cell 0xFE8#12, t.sp, t.pc))
      = some (0x42#8, 0#5, 0x104#21) := by
  decide

/-- VF35: PUSH at 0x000100. -/
theorem test_push :
    (after { State.reset with pc := 0x100#21, sp := 30#5 } 16 0x5).map
        (fun t => (t.sp, t.stk[30], t.stkful, t.pc))
      = some (31#5, 0x102#21, true, 0x102#21) := by
  decide

/-- VF36: POP. -/
theorem test_pop :
    (after { State.reset with pc := 0x100#21, sp := 2#5, stk := ((State.reset.stk.set 0 0x10#21).set 1 0x20#21) } 16 0x6).map
        (fun t => (t.sp, t.pc))
      = some (1#5, 0x102#21) := by
  decide

/-- VT5: TBLRD*. -/
theorem test_tblrd :
    (after (withCells [(0xFF6, 0x40)]) 16 0x8).map
        (fun t => (t.cell 0xFF5#12, t.pc))
      = some (0xFF#8, 0x2#21) := by
  decide

/-- VT6: TBLRD*+. -/
theorem test_tblrd_post_inc :
    (after { withCells [(0xFF6, 0xFF), (0xFF7, 0x7F), (0xFF8, 0xC0)] with prog := [(0x7FFE, 0x00#8), (0x7FFF, 0xAB#8)] } 16 0x9).map
        (fun t => (t.cell 0xFF5#12, t.cell 0xFF6#12, t.cell 0xFF7#12, t.cell 0xFF8#12, t.pc))
      = some (0xAB#8, 0x0#8, 0x80#8, 0x0#8, 0x2#21) := by
  decide

/-- VT3: TBLRD*-. -/
theorem test_tblrd_post_dec :
    (after { withCells [(0xFF6, 0x21)] with prog := [(0x20, 0x34#8), (0x21, 0x12#8)] } 16 0xA).map
        (fun t => (t.cell 0xFF5#12, t.cell 0xFF6#12, t.pc))
      = some (0x12#8, 0x20#8, 0x2#21) := by
  decide

/-- VT4: TBLRD+*. -/
theorem test_tblrd_pre_inc :
    (after { withCells [(0xFF6, 0x20)] with prog := [(0x20, 0x34#8), (0x21, 0x12#8)] } 16 0xB).map
        (fun t => (t.cell 0xFF5#12, t.cell 0xFF6#12, t.pc))
      = some (0x12#8, 0x21#8, 0x2#21) := by
  decide

/-- VT7: TBLWT*. -/
theorem test_tblwt :
    (after (withCells [(0xFF6, 0x20), (0xFF5, 0x55)]) 16 0xC).map
        (fun t => (t.pc))
      = some (0x2#21) := by
  decide

/-- VT8: TBLWT*+. -/
theorem test_tblwt_post_inc :
    (after (withCells [(0xFF6, 0x20)]) 16 0xD).map
        (fun t => (t.cell 0xFF6#12, t.pc))
      = some (0x21#8, 0x2#21) := by
  decide

/-- VT9: TBLWT*-. -/
theorem test_tblwt_post_dec :
    (after (withCells [(0xFF6, 0x0)]) 16 0xE).map
        (fun t => (t.cell 0xFF6#12, t.cell 0xFF7#12, t.cell 0xFF8#12, t.pc))
      = some (0xFF#8, 0xFF#8, 0x3F#8, 0x2#21) := by
  decide

/-- VT10: TBLWT+*. -/
theorem test_tblwt_pre_inc :
    (after (withCells [(0xFF6, 0x20)]) 16 0xF).map
        (fun t => (t.cell 0xFF6#12, t.pc))
      = some (0x21#8, 0x2#21) := by
  decide

/-- VE10: word 0xEEFF. -/
theorem test_nop :
    (after { State.reset with pc := 0x100#21 } 16 0xEEFF).map
        (fun t => (t.pc))
      = some (0x102#21) := by
  decide

/-- VT12: NOP (word 0xF123). -/
theorem test_nopx :
    (after State.reset 16 0xF123).map
        (fun t => (t.pc))
      = some (0x2#21) := by
  decide

/-- VT13: SLEEP. -/
theorem test_sleep :
    (after State.reset 16 0x3).map
        (fun t => (t.cell 0xFD0#12, t.run, t.pc))
      = some (0x18#8, .halted, 0x2#21) := by
  decide

/-- VT14: CLRWDT. -/
theorem test_clrwdt :
    (after (withCells [(0xFD0, 0x10)]) 16 0x4).map
        (fun t => (t.cell 0xFD0#12, t.pc))
      = some (0x1C#8, 0x2#21) := by
  decide

/-- VT15: RESET at 0x000100. -/
theorem test_reset :
    (after { withCells [(0xFE0, 0x5), (0xFE8, 0x12), (0xFD0, 0x1C), (0xFF2, 0x81), (0xFF6, 0x44), (0xF92, 0x0), (0x20, 0x77), (0xFF3, 0x9)] with pc := 0x100#21, sp := 3#5, stk := (((State.reset.stk.set 0 0x10#21).set 1 0x20#21).set 2 0x30#21) } 16 0xFF).map
        (fun t => (t.w, t.cell 0x020#12, t.stk[2], t.cell 0xF92#12, t.cell 0xFD0#12, t.cell 0xFE0#12, t.cell 0xFF2#12, t.cell 0xFF6#12, t.sp, t.pc))
      = some (0x12#8, 0x77#8, 0x30#21, 0xFF#8, 0xC#8, 0x0#8, 0x1#8, 0x0#8, 0#5, 0x0#21) := by
  decide

/-! ## Witnesses: for every statement with hypotheses, concrete operands and states that meet them, clause by clause -/

/-- A core after a power-on reset with POR_SFR_INIT = Unknown. -/
def unknownReset : State :=
  ({ State.reset with params := { Params.default with porSfrInit := .unknown } } : State).powerOnReset

/-- FSR0 points at its own low byte. -/
def fsr0AtItself : State := withCells [(0xFE9, 0xE9), (0xFEA, 0x0F)]

/-- FSR0 points at PCL. -/
def fsr0AtPcl : State := withCells [(0xFE9, 0xF9), (0xFEA, 0x0F)]

theorem witness_DecodeEncode :
    Instr.wellFormed (.lfsr 2#2 0xFFF#12) = true ∧ Instr.wellFormed (.movff 0x000#12 0xFFF#12) = true := by decide

theorem witness_EncodeDecode :
    (decode 0xDFFF#16 ≠ .nop ∧ (decode 0xDFFF#16).twoWord = false) ∧ (decode 0x0003#16 ≠ .nop ∧ (decode 0x0003#16).twoWord = false) ∧
      (decode 0xEE2F#16).twoWord = true ∧ (decode 0xC000#16).twoWord = true := by decide

theorem witness_SecondWordBits :
    decode 0xEDFF#16 = .call 0x000FF#20 .fast ∧ decode 0xEF00#16 = .goto 0x00000#20 ∧ decode 0xCFFF#16 = .movff 0xFFF#12 0x000#12 ∧
      decode 0xEE2F#16 = .lfsr 2#2 0xF00#12 ∧ (0x0123#16 &&& 0x0FFF#16 : Word16) = 0xF123#16 &&& 0x0FFF#16 ∧
      (0xEE00#16 &&& 0xFFC0#16 : Word16) = 0xEE00#16 ∧ (0x0F23#16 &&& 0x00FF#16 : Word16) = 0xF023#16 &&& 0x00FF#16 := by decide

theorem witness_LfsrHasNoFsr3 :
    (0xEE30#16 : Word16) ≤ 0xEE3F#16 ∧ (0xF000#16 &&& 0xF000#16 : Word16) = 0xF000#16 ∧ (0xFFFF#16 &&& 0xF000#16 : Word16) = 0xF000#16 := by
  decide

theorem witness_StepRunsDecoded :
    State.reset.run = .running ∧
      decodeBytes [State.reset.progByte State.reset.pc.toNat, State.reset.progByte (State.reset.pc.toNat + 1),
        State.reset.progByte (State.reset.pcPlus 2#21).toNat, State.reset.progByte ((State.reset.pcPlus 2#21).toNat + 1)]
        = .ok (.nop, [0xFF#8, 0xFF#8]) := by
  exact ⟨rfl, by rfl⟩

theorem witness_StoppedCoreHasNoStep :
    ({ State.reset with run := .halted } : State).run = .halted ∧
      ({ State.reset with run := .faulted (.refused 0#21 .skipWritesPcl) } : State).run = .faulted (.refused 0#21 .skipWritesPcl) := by
  decide

theorem witness_NeverSkipsAndRedirects :
    runInstr (.incfsz 0x20#8 .file .access) (withCells [(0x20, 0xFF)])
      = .ok ⟨withCells [(0x20, 0x00)], none, true, [.registerRead 0x020#12 0xFF#8, .registerWrite 0x020#12 0x00#8]⟩ := by rfl

theorem witness_PowerOnReset : State.reset.params.porSfrInit = .zero ∧ unknownReset.params.porSfrInit = .unknown := by decide

theorem witness_ResetInstruction :
    (0x2FF#12 : DAddr).toNat < Config.gprLimit ∧ Config.sfrBase ≤ (0xF82#12 : DAddr).toNat ∧ Config.sfrBase ≤ (0xFFF#12 : DAddr).toNat ∧
      (∀ a : DAddr, a ∈ [0xF82#12, 0xFFF#12] →
        a ∉ [wregAddr, statusAddr, prodhAddr, prodlAddr, fsr0lAddr, fsr0hAddr, fsr1lAddr, fsr1hAddr, fsr2lAddr, fsr2hAddr,
          portaAddr, portbAddr, intconAddr, rconAddr, trisaAddr, trisbAddr]) := by decide

theorem witness_ResolveAddress : (0x0F#8 : Byte).toNat < 16 ∧ (0x00#8 : Byte).toNat < 16 := by decide

theorem witness_OperandDescriptors :
    (0xFEA#12 : DAddr) ∉ [0xFEF#12, 0xFEE#12, 0xFED#12, 0xFEC#12, 0xFEB#12, 0xFE7#12, 0xFE6#12, 0xFE5#12, 0xFE4#12, 0xFE3#12, 0xFDF#12,
        0xFDE#12, 0xFDD#12, 0xFDC#12, 0xFDB#12] := by decide

theorem witness_ReadByKind :
    isGap 0x300#12 = true ∧ isGap 0xF7F#12 = true ∧ isIndirect 0xFDB#12 = true ∧ isIndirect 0xFEF#12 = true ∧
      isStorage 0x000#12 = true ∧ isStorage 0x2FF#12 = true ∧ isStorage 0xF80#12 = true ∧ isStorage 0xFFB#12 = true := by decide

theorem witness_WriteThenRead : isStorage 0x2FF#12 = true ∧ isStorage wregAddr = true ∧ (0x2FF#12 : DAddr) ≠ wregAddr := by decide

theorem witness_StackViewWrites :
    State.reset.sp = 0#5 ∧ tosuAddr ∈ [toslAddr, toshAddr, tosuAddr] ∧
      ({ State.reset with sp := 1#5 } : State).sp.toNat = 0 + 1 ∧ ({ State.reset with sp := 31#5 } : State).sp.toNat = 30 + 1 := by decide

theorem witness_PushAndPop :
    ({ State.reset with sp := 30#5 } : State).sp.toNat < 31 ∧ ({ State.reset with sp := 31#5 } : State).sp.toNat = 31 ∧
      ({ State.reset with sp := 1#5 } : State).sp ≠ 0#5 ∧ State.reset.sp = 0#5 := by decide

theorem witness_AdderLaws : (add8 0x7F#8 0x01#8 false).2.ov = true ∧ (add8 0x80#8 0xFF#8 false).2.ov = true := by decide

/-- An operand that is read and can be written, for ByteArithmetic, ByteLogic, Rotates, WriteOnly, BitInstructions, IncrementAndSkip,
CompareAndSkip and Multiplication: the last one of the low access
window, the first one of the high window, and one through POSTINC0. -/
theorem witness_operands :
    ∀ x : Byte × Bank, x ∈ [(0x7F#8, .access), (0x80#8, .access), (0xEE#8, .access)] →
      State.reset.ready (State.reset.resolve x.1 x.2) [needW, needFlags maskC] ∧
      State.reset.ready (State.reset.resolve x.1 x.2) [needW] ∧
      State.reset.ready (State.reset.resolve x.1 x.2) [needFlags maskC] ∧
      State.reset.ready (State.reset.resolve x.1 x.2) [] ∧
      State.reset.readyToWrite (State.reset.resolve x.1 x.2) [needW] ∧ State.reset.readyToWrite (State.reset.resolve x.1 x.2) [] ∧
      ¬State.reset.clashes (State.reset.resolve x.1 x.2) ∧ (State.reset.operand (State.reset.resolve x.1 x.2)).ea ≠ pclAddr := by
  intro x hx
  simp only [List.mem_cons, List.not_mem_nil, or_false] at hx
  rcases hx with rfl | rfl | rfl <;> decide

/-- With no value in W, what does not read it is still ready. -/
theorem witness_operands_unknown :
    unknownReset.ready (unknownReset.resolve 0x20#8 .access) [] ∧ ¬unknownReset.ready (unknownReset.resolve 0x20#8 .access) [needW] := by
  decide

theorem witness_LiteralOperations : State.reset.readyRegs [needW] := by decide

theorem witness_DecimalAdjust : State.reset.readyRegs [needW, needFlags (maskC ||| maskDC)] := by decide

theorem witness_BcdAddition :
    (withCells [(0xFE8, 0x99)]).readyRegs [needW] ∧ (withCells [(0xFE8, 0x99)]).w = 0x99#8 ∧
      (0x99#8 : Byte).toNat / 16 ≤ 9 ∧ (0x99#8 : Byte).toNat % 16 ≤ 9 := by decide

theorem witness_CompareChangesOnlyPc :
    Instr.cpfseq 0x20#8 .access ∈ [.cpfseq 0x20#8 .access, .cpfsgt 0x20#8 .access, .cpfslt 0x20#8 .access, .tstfsz 0x20#8 .access] ∧
      State.reset.run = .running ∧
      (∃ t, exec (.cpfseq 0x20#8 .access) State.reset = .next t ∧ t.run = .running) ∧
      (State.reset.operand (State.reset.resolve 0x20#8 .access)).ea ≠ pclAddr ∧
      (State.reset.operand (State.reset.resolve 0x20#8 .access)).upd = none ∧
      (∃ t, exec (.tstfsz 0xF9#8 .access) State.reset = .next t ∧ t.run = .running) ∧
      (State.reset.operand (State.reset.resolve 0xF9#8 .access)).ea = pclAddr ∧
      (∃ t, exec (.tstfsz 0xEE#8 .access) State.reset = .next t ∧ t.run = .running) ∧
      (State.reset.operand (State.reset.resolve 0xEE#8 .access)).upd = some (.fsr0, 0x001#12) :=
  ⟨by decide, rfl, ⟨_, rfl, rfl⟩, by decide, by decide, ⟨_, rfl, rfl⟩, by decide, ⟨_, rfl, rfl⟩, by decide⟩

/-- A direct move, and one whose two operands both move FSR0. -/
theorem witness_MoveFileToFile :
    ∀ x : DAddr × DAddr, x ∈ [(0x030#12, 0x123#12), (0xFEE#12, 0xFED#12)] →
      (∀ y, y ∈ [x.1, x.2, (State.reset.operand x.1).ea, (movffDest x.1 x.2 State.reset).ea] →
        y ∉ [pclAddr, toslAddr, toshAddr, tosuAddr]) ∧
      State.reset.missing (operandNeeds x.1 ++ operandNeeds x.2 ++ readNeeds (State.reset.operand x.1)) = none ∧
      collides (State.reset.operand x.1).upd (movffDest x.1 x.2 State.reset).ea = false ∧
      collides (movffDest x.1 x.2 State.reset).upd (movffDest x.1 x.2 State.reset).ea = false := by
  have h1 : State.reset.operand 0x030#12 = ⟨0x030#12, none, false⟩ := by rfl
  have h2 : movffDest 0x030#12 0x123#12 State.reset = ⟨0x123#12, none, false⟩ := by rfl
  have h3 : State.reset.operand 0xFEE#12 = ⟨0x000#12, some (.fsr0, 0x001#12), true⟩ := by rfl
  have h4 : movffDest 0xFEE#12 0xFED#12 State.reset = ⟨0x001#12, some (.fsr0, 0x000#12), true⟩ := by rfl
  intro x hx
  simp only [List.mem_cons, List.not_mem_nil, or_false] at hx
  rcases hx with rfl | rfl
  · simp only [h1, h2]
    exact ⟨by simp; decide, by rfl, by rfl, by rfl⟩
  · simp only [h3, h4]
    exact ⟨by simp; decide, by rfl, by rfl, by rfl⟩

theorem witness_MoveRestricted :
    toslAddr ∈ [pclAddr, toslAddr, toshAddr, tosuAddr] ∧
      fsr0AtPcl.missing (operandNeeds 0xFEF#12 ++ operandNeeds 0x020#12) = none ∧
      (fsr0AtPcl.operand 0xFEF#12).ea ∈ [pclAddr, toslAddr, toshAddr, tosuAddr] ∧
      (movffDest 0x020#12 0xFEF#12 fsr0AtPcl).ea ∈ [pclAddr, toslAddr, toshAddr, tosuAddr] := by decide

theorem witness_OnlyMoveIsFatal :
    State.reset.run = .running ∧ ∃ t kind info, exec (.movff 0xFF9#12 0x020#12) State.reset = .next t ∧ t.run = .faulted (.fatal kind info) :=
  ⟨rfl, _, _, _, rfl, rfl⟩

theorem witness_Branches :
    State.reset.pcOk ∧ State.reset.readyRegs [needFlags 0x04#8] ∧ State.reset.readyRegs [needFlags 0x01#8] ∧
      State.reset.readyRegs [needFlags 0x08#8] ∧ State.reset.readyRegs [needFlags 0x10#8] := by
  unfold State.pcOk State.readyRegs
  decide

theorem witness_JumpsAndCalls : State.reset.readyRegs [needW, (statusAddr, 0xFF#8), (bsrAddr, 0xFF#8)] := by decide

/-- The whole of the stack: 31 calls from an empty one. -/
theorem witness_NestedCallsReturn :
    (∀ c ∈ Instr.call 0x00080#20 .normal :: List.replicate 30 (.rcall 0x3FF#11), isPlainCall c) ∧
      State.reset.sp.toNat + ((List.replicate 30 (Instr.rcall 0x3FF#11)).length + 1) ≤ 31 := by
  refine ⟨fun c hc => ?_, by decide⟩
  rcases List.mem_cons.1 hc with rfl | hc
  · exact .inl ⟨_, rfl⟩
  · exact .inr ⟨_, List.eq_of_mem_replicate hc⟩

theorem witness_FastCallAndReturn :
    State.reset.readyRegs [needW, (statusAddr, 0xFF#8), (bsrAddr, 0xFF#8)] ∧
      ∃ t, exec (.call 0x00080#20 .fast) State.reset = .next t ∧ SameShadow t t ∧
        t.readyRegs [needW, (statusAddr, 0xFF#8), (bsrAddr, 0xFF#8)] :=
  ⟨by decide, _, rfl, ⟨rfl, rfl, rfl⟩, by rfl⟩

theorem witness_ProgramMemoryNeverWritten : ∃ t, exec .tblwtPostInc State.reset = .next t ∧ t.run = .running := ⟨_, rfl, rfl⟩

theorem witness_CollisionAndSkipToPclRefused :
    (fsr0AtItself.missing (needsOf (.addwfc 0xEE#8 .file .access) fsr0AtItself) = none ∧
      fsr0AtItself.clashes (fsr0AtItself.resolve 0xEE#8 .access)) ∧
    ∀ x : DAddr × DAddr, x ∈ [(0xFEE#12, 0xFE9#12), (0x020#12, 0xFEE#12)] →
      (∀ y, y ∈ [x.1, x.2, (fsr0AtItself.operand x.1).ea, (movffDest x.1 x.2 fsr0AtItself).ea] →
        y ∉ [pclAddr, toslAddr, toshAddr, tosuAddr]) ∧
      fsr0AtItself.missing (operandNeeds x.1 ++ operandNeeds x.2 ++ readNeeds (fsr0AtItself.operand x.1)) = none ∧
      (collides (fsr0AtItself.operand x.1).upd (movffDest x.1 x.2 fsr0AtItself).ea = true ∨
        collides (movffDest x.1 x.2 fsr0AtItself).upd (movffDest x.1 x.2 fsr0AtItself).ea = true) := by
  have h1 : fsr0AtItself.operand 0xFEE#12 = ⟨0xFE9#12, some (.fsr0, 0xFEA#12), true⟩ := by rfl
  have h2 : movffDest 0xFEE#12 0xFE9#12 fsr0AtItself = ⟨0xFE9#12, none, false⟩ := by rfl
  have h3 : fsr0AtItself.operand 0x020#12 = ⟨0x020#12, none, false⟩ := by rfl
  have h4 : movffDest 0x020#12 0xFEE#12 fsr0AtItself = ⟨0xFE9#12, some (.fsr0, 0xFEA#12), true⟩ := by rfl
  refine ⟨by decide, fun x hx => ?_⟩
  simp only [List.mem_cons, List.not_mem_nil, or_false] at hx
  rcases hx with rfl | rfl
  · simp only [h1, h2]
    exact ⟨by simp; decide, by rfl, by decide⟩
  · simp only [h3, h4]
    exact ⟨by simp; decide, by rfl, by decide⟩

/-- W holds no value, and CLRF does not read it. -/
theorem witness_CollisionAndSkipToPclRefused_unknown :
    let s := (unknownReset.setCell fsr0lAddr 0xE9#8).setCell fsr0hAddr 0x0F#8
    s.missing (needsOf (.clrf 0xEE#8 .access) s) = none ∧ s.missing [needW] = some wregAddr ∧
      s.clashes (s.resolve 0xEE#8 .access) := by
  decide

theorem witness_CollisionAndSkipToPclRefused_skip :
    State.reset.ready (State.reset.resolve 0xF9#8 .access) [] ∧ (State.reset.operand (State.reset.resolve 0xF9#8 .access)).ea = pclAddr ∧
      fsr0AtPcl.ready (fsr0AtPcl.resolve 0xEF#8 .access) [] ∧ (fsr0AtPcl.operand (fsr0AtPcl.resolve 0xEF#8 .access)).ea = pclAddr := by
  decide

/-- A read of W, of an operand, of a pointer and of a flag without a value; MOVFF from a source and through a pointer without one; and
instructions whose reads all hold a value. -/
theorem witness_NoValueRefused :
    unknownReset.missing (needsOf (.addwf 0x20#8 .w .access) unknownReset) = some wregAddr ∧
      unknownReset.missing (needsOf (.tstfsz 0x81#8 .access) unknownReset) = some portbAddr ∧
      unknownReset.missing (needsOf (.clrf 0xEF#8 .access) unknownReset) = some fsr0lAddr ∧
      unknownReset.missing (needsOf (.bz 0x01#8) unknownReset) = some statusAddr ∧
      unknownReset.missing (needsOf (.movff 0xFE8#12 0x020#12) unknownReset) = some wregAddr ∧
      unknownReset.missing (needsOf (.movff 0x020#12 0xFEF#12) unknownReset) = some fsr0lAddr ∧
      unknownReset.missing (needsOf (.tstfsz 0x20#8 .access) unknownReset) = none ∧ unknownReset.run = .running ∧
      (∃ t, exec (.tstfsz 0x20#8 .access) unknownReset = .next t) ∧
      unknownReset.params.porSfrInit = .unknown ∧ State.reset.noValue = [] := by
  refine ⟨by decide, by decide, by decide, by decide, by decide, by decide, by decide, rfl, ⟨_, rfl⟩, by decide, rfl⟩

theorem witness_NoValueRefused_movff :
    movffUnrestricted 0xFE8#12 0x020#12 unknownReset ∧ movffUnrestricted 0x020#12 0xFEF#12 unknownReset := by
  unfold movffUnrestricted
  decide

theorem witness_FaultsAreAllOrNothing :
    ∀ i : Instr, i ∈ [.sleep, .movff 0xFF9#12 0x020#12, .incfsz 0xF9#8 .file .access] →
      ∃ t, exec i State.reset = .next t ∧ t.run ≠ State.reset.run := by
  intro i hi
  simp only [List.mem_cons, List.not_mem_nil, or_false] at hi
  rcases hi with rfl | rfl | rfl
  · exact ⟨_, rfl, by decide⟩
  · exact ⟨_, rfl, by decide⟩
  · exact ⟨_, rfl, by decide⟩

theorem witness_StackFaultsRecorded :
    (∃ t, exec .pop State.reset = .next t ∧ t.stackFaults = [{ kind := .underflow, pc0 := 0#21 }]) ∧
      ∃ t, exec .push { State.reset with sp := 31#5 } = .next t ∧ t.stackFaults = [{ kind := .overflow, pc0 := 0#21 }] :=
  ⟨⟨_, rfl, rfl⟩, _, rfl, rfl⟩

/-- A state of the invariant that is not the reset state, and its step. -/
theorem witness_StepKeepsInvariant :
    ({ withCells [(0xFE8, 0x12)] with pc := 0x1FFFFE#21 } : State).Inv ∧
      ∃ t, step { withCells [(0xFE8, 0x12)] with pc := 0x1FFFFE#21 } = .next t ∧ t.pc = 0#21 := by
  refine ⟨?_, _, rfl, by decide⟩
  unfold State.Inv State.memoryOk State.dataOk State.noValueOk State.progOk State.pcOk
  decide

theorem witness_HostKeepsInvariant :
    (∃ t, hostWrite State.reset 0x2FF 0xFF = .ok t) ∧ (∃ t, hostWritePc State.reset 0x1FFFFE = .ok t) ∧
      (∃ t, loadRecords 0#16 [.extended 0x001F#16, .data 0xFFFF#16 [0x12#8], .endOfFile] State.reset = .ok t) ∧
      (∃ t, bridgeWrite State.reset .trisb 0x00#8 = .ok t) ∧ ∃ t, bridgeSetBit State.reset .porta 7#3 true = .ok t :=
  ⟨⟨_, rfl⟩, ⟨_, rfl⟩, ⟨_, rfl⟩, ⟨_, rfl⟩, _, by
    have h1 : State.reset.hostByte portaAddr = 0x00#8 := by
      have h2 : State.reset.unset portaAddr = 0x00#8 := by decide
      rw [State.hostByte, h2, BitVec.and_zero]
      decide
    have h3 : bridgeRead State.reset .porta = .ok 0x00#8 := h1 ▸ rfl
    simp only [bridgeSetBit, h3]
    rfl⟩

/-- The last byte of program memory, and the first one beyond it. -/
theorem witness_ProgramLoad :
    (∀ n : Nat, n < [0x12#8].length → 65536 * (0x001F#16).toNat + (0xFFFF#16).toNat + n < State.reset.params.progBytes) ∧
      State.reset.params.progBytes < 65536 * (0x001F#16).toNat + (0xFFFF#16).toNat + [0x12#8, 0x34#8].length ∧
      State.reset.params.progBytes < 65536 * (0xFFFF#16).toNat + (0xFFFF#16).toNat + [0x12#8].length := by decide

theorem witness_HostAccess :
    isView (BitVec.ofNat 12 0xFFF) = true ∧ isView (BitVec.ofNat 12 0xFF9) = true ∧ isGap (BitVec.ofNat 12 0x300) = true ∧
      isStorage (BitVec.ofNat 12 0x2FF) = true ∧ State.reset.unset (BitVec.ofNat 12 0x2FF) = 0x00#8 ∧
      (unknownReset.unset statusAddr).getLsbD 7 = false ∧ (State.reset.unset statusAddr).getLsbD 4 = false ∧ 0x1FFFFE < State.reset.params.progBytes ∧ State.reset.params.progBytes ≤ 0x200000 := by decide

theorem witness_HostStepping :
    (∃ t, step State.reset = .next t) ∧ step { State.reset with run := .halted } = .fault .coreHalted ∧
      (hostSteps 3 { State.reset with run := .halted }).1 < 3 := ⟨⟨_, rfl⟩, rfl, by decide⟩

/-- The hypotheses on the operand are those of `witness_operands` and `witness_MoveFileToFile`. -/
theorem witness_TraceEvents :
    State.reset.run = .running ∧ (fetch (State.reset.withFetchWord 32 0xF020C030)).size = 4 ∧ (fetch State.reset).size = 2 ∧
      runInstr (.incfsz 0xF9#8 .file .access) State.reset = .error (.refused 0#21 .skipWritesPcl) ∧
      State.reset.missing (needsOf (.movff 0xFEE#12 0xFED#12) State.reset) = none := by decide

theorem witness_TraceEvents_movff : movffUnrestricted 0xFEE#12 0xFED#12 State.reset := by
  unfold movffUnrestricted
  decide

end Sys2Proof.Tests
end

