-- ==== Sys2Proof/Proofs/OperandAddresses.lean ====
section
/-! PROOFS. Proofs/OperandAddresses.lean: the address resolver (R64, R65) and the access descriptors (R66) of spec/20_memory.md. -/

namespace Sys2Proof.Machine

/-! ## The address resolver (R64, R65) -/

section
variable (bsr f : Byte)

theorem resolve_banked : resolve bsr f .banked = bsr.extractLsb 3 0 ++ f := rfl

theorem resolve_access : resolve bsr f .access = if f.toNat < 0x80 then 0x0#4 ++ f else 0xF#4 ++ f := rfl

/-- The access bank: its low window is 0x000 to 0x07F, its high window 0xF80 to 0xFFF. -/
theorem toNat_resolve_access :
    (resolve bsr f .access).toNat = if f.toNat < 0x80 then f.toNat else 0xF00 ||| f.toNat := by
  have low : (0x0#4 ++ f : DAddr).toNat = f.toNat := by simpa using toNat_nibble_byte 0x0#4 f
  have high : (0xF#4 ++ f : DAddr).toNat = 0xF00 ||| f.toNat := BitVec.toNat_append 0xF#4 f
  rw [resolve_access, apply_ite BitVec.toNat, low, high]

theorem toNat_resolve_banked (h : bsr.toNat < 16) :
    (resolve bsr f .banked).toNat = bsr.toNat <<< 8 ||| f.toNat := by
  have bank : (bsr.extractLsb 3 0).toNat = bsr.toNat := by
    rw [toNat_field]
    omega
  have concat : (bsr.extractLsb 3 0 ++ f : DAddr).toNat = (bsr.extractLsb 3 0).toNat <<< 8 ||| f.toNat :=
    BitVec.toNat_append (bsr.extractLsb 3 0) f
  rw [resolve_banked, concat, bank]

end

/-- Settles O15: the two banks of the resolver, each as a number; R65's symmetry is that `resolve_access` does not name BSR. -/
theorem resolveAddress : Obligations.ResolveAddress := by
  refine ⟨fun _ _ _ => rfl, fun bsr bsr' f => ⟨resolve_banked bsr f, toNat_resolve_access bsr f, ?_, toNat_resolve_banked bsr f⟩⟩
  rw [resolve_access bsr, resolve_access bsr']

/-! ## The table of the indirect-access addresses (R66) -/

/-- The data addresses of `indirectTable`. -/
def indirectAddrs : List DAddr := indirectTable.map fun row => BitVec.ofNat 12 row.1

/-- Every row's number is that of a data address, so that the table's numbers and its data addresses say the same. -/
theorem indirectTable_isDAddr : ∀ row ∈ indirectTable, row.1 < 2 ^ 12 := by decide

theorem isIndirect_iff_mem (a : DAddr) : isIndirect a = true ↔ a ∈ indirectAddrs := by
  simp only [isIndirect, indirectOf, Option.isSome_map, List.find?_isSome, beq_iff_eq, indirectAddrs, List.mem_map]
  refine exists_congr fun row => and_congr_right fun hrow => ?_
  constructor
  · intro h
    simp [h]
  · rintro rfl
    rw [BitVec.toNat_ofNat, Nat.mod_eq_of_lt (indirectTable_isDAddr row hrow)]

/-- R66: the five indirect-access addresses of a pointer stand next to each other, INDF the highest. -/
def IndMode.addr (m : IndMode) (n : Fsr) : DAddr :=
  let indf : DAddr := match n with
    | .fsr0 => 0xFEF#12
    | .fsr1 => 0xFE7#12
    | .fsr2 => 0xFDF#12
  match m with
  | .indf => indf
  | .postinc => indf - 1#12
  | .postdec => indf - 2#12
  | .preinc => indf - 3#12
  | .plusw => indf - 4#12

theorem indirectOf_addr (m : IndMode) (n : Fsr) : indirectOf (m.addr n) = some (m, n) := by
  cases m <;> cases n <;> rfl

/-! ## The descriptor each mode gives (R66) -/

section
variable (s : State) (n : Fsr)

theorem State.operand_indf : s.operand (IndMode.indf.addr n) = { ea := s.ptr n, upd := none, ind := true } := by
  simp [State.operand, operandWith, indirectOf_addr]

theorem State.operand_postinc :
    s.operand (IndMode.postinc.addr n) = { ea := s.ptr n, upd := some (n, s.ptr n + 1#12), ind := true } := by
  simp [State.operand, operandWith, indirectOf_addr]

theorem State.operand_postdec :
    s.operand (IndMode.postdec.addr n) = { ea := s.ptr n, upd := some (n, s.ptr n - 1#12), ind := true } := by
  simp [State.operand, operandWith, indirectOf_addr]

theorem State.operand_preinc :
    s.operand (IndMode.preinc.addr n) = { ea := s.ptr n + 1#12, upd := some (n, s.ptr n + 1#12), ind := true } := by
  simp [State.operand, operandWith, indirectOf_addr]

/-- W is a signed offset, and the sum is taken mod 4096. -/
theorem State.operand_plusw :
    s.operand (IndMode.plusw.addr n) = { ea := BitVec.ofInt 12 ((s.ptr n).toNat + s.w.toInt), upd := none, ind := true } := by
  have sum : BitVec.ofInt 12 ((s.ptr n).toNat + s.w.toInt) = s.ptr n + s.w.signExtend 12 := by
    rw [BitVec.ofInt_add, BitVec.ofInt_natCast, BitVec.ofNat_toNat, BitVec.setWidth_eq, BitVec.signExtend]
  simp [State.operand, operandWith, indirectOf_addr, sum]

end

/-- R211: MOVFF's destination sees the pointer its source moved, and the other pointers as they were. -/
theorem movffDest_eq (fs fd : DAddr) (s : State) :
    movffDest fs fd s = operandWith (ptrAfter (s.operand fs).upd s.ptr) s.w fd := rfl

/-- Settles O16: the fifteen addresses of the table mode by mode, the addresses outside it, and MOVFF's second descriptor. -/
theorem operandDescriptors : Obligations.OperandDescriptors := by
  intro s
  refine ⟨fun n indf postinc postdec preinc plusw h => ?_, fun a ha => ?_, fun fs fd => ?_⟩
  · have addrs : indf = IndMode.indf.addr n ∧ postinc = IndMode.postinc.addr n ∧ postdec = IndMode.postdec.addr n ∧
        preinc = IndMode.preinc.addr n ∧ plusw = IndMode.plusw.addr n := by
      simp only [List.mem_cons, List.not_mem_nil, or_false, Prod.mk.injEq] at h
      rcases h with ⟨rfl, rfl, rfl, rfl, rfl, rfl⟩ | ⟨rfl, rfl, rfl, rfl, rfl, rfl⟩ | ⟨rfl, rfl, rfl, rfl, rfl, rfl⟩ <;> decide
    obtain ⟨rfl, rfl, rfl, rfl, rfl⟩ := addrs
    exact ⟨s.operand_indf n, s.operand_postinc n, s.operand_postdec n, s.operand_preinc n, s.operand_plusw n⟩
  · have direct : isIndirect a = false := Bool.eq_false_iff.mpr fun h => ha ((isIndirect_iff_mem a).mp h)
    exact State.operand_none direct
  · rw [movffDest_eq]
    cases (s.operand fs).upd <;> rfl

end Sys2Proof.Machine
end

