-- ==== Sys2Proof/Proofs/Decoder.lean ====
section
/-! PROOFS. Proofs/Decoder.lean: the decoder of spec/30_encoding.md as a map of the first words (R105, R106), and what a first word of
each format decodes to (R101, R107, R110). -/

namespace Sys2Proof

/-! ## Ranges of first words (R106) -/

/-- The first words from `lo` up to, and without, `hi`. -/
structure WordRange where
  lo : Nat
  hi : Nat

def WordRange.Holds (p : WordRange) (w : Word16) : Prop := p.lo ≤ w.toNat ∧ w.toNat < p.hi

/-- No word is in both ranges. -/
def WordRange.Apart (p q : WordRange) : Prop := p.hi ≤ q.lo ∨ q.hi ≤ p.lo

theorem WordRange.Apart.symm {p q : WordRange} (h : p.Apart q) : q.Apart p := Or.symm h

theorem WordRange.Apart.not_holds {p q : WordRange} {w : Word16} (h : p.Apart q) (hp : p.Holds w) : ¬q.Holds w := by
  unfold WordRange.Apart WordRange.Holds at *
  omega

/-- The ranges of the list follow one another, from `a` up to `b`, with no gap and no overlap. -/
def tiles : List WordRange → Nat → Nat → Bool
  | [], a, b => a == b
  | p :: ps, a, b => p.lo == a && decide (a ≤ p.hi) && tiles ps p.hi b

theorem tiles_cons_iff {p : WordRange} {ps : List WordRange} {a b : Nat} :
    tiles (p :: ps) a b = true ↔ p.lo = a ∧ a ≤ p.hi ∧ tiles ps p.hi b = true := by
  simp [tiles, and_assoc]

theorem exists_holds_of_tiles {ps : List WordRange} {a b : Nat} {w : Word16} (h : tiles ps a b = true) (ha : a ≤ w.toNat)
    (hb : w.toNat < b) : ∃ p ∈ ps, p.Holds w := by
  induction ps generalizing a with
  | nil =>
    have hab : a = b := by simpa [tiles] using h
    omega
  | cons p ps ih =>
    obtain ⟨hlo, -, hrest⟩ := tiles_cons_iff.1 h
    by_cases hp : w.toNat < p.hi
    · exact ⟨p, List.mem_cons_self, by omega, hp⟩
    · obtain ⟨q, hq, hw⟩ := ih hrest (by omega)
      exact ⟨q, List.mem_cons_of_mem p hq, hw⟩

theorem le_lo_of_tiles {ps : List WordRange} {a b : Nat} (h : tiles ps a b = true) : ∀ p ∈ ps, a ≤ p.lo := by
  induction ps generalizing a with
  | nil => simp
  | cons p ps ih =>
    obtain ⟨hlo, hhi, hrest⟩ := tiles_cons_iff.1 h
    rintro q (_ | ⟨_, hq⟩)
    · exact hlo.ge
    · exact hhi.trans (ih hrest q hq)

theorem pairwise_apart_of_tiles {ps : List WordRange} {a b : Nat} (h : tiles ps a b = true) : ps.Pairwise WordRange.Apart := by
  induction ps generalizing a with
  | nil => exact .nil
  | cons p ps ih =>
    obtain ⟨-, -, hrest⟩ := tiles_cons_iff.1 h
    exact .cons (fun q hq => .inl (le_lo_of_tiles hrest q hq)) (ih hrest)

/-! ## The words of a row (R105) -/

/-- A mask of leading ones clears the bits below it. -/
theorem toNat_and_leadingOnes {n : Nat} (v : BitVec n) (k : Nat) : (v &&& BitVec.allOnes n <<< k).toNat = v.toNat / 2 ^ k * 2 ^ k := by
  have hshift : v &&& BitVec.allOnes n <<< k = (v >>> k) <<< k := by
    ext i hi
    by_cases hik : i < k
    · simp [hik]
    · have hki : k + (i - k) = i := by omega
      simp [hik, hki, BitVec.getLsbD_eq_getElem hi]
  have hle : v.toNat / 2 ^ k * 2 ^ k ≤ v.toNat := Nat.div_mul_le_self _ _
  rw [hshift, BitVec.toNat_shiftLeft, BitVec.toNat_ushiftRight, Nat.shiftLeft_eq, Nat.shiftRight_eq_div_pow,
    Nat.mod_eq_of_lt (hle.trans_lt v.isLt)]

/-- A mask of leading ones matches the words of one range. -/
theorem and_leadingOnes_eq_iff {p : Word16} {k : Nat} (w : Word16) (hp : p &&& BitVec.allOnes 16 <<< k = p) :
    w &&& BitVec.allOnes 16 <<< k = p ↔ p.toNat ≤ w.toNat ∧ w.toNat < p.toNat + 2 ^ k := by
  have hpos : 0 < 2 ^ k := Nat.two_pow_pos k
  have hpat : p.toNat / 2 ^ k * 2 ^ k = p.toNat := by rw [← toNat_and_leadingOnes, hp]
  rw [← BitVec.toNat_inj, toNat_and_leadingOnes]
  conv_lhs => rw [← hpat]
  rw [Nat.mul_left_inj hpos.ne', Nat.div_eq_iff hpos, hpat]
  omega

/-- The range of the first words that a row matches. -/
def Row.range (r : Row) : WordRange := ⟨r.pat.toNat, r.pat.toNat + 2 ^ (16 - r.width)⟩

/-- Every mask is one of leading ones, as many as its opcode field is wide, and every match lies within its mask. -/
theorem opcodeRows_mask : ∀ r ∈ opcodeRows, r.mask = BitVec.allOnes 16 <<< (16 - r.width) ∧ r.pat &&& r.mask = r.pat := by decide

section
variable {r : Row} {w : Word16}

theorem Row.hits_iff_mask : r.hits w = true ↔ w &&& r.mask = r.pat := beq_iff_eq

theorem Row.hits_iff_range (hr : r ∈ opcodeRows) : r.hits w = true ↔ r.range.Holds w := by
  obtain ⟨hmask, hpat⟩ := opcodeRows_mask r hr
  rw [hmask] at hpat
  rw [Row.hits_iff_mask, hmask]
  exact and_leadingOnes_eq_iff w hpat

end

/-! ## The map of the first words (R106) -/

/-- The ranges that no row matches (R107, but for those of LFSR's words that fail its constraint). -/
def unclaimedRanges : List WordRange :=
  [⟨0x0001, 0x0003⟩, ⟨0x0014, 0x00FF⟩, ⟨0x0110, 0x0200⟩, ⟨0xE800, 0xEC00⟩, ⟨0xEE40, 0xEF00⟩]

def opcodeRanges : List WordRange := opcodeRows.map Row.range ++ unclaimedRanges

/-- The rows and the unclaimed ranges in the order of their words, as R106 lists them. -/
def opcodeMap : List WordRange := opcodeRanges.insertionSort fun p q => p.lo ≤ q.lo

/-- R106: every word has exactly one place in the map. -/
theorem tiles_opcodeMap : tiles opcodeMap 0 0x10000 = true := by decide

theorem opcodeMap_perm : opcodeMap.Perm opcodeRanges := List.perm_insertionSort _ _

theorem opcodeRanges_apart : opcodeRanges.Pairwise WordRange.Apart :=
  (opcodeMap_perm.pairwise_iff WordRange.Apart.symm).1 (pairwise_apart_of_tiles tiles_opcodeMap)

section
variable {r q : Row} {w : Word16}

/-- R105: no word matches two rows. -/
theorem Row.eq_of_hits (hr : r ∈ opcodeRows) (hq : q ∈ opcodeRows) (hrw : r.hits w = true) (hqw : q.hits w = true) : r = q := by
  by_contra hne
  obtain ⟨hrows, -, -⟩ := List.pairwise_append.1 opcodeRanges_apart
  have hsymm : Std.Symm fun r q : Row => r.range.Apart q.range := ⟨fun _ _ => WordRange.Apart.symm⟩
  have hapart : r.range.Apart q.range := (List.pairwise_map.1 hrows).forall hr hq hne
  exact hapart.not_holds ((Row.hits_iff_range hr).1 hrw) ((Row.hits_iff_range hq).1 hqw)

/-- An unclaimed word matches no row. -/
theorem not_hits_of_unclaimed {p : WordRange} (hp : p ∈ unclaimedRanges) (hw : p.Holds w) (hr : r ∈ opcodeRows) :
    ¬r.hits w = true := by
  obtain ⟨-, -, hapart⟩ := List.pairwise_append.1 opcodeRanges_apart
  rw [Row.hits_iff_range hr]
  exact (hapart r.range (List.mem_map_of_mem hr) p hp).symm.not_holds hw

/-- R106: every word is a row's, or unclaimed. -/
theorem hits_or_unclaimed (w : Word16) : (∃ r ∈ opcodeRows, r.hits w = true) ∨ ∃ p ∈ unclaimedRanges, p.Holds w := by
  obtain ⟨p, hp, hw⟩ := exists_holds_of_tiles tiles_opcodeMap w.toNat.zero_le w.isLt
  rcases List.mem_append.1 (opcodeMap_perm.mem_iff.1 hp) with h | h
  · obtain ⟨r, hr, rfl⟩ := List.mem_map.1 h
    exact .inl ⟨r, hr, (Row.hits_iff_range hr).2 hw⟩
  · exact .inr ⟨p, h, hw⟩

end

/-! ## What a word decodes to (R105) -/

section
variable {r : Row} {w : Word16}

/-- The row that a word matches decodes it; a word that fails the row's constraint is unrecognized (R107). -/
theorem decode_of_hits (hr : r ∈ opcodeRows) (hw : r.hits w = true) : decode w = (r.build w).getD .nop := by
  unfold decode
  cases hfound : opcodeRows.findSome? fun q => if q.hits w then q.build w else none with
  | none =>
    have hnone := List.findSome?_eq_none_iff.1 hfound r hr
    rw [if_pos hw] at hnone
    rw [hnone]
  | some i =>
    obtain ⟨q, hq, hqi⟩ := List.exists_of_findSome?_eq_some hfound
    obtain ⟨hqw, hbuild⟩ := Option.ite_none_right_eq_some.1 hqi
    rw [Row.eq_of_hits hr hq hw hqw, hbuild]

theorem decode_of_unclaimed {p : WordRange} (hp : p ∈ unclaimedRanges) (hw : p.Holds w) : decode w = .nop := by
  have hnone : (opcodeRows.findSome? fun r => if r.hits w then r.build w else none) = none := by
    rw [List.findSome?_eq_none_iff]
    intro r hr
    exact if_neg (not_hits_of_unclaimed hp hw hr)
  rw [decode, hnone, Option.getD_none]

end

/-! ## Every format, said once (R101, R107, R110) -/

/-- R107: a word is unrecognized when it fails LFSR's constraint (R110), or when no row matches it. -/
def Unrecognized (w : Word16) : Prop :=
  (w &&& 0xFFC0#16 = 0xEE00#16 ∧ fieldFsr w = 3#2) ∨ ∃ p ∈ unclaimedRanges, p.Holds w

/-- What a first word may decode to: the instructions of two words, with the fields that the second word supplies 0; NOP; or another
instruction of one word. -/
inductive FirstWord (w : Word16) : Instr → Prop where
  | call (h : w &&& 0xFE00#16 = 0xEC00#16) : FirstWord w (.call (0#12 ++ fieldLow8 w) (fieldS 8 w))
  | goto (h : w &&& 0xFF00#16 = 0xEF00#16) : FirstWord w (.goto (0#12 ++ fieldLow8 w))
  | movff (h : w &&& 0xF000#16 = 0xC000#16) : FirstWord w (.movff (fieldLow12 w) 0#12)
  | lfsr (h : w &&& 0xFFC0#16 = 0xEE00#16) (hf : fieldFsr w ≠ 3#2) : FirstWord w (.lfsr (fieldFsr w) (fieldLow4 w ++ 0#8))
  | nop (h : w = 0x0000#16 ∨ w &&& 0xF000#16 = 0xF000#16 ∨ Unrecognized w) : FirstWord w .nop
  | oneWord {i : Instr} (hi : i.wellFormed = true) (hone : i.twoWord = false) (hne : i ≠ .nop) : FirstWord w i

/-- A row whose every word is an instruction of one word other than NOP. -/
def Row.Plain (r : Row) : Prop := ∀ w, ∃ i, r.build w = some i ∧ i.wellFormed = true ∧ i.twoWord = false ∧ i ≠ .nop

/-- The rows that are not plain: the four of two words and the two of NOP. -/
def specialRows : List Row := [rowCall, rowGoto, rowMovff, rowLfsr, rowInh 0x0000#16 .nop, rowNopx]

theorem plain_or_special : ∀ r ∈ opcodeRows, r.Plain ∨ r ∈ specialRows := by
  intro r hr
  fin_cases hr
  -- The plain rows build a term of one constructor; what is left are the six special ones.
  all_goals try exact .inl fun _ => ⟨_, rfl, rfl, rfl, fun h => Instr.noConfusion h⟩
  all_goals exact .inr (by simp [specialRows])

theorem specialRows_subset : specialRows ⊆ opcodeRows := by
  simp only [specialRows, opcodeRows, rowsInherent, rowsLow8, rowsByteA, rowsWidth4, List.cons_subset, List.nil_subset,
    List.mem_append, List.mem_cons, true_or, or_true, and_self]

section
variable {w : Word16}

theorem decode_of_special {r : Row} (hr : r ∈ specialRows) (hw : w &&& r.mask = r.pat) : decode w = (r.build w).getD .nop :=
  decode_of_hits (specialRows_subset hr) (Row.hits_iff_mask.2 hw)

theorem decode_call (h : w &&& 0xFE00#16 = 0xEC00#16) : decode w = .call (0#12 ++ fieldLow8 w) (fieldS 8 w) :=
  decode_of_special (r := rowCall) (by simp [specialRows]) h

theorem decode_goto (h : w &&& 0xFF00#16 = 0xEF00#16) : decode w = .goto (0#12 ++ fieldLow8 w) :=
  decode_of_special (r := rowGoto) (by simp [specialRows]) h

theorem decode_movff (h : w &&& 0xF000#16 = 0xC000#16) : decode w = .movff (fieldLow12 w) 0#12 :=
  decode_of_special (r := rowMovff) (by simp [specialRows]) h

theorem decode_nopx (h : w &&& 0xF000#16 = 0xF000#16) : decode w = .nop :=
  decode_of_special (r := rowNopx) (by simp [specialRows]) h

theorem decode_lfsr (h : w &&& 0xFFC0#16 = 0xEE00#16) :
    decode w = if fieldFsr w = 3#2 then .nop else .lfsr (fieldFsr w) (fieldLow4 w ++ 0#8) := by
  rw [decode_of_special (r := rowLfsr) (by simp [specialRows]) h]
  by_cases hf : fieldFsr w = 3#2 <;> simp [rowLfsr, hf]

theorem decode_unrecognized (h : Unrecognized w) : decode w = .nop := by
  rcases h with ⟨hw, hf⟩ | ⟨p, hp, hw⟩
  · rw [decode_lfsr hw, if_pos hf]
  · exact decode_of_unclaimed hp hw

/-- R105: the decoder, inverted: the word of each format, and nothing else, decodes to an instruction of that format. -/
theorem decode_firstWord (w : Word16) : FirstWord w (decode w) := by
  rcases hits_or_unclaimed w with ⟨r, hr, hw⟩ | ⟨p, hp, hw⟩
  · rcases plain_or_special r hr with hplain | hspecial
    · obtain ⟨i, hbuild, hi, hone, hne⟩ := hplain w
      rw [decode_of_hits hr hw, hbuild]
      exact .oneWord hi hone hne
    · rw [Row.hits_iff_mask] at hw
      simp only [specialRows, List.mem_cons, List.not_mem_nil, or_false] at hspecial
      rcases hspecial with rfl | rfl | rfl | rfl | rfl | rfl
      · rw [decode_call hw]
        exact .call hw
      · rw [decode_goto hw]
        exact .goto hw
      · rw [decode_movff hw]
        exact .movff hw
      · rw [decode_lfsr hw]
        split
        · next hf => exact .nop (.inr (.inr (.inl ⟨hw, hf⟩)))
        · next hf => exact .lfsr hw hf
      · have hzero : w = 0x0000#16 := BitVec.and_allOnes.symm.trans hw
        rw [hzero]
        exact .nop (.inl rfl)
      · rw [decode_nopx hw]
        exact .nop (.inr (.inl hw))
  · rw [decode_of_unclaimed hp hw]
    exact .nop (.inr (.inr (.inr ⟨p, hp, hw⟩)))

theorem firstWord_of_decode {i : Instr} (h : decode w = i) : FirstWord w i := h ▸ decode_firstWord w

end

end Sys2Proof
end

