-- ==== Sys2Proof/Proofs/Encoding.lean ====
section
/-! PROOFS. Proofs/Encoding.lean: the length of an instruction, the unrecognized words, the second word and the stopped core (R104,
R107, R108, R110 and R121 of spec/30_encoding.md). -/

namespace Sys2Proof

/-! ## The length of an instruction (R104) -/

section
variable {w : Word16}

theorem twoWord_decode_iff : (decode w).twoWord = true ↔
    w &&& 0xFE00#16 = 0xEC00#16 ∨ w &&& 0xFF00#16 = 0xEF00#16 ∨ (w &&& 0xFFC0#16 = 0xEE00#16 ∧ fieldFsr w ≠ 3#2) ∨
      w &&& 0xF000#16 = 0xC000#16 := by
  constructor
  · intro htwo
    generalize hi : decode w = i at htwo
    cases firstWord_of_decode hi with
    | call h => exact .inl h
    | goto h => exact .inr (.inl h)
    | lfsr h hf => exact .inr (.inr (.inl ⟨h, hf⟩))
    | movff h => exact .inr (.inr (.inr h))
    | nop => simp [Instr.twoWord] at htwo
    | oneWord _ hone => simp [hone] at htwo
  · rintro (h | h | ⟨h, hf⟩ | h)
    · rw [decode_call h]
      rfl
    · rw [decode_goto h]
      rfl
    · rw [decode_lfsr h, if_neg hf]
      simpa [Instr.twoWord] using hf
    · rw [decode_movff h]
      rfl

theorem twoWord_decodeWords (w1 w2 : Word16) : (decodeWords w1 w2).twoWord = (decode w1).twoWord := by
  unfold decodeWords
  split
  · next h => rw [Machine.twoWord_fold h, h]
  · rfl

end

/-- Settles O5: the second word does not change the length, and the first gives it format by format. -/
theorem lengthFromFirstWord : Obligations.LengthFromFirstWord := by
  intro w1 w2
  rw [Instr.size, twoWord_decodeWords]
  exact if_congr twoWord_decode_iff rfl rfl

/-! ## The unrecognized words (R107) -/

section
variable {w : Word16}

theorem lfsr_mask_iff : w &&& 0xFFC0#16 = 0xEE00#16 ↔ 0xEE00 ≤ w.toNat ∧ w.toNat < 0xEE40 :=
  and_leadingOnes_eq_iff (p := 0xEE00#16) (k := 6) w rfl

theorem nopx_mask_iff : w &&& 0xF000#16 = 0xF000#16 ↔ 0xF000 ≤ w.toNat ∧ w.toNat < 0x10000 :=
  and_leadingOnes_eq_iff (p := 0xF000#16) (k := 12) w rfl

theorem fieldFsr_eq_three_iff : fieldFsr w = 3#2 ↔ w.toNat / 16 % 4 = 3 := by
  have hfield : (fieldFsr w).toNat = w.toNat / 16 % 4 := toNat_field 5 4 w
  rw [← BitVec.toNat_inj, hfield]
  rfl

/-- The words of R107, as the spec lists them. -/
theorem unrecognized_iff : Unrecognized w ↔
    w = 0x0001#16 ∨ w = 0x0002#16 ∨ (0x0014#16 ≤ w ∧ w ≤ 0x00FE#16) ∨ (0x0110#16 ≤ w ∧ w ≤ 0x01FF#16) ∨
      (0xE800#16 ≤ w ∧ w ≤ 0xEBFF#16) ∨ (0xEE30#16 ≤ w ∧ w ≤ 0xEEFF#16) := by
  rw [Unrecognized, lfsr_mask_iff, fieldFsr_eq_three_iff]
  simp only [unclaimedRanges, List.exists_mem_cons_iff, List.not_mem_nil, false_and, exists_false, or_false, WordRange.Holds,
    BitVec.le_def, ← BitVec.toNat_inj, BitVec.toNat_ofNat]
  omega

theorem Unrecognized.lt (h : Unrecognized w) : 0 < w.toNat ∧ w.toNat < 0xF000 := by
  rw [unrecognized_iff] at h
  simp only [BitVec.le_def, ← BitVec.toNat_inj, BitVec.toNat_ofNat] at h
  omega

/-- R107: the unrecognized words are the NOPs that neither of its rows encodes. -/
theorem unrecognized_iff_decode : Unrecognized w ↔ w ≠ 0x0000#16 ∧ w &&& 0xF000#16 ≠ 0xF000#16 ∧ decode w = .nop := by
  constructor
  · intro h
    obtain ⟨hpos, hlt⟩ := h.lt
    refine ⟨?_, fun hx => ?_, decode_unrecognized h⟩
    · rintro rfl
      exact absurd hpos (by decide)
    · exact absurd (nopx_mask_iff.1 hx).1 (by omega)
  · rintro ⟨hzero, hx, hnop⟩
    cases firstWord_of_decode hnop with
    | nop h => exact (h.resolve_left hzero).resolve_left hx
    | oneWord _ _ hne => exact absurd rfl hne

end

/-- R300, R107: NOP changes nothing but the PC. -/
theorem Machine.exec_nop (s : Machine.State) : Machine.exec .nop s = .next { s with pc := Machine.seqPc s 2 false } := by
  rw [Machine.seqPc_eq_pcPlus]
  exact Machine.runState_spec id 2#21

/-- Settles O6: the unrecognized words are read off the map of the first words; the effect is NOP's. -/
theorem unrecognizedWordsAreNops : Obligations.UnrecognizedWordsAreNops :=
  ⟨fun _ => unrecognized_iff.symm.trans unrecognized_iff_decode, rfl, Machine.exec_nop⟩

/-! ## The second word (R108) -/

theorem low_byte_of_concat (x : Byte) : (0#12 ++ x : BitVec 20).extractLsb 7 0 = x := by
  apply BitVec.eq_of_toNat_eq
  have hconcat : (0#12 ++ x : BitVec 20).toNat = 0 * 2 ^ 8 + x.toNat := toNat_concat 0#12 x
  have := x.isLt
  rw [toNat_field, hconcat]
  omega

theorem high_nibble_of_concat (x : BitVec 4) : (x ++ 0#8 : BitVec 12).extractLsb 11 8 = x := by
  apply BitVec.eq_of_toNat_eq
  have hconcat : (x ++ 0#8 : BitVec 12).toNat = x.toNat * 2 ^ 8 + 0 := toNat_concat x 0#8
  have := x.isLt
  rw [toNat_field, hconcat]
  omega

/-- The low twelve bits of a word are all that its field of twelve bits holds. -/
theorem fieldLow12_and (w : Word16) : fieldLow12 (w &&& 0x0FFF#16) = fieldLow12 w := by
  apply BitVec.eq_of_toNat_eq
  have hmask : (w &&& 0x0FFF#16).toNat = w.toNat % 2 ^ 12 := Nat.and_two_pow_sub_one_eq_mod w.toNat 12
  rw [fieldLow12, fieldLow12, toNat_field, toNat_field, hmask]
  omega

theorem fieldLow8_and (w : Word16) : fieldLow8 (w &&& 0x00FF#16) = fieldLow8 w := by
  apply BitVec.eq_of_toNat_eq
  have hmask : (w &&& 0x00FF#16).toNat = w.toNat % 2 ^ 8 := Nat.and_two_pow_sub_one_eq_mod w.toNat 8
  rw [fieldLow8, fieldLow8, toNat_field, toNat_field, hmask]
  omega

section
variable {w1 w2 w2' : Word16}

theorem fieldLow12_congr (h : w2 &&& 0x0FFF#16 = w2' &&& 0x0FFF#16) : fieldLow12 w2 = fieldLow12 w2' := by
  rw [← fieldLow12_and w2, h, fieldLow12_and]

theorem fieldLow8_congr (h : w2 &&& 0x00FF#16 = w2' &&& 0x00FF#16) : fieldLow8 w2 = fieldLow8 w2' := by
  rw [← fieldLow8_and w2, h, fieldLow8_and]

theorem low8_of_low12 (h : w2 &&& 0x0FFF#16 = w2' &&& 0x0FFF#16) : w2 &&& 0x00FF#16 = w2' &&& 0x00FF#16 := by
  have hmask (w : Word16) : w &&& 0x00FF#16 = w &&& 0x0FFF#16 &&& 0x00FF#16 := (BitVec.and_assoc w 0x0FFF#16 0x00FF#16).symm
  rw [hmask w2, h, ← hmask]

/-- What a second word supplies is in its fields. -/
theorem fold_congr (op : Instr) (h12 : fieldLow12 w2 = fieldLow12 w2') (h8 : fieldLow8 w2 = fieldLow8 w2') :
    fold op w2 = fold op w2' := by
  unfold fold
  rw [h12, h8]

theorem decodeWords_congr (h : fold (decode w1) w2 = fold (decode w1) w2') : decodeWords w1 w2 = decodeWords w1 w2' := by
  rw [decodeWords, decodeWords, h]

theorem decodeWords_of_decode {i : Instr} (h : decode w1 = i) (htwo : i.twoWord = true) (w2 : Word16) :
    decodeWords w1 w2 = fold i w2 := by
  rw [decodeWords, h, if_pos htwo]

theorem decodeWords_call {k : BitVec 20} {sel : Speed} (h : decode w1 = .call k sel) (w2 : Word16) :
    decodeWords w1 w2 = .call (fieldLow12 w2 ++ fieldLow8 w1) sel := by
  rw [decodeWords_of_decode h rfl]
  cases firstWord_of_decode h with
  | call => rw [fold, low_byte_of_concat]
  | oneWord _ hone => cases hone

theorem decodeWords_goto {k : BitVec 20} (h : decode w1 = .goto k) (w2 : Word16) :
    decodeWords w1 w2 = .goto (fieldLow12 w2 ++ fieldLow8 w1) := by
  rw [decodeWords_of_decode h rfl]
  cases firstWord_of_decode h with
  | goto => rw [fold, low_byte_of_concat]
  | oneWord _ hone => cases hone

theorem decodeWords_movff {fs fd : DAddr} (h : decode w1 = .movff fs fd) (w2 : Word16) :
    decodeWords w1 w2 = .movff (fieldLow12 w1) (fieldLow12 w2) := by
  rw [decodeWords_of_decode h rfl]
  cases firstWord_of_decode h with
  | movff => rfl
  | oneWord _ hone => cases hone

theorem decodeWords_lfsr {f : BitVec 2} {k : BitVec 12} (h : decode w1 = .lfsr f k) (w2 : Word16) :
    decodeWords w1 w2 = .lfsr f (fieldLow4 w1 ++ fieldLow8 w2) := by
  cases firstWord_of_decode h with
  | lfsr _ hf => rw [decodeWords_of_decode h (bne_iff_ne.2 hf), fold, high_nibble_of_concat]
  | oneWord hi hone => exact Bool.noConfusion (hi.symm.trans hone)

end

/-- Settles O7: format by format, the fields that `fold` supplies; what agrees on the fields folds alike. -/
theorem secondWordBits : Obligations.SecondWordBits := by
  intro w1 w2 w2'
  refine ⟨fun k sel h => decodeWords_call h w2, fun k h => decodeWords_goto h w2, fun fs fd h => decodeWords_movff h w2,
    fun f k h => decodeWords_lfsr h w2, fun h => ?_, fun hlfsr h => ?_⟩
  · exact decodeWords_congr (fold_congr _ (fieldLow12_congr h) (fieldLow8_congr (low8_of_low12 h)))
  · apply decodeWords_congr
    rw [decode_lfsr hlfsr]
    split
    · rfl
    · rw [fold, fold, fieldLow8_congr h]

/-! ## LFSR without FSR3 (R110) -/

theorem decodeBytes_oneWord {w : Word16} (h : (decode w).twoWord = false) (rest : List Byte) :
    decodeBytes (w.extractLsb 7 0 :: w.extractLsb 15 8 :: rest) = .ok (decode w, rest) := by
  have hword : wordOf (w.extractLsb 7 0) (w.extractLsb 15 8) = w := byte_byte_fields w
  simp [decodeBytes, hword, h]

theorem lfsr3_iff {w : Word16} : w &&& 0xFFC0#16 = 0xEE00#16 ∧ fieldFsr w = 3#2 ↔ 0xEE30#16 ≤ w ∧ w ≤ 0xEE3F#16 := by
  simp only [lfsr_mask_iff, fieldFsr_eq_three_iff, BitVec.le_def, BitVec.toNat_ofNat]
  omega

/-- Settles O8: a word of LFSR's mask that fails its constraint is unrecognized; words that start with 1111 are in NOP's second row. -/
theorem lfsrHasNoFsr3 : Obligations.LfsrHasNoFsr3 := by
  refine ⟨fun w hlo hhi => ?_, fun w h => ⟨decode_nopx h, Machine.exec_nop⟩, fun _ => rfl⟩
  obtain ⟨hmask, hfsr⟩ := lfsr3_iff.2 ⟨hlo, hhi⟩
  have hnop : decode w = .nop := decode_unrecognized (.inl ⟨hmask, hfsr⟩)
  refine ⟨hmask, hnop, fun rest => ?_⟩
  rw [decodeBytes_oneWord (by rw [hnop]; rfl), hnop]

/-! ## A stopped core (R121) -/

namespace Machine

theorem hostSteps_of_no_next {s : State} (h : ∀ t, step s ≠ .next t) (n : Nat) : hostSteps n s = (0, s) := by
  cases n with
  | zero => rfl
  | succ k =>
    rw [hostSteps]
    split
    · next t hstep => exact absurd hstep (h t)
    · rfl

theorem step_ne_next_of_stopped {s t : State} (h : s.run ≠ .running) : step s ≠ .next t := by
  rcases step_cases s with ⟨hrun, -⟩ | ⟨-, hstep⟩ | ⟨why, -, hstep⟩
  · exact absurd hrun h
  · simp [hstep]
  · simp [hstep]

end Machine

/-- Settles O10: a stopped core faults, so the host's first step of it is its last. -/
theorem stoppedCoreHasNoStep : Obligations.StoppedCoreHasNoStep := by
  intro s hstop
  have hrun : s.run ≠ .running := by
    rcases hstop with h | ⟨why, h⟩ <;> simp [h]
  exact ⟨fun t => Machine.step_ne_next_of_stopped hrun, Machine.hostSteps_of_no_next fun t => Machine.step_ne_next_of_stopped hrun⟩

end Sys2Proof
end

