-- ==== Sys2Proof/Proofs/Adder.lean ====
section
/-! PROOFS. Proofs/Adder.lean: the adder, the subtraction and their laws (R130 to R132 of spec/40_arithmetic.md). -/

namespace Sys2Proof.Machine

/-! ## The adder (R130) -/

/-- Bit 7 is the sign. -/
theorem getLsbD_seven (x : Byte) : x.getLsbD 7 = x.msb := (BitVec.msb_eq_getLsbD_last x).symm

section
variable (a b : Byte) (cin : Bool)

theorem toNat_add8 : (add8 a b cin).1.toNat = (a.toNat + b.toNat + cin.toNat) % 256 := BitVec.toNat_ofNat _ 8

theorem add8_c_iff : (add8 a b cin).2.c = true ↔ a.toNat + b.toNat + cin.toNat > 0xFF := decide_eq_true_iff

theorem add8_dc_iff : (add8 a b cin).2.dc = true ↔ a.toNat % 16 + b.toNat % 16 + cin.toNat > 0xF := decide_eq_true_iff

theorem add8_z_iff : (add8 a b cin).2.z = true ↔ (add8 a b cin).1 = 0x00#8 := beq_iff_eq

theorem add8_n : (add8 a b cin).2.n = (add8 a b cin).1.msb := rfl

theorem add8_ov_iff : (add8 a b cin).2.ov = true ↔ a.msb = b.msb ∧ (add8 a b cin).1.msb ≠ a.msb := by
  simp [add8]

end

/-- Settles O22: the five flags, bit 7 being the sign. -/
theorem adderResult : Obligations.AdderResult := by
  intro a b cin
  simp only [getLsbD_seven]
  exact ⟨toNat_add8 a b cin, add8_c_iff a b cin, add8_dc_iff a b cin, add8_z_iff a b cin, add8_n a b cin, add8_ov_iff a b cin⟩

/-! ## The subtraction (R131) -/

section
variable (x y : Byte) (bin : Bool)

theorem toNat_complement : (~~~y).toNat = 255 - y.toNat := BitVec.toNat_not

theorem toNat_not_borrow : (!bin).toNat = 1 - bin.toNat := by cases bin <;> rfl

/-- What `sub8` adds to `x` is 256 less what it subtracts. -/
theorem complement_add_borrow : (~~~y).toNat + (!bin).toNat + (y.toNat + bin.toNat) = 256 := by
  have := y.isLt
  have := bin.toNat_le
  rw [toNat_complement, toNat_not_borrow]
  omega

/-- The same for the low nibbles, which the complement turns into 15 less each. -/
theorem complement_add_borrow_nibble : (~~~y).toNat % 16 + (!bin).toNat + (y.toNat % 16 + bin.toNat) = 16 := by
  have := y.isLt
  have := bin.toNat_le
  rw [toNat_complement, toNat_not_borrow]
  omega

theorem toNat_sub8 : ((sub8 x y bin).1.toNat : Int) = ((x.toNat : Int) - y.toNat - bin.toNat) % 256 := by
  have := complement_add_borrow y bin
  rw [sub8, toNat_add8]
  omega

/-- C is the not-borrow. -/
theorem sub8_c_iff : (sub8 x y bin).2.c = true ↔ x.toNat ≥ y.toNat + bin.toNat := by
  have := complement_add_borrow y bin
  rw [sub8, add8_c_iff]
  omega

/-- DC is the not-borrow of the low nibbles. -/
theorem sub8_dc_iff : (sub8 x y bin).2.dc = true ↔ x.toNat % 16 ≥ y.toNat % 16 + bin.toNat := by
  have := complement_add_borrow_nibble y bin
  rw [sub8, add8_dc_iff]
  omega

theorem sub8_z_iff : (sub8 x y bin).2.z = true ↔ (sub8 x y bin).1 = 0x00#8 := add8_z_iff x (~~~y) (!bin)

theorem sub8_n : (sub8 x y bin).2.n = (sub8 x y bin).1.msb := add8_n x (~~~y) (!bin)

/-- The complement turns the sign of `y`. -/
theorem sub8_ov_iff : (sub8 x y bin).2.ov = true ↔ x.msb ≠ y.msb ∧ (sub8 x y bin).1.msb ≠ x.msb := by
  have hsign : x.msb = (~~~y).msb ↔ x.msb ≠ y.msb := by
    simp [BitVec.msb_not, Bool.eq_not]
  rw [sub8, add8_ov_iff, hsign]

end

/-- Settles O23: the flags of `add8` on the complement, read as borrows. -/
theorem subtractionResult : Obligations.SubtractionResult := by
  intro x y bin
  simp only [getLsbD_seven]
  exact ⟨rfl, toNat_sub8 x y bin, sub8_c_iff x y bin, sub8_dc_iff x y bin, sub8_z_iff x y bin, sub8_n x y bin, sub8_ov_iff x y bin⟩

/-! ## The laws (R132) -/

section
variable (a b : Byte) (cin : Bool)

/-- Where two signs agree, it is one to differ from the first and to differ from the second. -/
theorem overflow_comm (p q r : Bool) : (p == q && r != p) = (q == p && r != q) := by
  cases p <;> cases q <;> rfl

theorem add8_comm : add8 a b cin = add8 b a cin := by
  simp only [add8, Nat.add_comm a.toNat b.toNat, Nat.add_comm (a.toNat % 16) (b.toNat % 16), overflow_comm a.msb b.msb]

/-- Without a carry-in the result is the machine's sum. -/
theorem add8_false : (add8 a b false).1 = a + b := by
  apply BitVec.eq_of_toNat_eq
  rw [toNat_add8, BitVec.toNat_add]
  rfl

/-- Without a borrow the result is the machine's difference. -/
theorem sub8_false : (sub8 a b false).1 = a - b := by
  apply BitVec.eq_of_toNat_eq
  have hsub : ((sub8 a b false).1.toNat : Int) = ((a.toNat : Int) - b.toNat - 0) % 256 := toNat_sub8 a b false
  have ha := a.isLt
  have hb := b.isLt
  rw [BitVec.toNat_sub]
  omega

/-- Neither a borrow nor a change of sign in x - x. -/
theorem sub8_self : sub8 a a false = (0x00#8, { c := true, dc := true, z := true, ov := false, n := false }) := by
  have hr : (sub8 a a false).1 = 0x00#8 := by rw [sub8_false, BitVec.sub_self]
  have hc : (sub8 a a false).2.c = true := (sub8_c_iff a a false).2 le_rfl
  have hdc : (sub8 a a false).2.dc = true := (sub8_dc_iff a a false).2 le_rfl
  have hz : (sub8 a a false).2.z = true := (sub8_z_iff a a false).2 hr
  have hov : (sub8 a a false).2.ov = false := Bool.eq_false_iff.2 fun h => ((sub8_ov_iff a a false).1 h).1 rfl
  have hn : (sub8 a a false).2.n = false := by rw [sub8_n, hr]; rfl
  calc sub8 a a false
    _ = ((sub8 a a false).1, ⟨(sub8 a a false).2.c, (sub8 a a false).2.dc, (sub8 a a false).2.z, (sub8 a a false).2.ov,
          (sub8 a a false).2.n⟩) := rfl
    _ = (0x00#8, ⟨true, true, true, false, false⟩) := by rw [hr, hc, hdc, hz, hov, hn]

/-- Two signs agree where both bytes are at least 128 or neither is. -/
theorem msb_eq_msb_iff (x y : Byte) : x.msb = y.msb ↔ (128 ≤ x.toNat ↔ 128 ≤ y.toNat) := by
  rw [BitVec.msb_eq_decide, BitVec.msb_eq_decide]
  exact decide_eq_decide

theorem toInt_byte (x : Byte) : x.toInt = if 128 ≤ x.toNat then (x.toNat : Int) - 256 else x.toNat := by
  rw [BitVec.toInt_eq_toNat_cond]
  split <;> split <;> omega

/-- OV is the signed overflow: only operands of one sign can leave the range, and there the byte of the sum has the other sign. -/
theorem add8_ov_iff_toInt : (add8 a b cin).2.ov = true ↔
    a.toInt + b.toInt + (cin.toNat : Int) < -128 ∨ 127 < a.toInt + b.toInt + (cin.toNat : Int) := by
  have hov : (add8 a b cin).2.ov = true ↔
      (128 ≤ a.toNat ↔ 128 ≤ b.toNat) ∧ ¬(128 ≤ (add8 a b cin).1.toNat ↔ 128 ≤ a.toNat) := by
    rw [add8_ov_iff, ne_eq, msb_eq_msb_iff, msb_eq_msb_iff]
  have hcin := cin.toNat_le
  have ha := a.isLt
  have hb := b.isLt
  rw [hov, toNat_add8, toInt_byte a, toInt_byte b]
  split <;> split <;> omega

end

/-- Settles O24: the laws above, with the flags of `add8` and the carries without a carry-in; OV only where the signed sum leaves the range. -/
theorem adderLaws : Obligations.AdderLaws := by
  intro a b cin
  rw [getLsbD_seven]
  exact ⟨add8_comm a b cin, add8_false a b, add8_c_iff a b false, add8_z_iff a b cin, add8_n a b cin, sub8_false a b,
    sub8_c_iff a b false, sub8_self a, (add8_ov_iff_toInt a b cin).1⟩

end Sys2Proof.Machine
end

