-- ==== Sys2Proof/Proofs/CompareSkip.lean ====
section
/-! PROOFS. Proofs/CompareSkip.lean: what a compare-and-skip changes besides the PC (R190 of spec/43_compare_skip.md). -/

namespace Sys2Proof.Machine

section
variable {s t : State} {needs : List Need} {cond : State → Byte → Bool} {f : Byte} {a : Bank}

/-- The four instructions are one shape: they differ in the registers they need and in the condition alone. -/
theorem exec_compareSkip {i : Instr} (hi : i ∈ [.cpfseq f a, .cpfsgt f a, .cpfslt f a, .tstfsz f a]) :
    ∃ needs cond, ∀ s, exec i s = conclude s 2#21 (runCompareSkip needs cond f a s) := by
  simp only [List.mem_cons, List.not_mem_nil, or_false] at hi
  rcases hi with rfl | rfl | rfl | rfl <;> exact ⟨_, _, fun _ => rfl⟩

/-- A step that leaves the core running was not refused: every cell it reads holds a value. -/
theorem ready_of_compareSkip_running (h : conclude s 2#21 (runCompareSkip needs cond f a s) = .next t) (ht : t.run = .running) :
    s.ready (s.resolve f a) needs := by
  rcases planRead_cases s (s.resolve f a) needs with ⟨hready, -⟩ | ⟨c, -, hplan⟩
  · exact hready
  · simp only [runCompareSkip, hplan, Except.map, conclude, Host.Outcome.next.injEq] at h
    subst h
    cases ht

/-- The read, the FSR update and the advance of the PC are all that a compare-and-skip does to the state. -/
theorem compareSkip_state (hready : s.ready (s.resolve f a) needs)
    (h : conclude s 2#21 (runCompareSkip needs cond f a s) = .next t) :
    let acc := s.operand (s.resolve f a)
    t = { (s.afterRead acc).applyUpd acc.upd with pc := t.pc } := by
  simp only [runCompareSkip, planRead_of_ready hready, Except.map, conclude, Host.Outcome.next.injEq] at h
  subst h
  rfl

end

/-- R70: only a read of PCL changes the state. -/
theorem State.afterRead_of_ne_pcl {acc : Access} (h : acc.ea ≠ pclAddr) (s : State) : s.afterRead acc = s := if_neg h

/-- Settles O34: the read leaves the state as it was but at PCL, and there is no FSR update but in the modes that move an FSR; what these
two effects are is `runCompareSkip_spec`. -/
theorem compareChangesOnlyPc : Obligations.CompareChangesOnlyPc := by
  intro s t i f a hi acc _ hexec ht
  obtain ⟨needs, cond, hshape⟩ := exec_compareSkip hi
  rw [hshape] at hexec
  have hready := ready_of_compareSkip_running hexec ht
  refine ⟨fun hpcl hupd => ?_, ?_⟩
  · calc t
      _ = { (s.afterRead acc).applyUpd acc.upd with pc := t.pc } := compareSkip_state hready hexec
      _ = { s with pc := t.pc } := by rw [State.afterRead_of_ne_pcl hpcl, hupd]; rfl
  · obtain ⟨t', hnext, effect⟩ := runCompareSkip_spec (cond := cond) hready 0x00#8
    obtain rfl : t' = t := Host.Outcome.next.inj (hnext.symm.trans hexec)
    exact ⟨effect.latched rfl, effect.updated⟩

end Sys2Proof.Machine
end

