-- ==== Sys2Proof/Proofs/TableWrites.lean ====
section
/-! PROOFS. Proofs/TableWrites.lean: no instruction writes program memory, and the table writes move TBLPTR alone (R291, R296 to R299
of spec/49_table_system.md). -/

namespace Sys2Proof.Machine

/-! ## Program memory (R291) -/

section
variable {s t : State} {r : Except CoreFault Progress} {p : Progress} {i : Instr}

/-- Program memory and the parameters are the same in both states. -/
def SameProgram (s t : State) : Prop := t.prog = s.prog ∧ t.params = s.params

/-- Where it is not stopped by its plan, a step from `s` has not changed program memory or the parameters. -/
def KeepsProgram (s : State) (r : Except CoreFault Progress) : Prop := ∀ p, r = .ok p → SameProgram s p.s

theorem KeepsProgram.of_ok (hr : r = .ok p) (h : SameProgram s p.s) : KeepsProgram s r := by
  rintro q hq
  obtain rfl : p = q := Except.ok.inj (hr.symm.trans hq)
  exact h

theorem KeepsProgram.of_error {why : CoreFault} (hr : r = .error why) : KeepsProgram s r := by
  rintro q hq
  cases hr.symm.trans hq

theorem KeepsProgram.of_refused (h : Refused s r) : KeepsProgram s r := by
  obtain ⟨reason, hr⟩ := h
  exact .of_error hr

/-- The end of a step, or its fault, changes neither. -/
theorem conclude_sameProgram {size : PAddr} (h : KeepsProgram s r) (ht : conclude s size r = .next t) : SameProgram s t := by
  rcases conclude_cases s size r with ⟨p, hr, hnext⟩ | ⟨why, -, hnext⟩
  · obtain rfl : p.finish size = t := Host.Outcome.next.inj (hnext.symm.trans ht)
    exact h p hr
  · obtain rfl : s.takeFault why = t := Host.Outcome.next.inj (hnext.symm.trans ht)
    exact ⟨rfl, rfl⟩

/-! ### The shapes -/

theorem runState_keepsProgram {g : State → State} (h : SameProgram s (g s)) : KeepsProgram s (runState g s) := .of_ok rfl h

theorem planRegs_keepsProgram {needs : List Need} {g : Unit → Progress} (h : SameProgram s (g ()).s) :
    KeepsProgram s ((planRegs s needs).map g) := by
  rcases planRegs_map_cases needs g with ⟨-, hr⟩ | ⟨c, hr⟩
  · exact .of_ok hr h
  · exact .of_error hr

theorem runLiteral_keepsProgram {mask : Byte} {op : Byte → Byte → Byte × FlagVec} {k : Byte} :
    KeepsProgram s (runLiteral mask op k s) := planRegs_keepsProgram (by simp [SameProgram])

theorem runBranch_keepsProgram {mask : Byte} {taken : State → Bool} {n : Byte} : KeepsProgram s (runBranch mask taken n s) := by
  apply planRegs_keepsProgram
  split <;> simp [SameProgram]

theorem oneOperand_keepsProgram (h : hasOneOperand i = true) : KeepsProgram s (runInstr i s) := by
  rcases runInstr_oneOperand i h with ⟨p, hr, hp⟩ | hrefused
  · obtain ⟨-, hprog, hparams, -⟩ := hp.keeps
    exact .of_ok hr ⟨hprog, hparams⟩
  · exact .of_refused hrefused

theorem runMulwf_keepsProgram {f : Byte} {a : Bank} : KeepsProgram s (runMulwf f a s) := by
  rcases runMulwf_inv (s := s) f a with ⟨p, hr, hp, -⟩ | hrefused
  · exact .of_ok hr (by simp [SameProgram, hp])
  · exact .of_refused hrefused

theorem runMovff_keepsProgram {fs fd : DAddr} : KeepsProgram s (runMovff fs fd s) := by
  rcases runMovff_inv (s := s) fs fd with ⟨p, hr, hp, -⟩ | hrefused | hfatal
  · exact .of_ok hr (by simp [SameProgram, hp])
  · exact .of_refused hrefused
  · exact .of_error hfatal

theorem runLfsr_keepsProgram {f : BitVec 2} {k : BitVec 12} : KeepsProgram s (runLfsr f k s) := by
  unfold runLfsr
  split <;> exact runState_keepsProgram ⟨rfl, rfl⟩

/-- A call pushes onto the return stack; a fast one saves the shadow slot too. -/
theorem runCall_keepsProgram {k : BitVec 20} {sel : Speed} : KeepsProgram s (runCall k sel s) := by
  cases sel with
  | normal => exact .of_ok rfl (by simp [SameProgram])
  | fast => exact planRegs_keepsProgram (by simp [SameProgram])

theorem runRet_keepsProgram {sel : Speed} : KeepsProgram s (runRet sel s) := by
  cases sel <;> exact .of_ok rfl (by simp [SameProgram])

/-- R291, by the shape of the instruction. -/
theorem runInstr_keepsProgram (i : Instr) (s : State) : KeepsProgram s (runInstr i s) := by
  cases i
  case addlw | sublw | andlw | iorlw | xorlw =>
    simp only [runInstr, runAddlw, runSublw, runAndlw, runIorlw, runXorlw]
    exact runLiteral_keepsProgram
  case daw | mullw =>
    simp only [runInstr, runDaw, runMullw]
    exact planRegs_keepsProgram (by simp [SameProgram])
  case bz | bnz | bc | bnc | bov | bnov | bn | bnn =>
    simp only [runInstr, runBz, runBnz, runBc, runBnc, runBov, runBnov, runBn, runBnn]
    exact runBranch_keepsProgram
  case bra | goto | rcall | retfie | retlw | reset =>
    simp only [runInstr, runBra, runGoto, runRcall, runRetfie, runRetlw, runReset]
    exact .of_ok rfl (by simp [SameProgram])
  case movlw | movlb | push | pop | nop | sleep | clrwdt | tblrd | tblrdPostInc | tblrdPostDec | tblrdPreInc | tblwt | tblwtPostInc |
      tblwtPostDec | tblwtPreInc =>
    simp only [runInstr, runMovlw, runMovlb, runPush, runPop, runNop, runSleep, runClrwdt, runTblrd, runTblrdPostInc, runTblrdPostDec,
      runTblrdPreInc, runTblwt, runTblwtPostInc, runTblwtPostDec, runTblwtPreInc]
    exact runState_keepsProgram (by simp [SameProgram])
  case call => exact runCall_keepsProgram
  case ret => exact runRet_keepsProgram
  case lfsr => exact runLfsr_keepsProgram
  case mulwf => exact runMulwf_keepsProgram
  case movff => exact runMovff_keepsProgram
  all_goals exact oneOperand_keepsProgram rfl

theorem exec_sameProgram (h : exec i s = .next t) : SameProgram s t :=
  conclude_sameProgram (runInstr_keepsProgram i s) ((exec_eq i s).symm.trans h)

end

/-! ## The table writes (R296 to R299) -/

/-- R296: TBLWT* has no effect. -/
theorem exec_tblwt (s : State) : exec .tblwt s = .next { s with pc := seqPc s 2 false } := by
  rw [seqPc_eq_pcPlus]
  exact runState_spec id 2#21

/-- R297 to R299: a step that sets TBLPTR and does nothing else. -/
theorem setTblptr_step (s : State) (v : TAddr) :
    ∃ t, conclude s 2#21 (runState (State.setTblptr v) s) = .next t ∧ TblptrSet v t ∧ Elsewhere tablePointerCell s t ∧
      Advances 2 s t := by
  refine ⟨_, runState_spec (State.setTblptr v) 2#21, s.tblptr_setTblptr v, ⟨sameCells_setTblptr s v, ?_, ?_⟩, ?_, ?_⟩
  · simp [SameShadow]
  · simp [SameMachine]
  · simp [SameStack]
  · simp [seqPc_eq_pcPlus, State.pcPlus]

/-- Settles O49: program memory by the shapes of the instructions; the three table writes that move TBLPTR are one step, each with its
new pointer. -/
theorem programMemoryNeverWritten : Obligations.ProgramMemoryNeverWritten :=
  ⟨fun _ _ _ h => exec_sameProgram h, fun s =>
    ⟨exec_tblwt s, setTblptr_step s (s.tblptr + 1#22), setTblptr_step s (s.tblptr - 1#22), setTblptr_step s (s.tblptr + 1#22)⟩⟩

end Sys2Proof.Machine
end

