-- ==== Sys2Proof/Proofs/FatalFaults.lean ====
section
/-! PROOFS. Proofs/FatalFaults.lean: MOVFF alone ends in a fatal fault (R211 of spec/45_move.md, R324 of spec/60_exceptions.md). -/

namespace Sys2Proof.Machine

section
variable {s t : State} {r : Except CoreFault Progress} {p : Progress} {i : Instr} {fs fd addr ea : DAddr} {kind : FaultKind}
  {info : FaultInfo}

/-! ## MOVFF's fatal fault (R211) -/

theorem restricted_iff_mem : restricted ea = true ↔ ea ∈ [pclAddr, toslAddr, toshAddr, tosuAddr] := by
  simp [restricted, or_assoc]

/-- R211: as encoded or as reached. -/
theorem mem_of_restrictedThrough (h : restrictedThrough s addr ea = true) :
    addr ∈ [pclAddr, toslAddr, toshAddr, tosuAddr] ∨ ea ∈ [pclAddr, toslAddr, toshAddr, tosuAddr] := by
  rw [restrictedThrough, Bool.or_eq_true, Bool.and_eq_true] at h
  exact h.imp restricted_iff_mem.1 fun ⟨_, hea⟩ => restricted_iff_mem.1 hea

/-- R211: only the first answer of MOVFF's plan is fatal, and its condition is a restricted operand. -/
theorem runMovff_fatal (h : runMovff fs fd s = .error (.fatal kind info)) :
    CoreFault.fatal kind info = movffFault fs fd s ∧
      (restrictedThrough s fs (movffSource fs s).ea = true ∨ restrictedThrough s fd (movffDest fs fd s).ea = true) := by
  rcases planMovff_cases (s := s) fs fd with ⟨hres, hplan⟩ | ⟨c, -, hplan⟩ | ⟨-, -, hplan⟩ | ⟨-, -, -, hplan⟩ <;>
    rw [runMovff, hplan] at h
  · exact ⟨(Except.error.inj h).symm, by simpa using hres⟩
  · cases h
  · cases h
  · cases h

/-- R211: what the fault says of the addresses. -/
theorem runMovff_fatal_operand (h : runMovff fs fd s = .error (.fatal kind info)) :
    ∃ x, x ∈ [fs, fd, (s.operand fs).ea, (movffDest fs fd s).ea] ∧ x ∈ [pclAddr, toslAddr, toshAddr, tosuAddr] := by
  obtain ⟨-, hsource | hdest⟩ := runMovff_fatal h
  · rcases mem_of_restrictedThrough hsource with hx | hx <;> exact ⟨_, by simp [movffSource], hx⟩
  · rcases mem_of_restrictedThrough hdest with hx | hx <;> exact ⟨_, by simp, hx⟩

/-! ## Every other instruction -/

/-- The step was refused, or its phases have left the run state as it was. -/
def KeepsRun (s : State) (r : Except CoreFault Progress) : Prop := Refused s r ∨ ∃ p, r = .ok p ∧ p.s.run = s.run

theorem KeepsRun.of_ok (hr : r = .ok p) (h : p.s.run = s.run) : KeepsRun s r := .inr ⟨p, hr, h⟩

theorem runState_keepsRun {g : State → State} (h : (g s).run = s.run) : KeepsRun s (runState g s) := .of_ok rfl h

theorem planRegs_keepsRun {needs : List Need} {g : Unit → Progress} (h : (g ()).s.run = s.run) :
    KeepsRun s ((planRegs s needs).map g) := by
  rcases planRegs_map_cases needs g with ⟨-, hr⟩ | ⟨c, hr⟩
  · exact .of_ok hr h
  · exact .inl ⟨_, hr⟩

theorem runLiteral_keepsRun {mask : Byte} {op : Byte → Byte → Byte × FlagVec} {k : Byte} : KeepsRun s (runLiteral mask op k s) :=
  planRegs_keepsRun (by simp)

theorem runBranch_keepsRun {mask : Byte} {taken : State → Bool} {n : Byte} : KeepsRun s (runBranch mask taken n s) := by
  apply planRegs_keepsRun
  split <;> rfl

theorem oneOperand_keepsRun (h : hasOneOperand i = true) : KeepsRun s (runInstr i s) := by
  rcases runInstr_oneOperand i h with ⟨p, hr, hp⟩ | hrefused
  · obtain ⟨-, -, -, hrun, -⟩ := hp.keeps
    exact .of_ok hr hrun
  · exact .inl hrefused

theorem runMulwf_keepsRun {f : Byte} {a : Bank} : KeepsRun s (runMulwf f a s) := by
  rcases runMulwf_inv (s := s) f a with ⟨p, hr, hp, -⟩ | hrefused
  · exact .of_ok hr (by simp [hp])
  · exact .inl hrefused

theorem runLfsr_keepsRun {f : BitVec 2} {k : BitVec 12} : KeepsRun s (runLfsr f k s) := by
  unfold runLfsr
  split <;> exact runState_keepsRun rfl

theorem runCall_keepsRun {k : BitVec 20} {sel : Speed} : KeepsRun s (runCall k sel s) := by
  cases sel with
  | normal => exact .of_ok rfl (by simp)
  | fast => exact planRegs_keepsRun (by simp)

theorem runRet_keepsRun {sel : Speed} : KeepsRun s (runRet sel s) := by
  cases sel <;> exact .of_ok rfl (by simp)

theorem runMovff_keepsRun_or_fatal : KeepsRun s (runMovff fs fd s) ∨ runMovff fs fd s = .error (movffFault fs fd s) := by
  rcases runMovff_inv (s := s) fs fd with ⟨p, hr, hp, -⟩ | hrefused | hfatal
  · exact .inl (.of_ok hr (by simp [hp]))
  · exact .inl (.inl hrefused)
  · exact .inr hfatal

/-- R302, R304, R324: the three ways a step sets the run state beside a refusal. -/
theorem runInstr_run_cases (i : Instr) (s : State) :
    KeepsRun s (runInstr i s) ∨
    (∃ p, i = .sleep ∧ runInstr i s = .ok p ∧ p.s.run = .halted) ∨
    (∃ p, i = .reset ∧ runInstr i s = .ok p ∧ p.s.run = .running) ∨
    (∃ fs fd, i = .movff fs fd ∧ runInstr i s = .error (movffFault fs fd s)) := by
  cases i
  case sleep => exact .inr (.inl ⟨_, rfl, rfl, rfl⟩)
  case reset => exact .inr (.inr (.inl ⟨_, rfl, rfl, rfl⟩))
  case movff fs fd => exact runMovff_keepsRun_or_fatal.imp id fun h => .inr (.inr ⟨fs, fd, rfl, h⟩)
  all_goals left
  case addlw | sublw | andlw | iorlw | xorlw =>
    simp only [runInstr, runAddlw, runSublw, runAndlw, runIorlw, runXorlw]
    exact runLiteral_keepsRun
  case daw | mullw =>
    simp only [runInstr, runDaw, runMullw]
    exact planRegs_keepsRun (by simp)
  case bz | bnz | bc | bnc | bov | bnov | bn | bnn =>
    simp only [runInstr, runBz, runBnz, runBc, runBnc, runBov, runBnov, runBn, runBnn]
    exact runBranch_keepsRun
  case bra | goto | rcall | retfie | retlw =>
    simp only [runInstr, runBra, runGoto, runRcall, runRetfie, runRetlw]
    exact .of_ok rfl (by simp)
  case movlw | movlb | push | pop | nop | clrwdt | tblrd | tblrdPostInc | tblrdPostDec | tblrdPreInc | tblwt | tblwtPostInc |
      tblwtPostDec | tblwtPreInc =>
    simp only [runInstr, runMovlw, runMovlb, runPush, runPop, runNop, runClrwdt, runTblrd, runTblrdPostInc, runTblrdPostDec,
      runTblrdPreInc, runTblwt, runTblwtPostInc, runTblwtPostDec, runTblwtPreInc]
    exact runState_keepsRun (by simp)
  case call => exact runCall_keepsRun
  case ret => exact runRet_keepsRun
  case lfsr => exact runLfsr_keepsRun
  case mulwf => exact runMulwf_keepsRun
  all_goals exact oneOperand_keepsRun rfl

/-- R302, R304, R321, R329: what an instruction does to the run state. -/
theorem exec_run_cases (h : exec i s = .next t) :
    t.run = s.run ∨ (∃ reason, t = s.takeFault (.refused s.pc reason)) ∨ (i = .sleep ∧ t.run = .halted) ∨
    (i = .reset ∧ t.run = .running) ∨
    (∃ fs fd, i = .movff fs fd ∧ runMovff fs fd s = .error (movffFault fs fd s) ∧ t = s.takeFault (movffFault fs fd s)) := by
  rw [exec_eq] at h
  rcases runInstr_run_cases i s with (⟨reason, hr⟩ | ⟨p, hr, hrun⟩) | ⟨p, rfl, hr, hrun⟩ | ⟨p, rfl, hr, hrun⟩ | ⟨fs, fd, rfl, hr⟩ <;>
    rw [hr] at h <;> obtain rfl := Host.Outcome.next.inj h
  · exact .inr (.inl ⟨reason, rfl⟩)
  · exact .inl hrun
  · exact .inr (.inr (.inl ⟨rfl, hrun⟩))
  · exact .inr (.inr (.inr (.inl ⟨rfl, hrun⟩)))
  · exact .inr (.inr (.inr (.inr ⟨fs, fd, rfl, hr, rfl⟩)))

/-- R324: the fatal fault a Running core ends with is the one that MOVFF's plan answered. -/
theorem movff_of_fatal (hrun : s.run = .running) (h : exec i s = .next t) (ht : t.run = .faulted (.fatal kind info)) :
    t = s.takeFault (.fatal kind info) ∧ ∃ fs fd, i = .movff fs fd ∧ runMovff fs fd s = .error (.fatal kind info) := by
  rcases exec_run_cases h with hkept | ⟨reason, rfl⟩ | ⟨-, hhalted⟩ | ⟨-, hrunning⟩ | ⟨fs, fd, hi, hr, rfl⟩
  · cases ht.symm.trans (hkept.trans hrun)
  · cases ht
  · cases ht.symm.trans hhalted
  · cases ht.symm.trans hrunning
  · have hwhy : movffFault fs fd s = .fatal kind info := RunState.faulted.inj ht
    rw [hwhy] at hr ⊢
    exact ⟨rfl, fs, fd, hi, hr⟩

end

/-- Settles O38: the fault is the one MOVFF's plan answers, so it has that plan's condition. -/
theorem onlyMoveIsFatal : Obligations.OnlyMoveIsFatal := by
  intro i s t kind info hrun hexec ht
  obtain ⟨hstate, fs, fd, hi, hfatal⟩ := movff_of_fatal hrun hexec ht
  obtain ⟨hkind, -⟩ := runMovff_fatal hfatal
  rw [movffFault, CoreFault.fatal.injEq] at hkind
  exact ⟨hkind.1, hstate, fs, fd, hi, runMovff_fatal_operand hfatal⟩

end Sys2Proof.Machine
end

