-- ==== Sys2Proof/Proofs/RoundTrip.lean ====
section
/-! PROOFS. Proofs/RoundTrip.lean: the rows of the opcode table against the encoder, in both directions (R101, R102 and R105 of
spec/30_encoding.md). -/

namespace Sys2Proof

/-! ## The rows are disjoint (R105) -/

/-- Settles O4: the ranges of the rows are apart, and the widths are read off the list. -/
theorem opcodeRowsDisjoint : Obligations.OpcodeRowsDisjoint := by
  have hwidths : opcodeRows.Pairwise fun r q => q.width ≤ r.width :=
    List.pairwise_map.1 (by decide : (opcodeRows.map Row.width).Pairwise fun m n => n ≤ m)
  obtain ⟨hapart, -, -⟩ := List.pairwise_append.1 opcodeRanges_apart
  refine ⟨rfl, (hwidths.and (List.pairwise_map.1 hapart)).imp_of_mem ?_⟩
  rintro r q hr hq ⟨hwidth, hrq⟩
  exact ⟨hwidth, fun w ⟨hrw, hqw⟩ => hrq.not_holds ((Row.hits_iff_range hr).1 hrw) ((Row.hits_iff_range hq).1 hqw)⟩

/-! ## The fields of a first word as numbers (R101, R102) -/

section
variable (w : Word16)

theorem toNat_fieldLow4 : (fieldLow4 w).toNat = w.toNat % 16 := (toNat_field 3 0 w).trans (by simp)
theorem toNat_fieldLow8 : (fieldLow8 w).toNat = w.toNat % 256 := (toNat_field 7 0 w).trans (by simp)
theorem toNat_fieldLow11 : (fieldLow11 w).toNat = w.toNat % 2048 := (toNat_field 10 0 w).trans (by simp)
theorem toNat_fieldLow12 : (fieldLow12 w).toNat = w.toNat % 4096 := (toNat_field 11 0 w).trans (by simp)
theorem toNat_fieldB : (fieldB w).toNat = w.toNat / 512 % 8 := toNat_field 11 9 w
theorem toNat_fieldFsr : (fieldFsr w).toNat = w.toNat / 16 % 4 := toNat_field 5 4 w

theorem toNat_getLsbD (n : Nat) : (w.getLsbD n).toNat = w.toNat / 2 ^ n % 2 := by
  rw [BitVec.getLsbD, Nat.testBit_eq_decide_div_mod_eq]
  have := Nat.mod_two_eq_zero_or_one (w.toNat / 2 ^ n)
  rcases this with h | h <;> simp [h]

theorem toNat_bit_fieldD : (fieldD w).bit.toNat = w.toNat / 512 % 2 := by
  rw [fieldD]
  refine Eq.trans ?_ (toNat_getLsbD w 9)
  cases w.getLsbD 9 <;> rfl

theorem toNat_bit_fieldA : (fieldA w).bit.toNat = w.toNat / 256 % 2 := by
  rw [fieldA]
  refine Eq.trans ?_ (toNat_getLsbD w 8)
  cases w.getLsbD 8 <;> rfl

theorem toNat_bit_fieldS (n : Nat) : (fieldS n w).bit.toNat = w.toNat / 2 ^ n % 2 := by
  rw [← toNat_getLsbD w n, fieldS]
  cases w.getLsbD n <;> rfl

end

theorem Dest.bit_injective {d e : Dest} (h : d.bit.toNat = e.bit.toNat) : d = e := by
  cases d <;> cases e <;> first | rfl | cases h

theorem Bank.bit_injective {a b : Bank} (h : a.bit.toNat = b.bit.toNat) : a = b := by
  cases a <;> cases b <;> first | rfl | cases h

theorem Speed.bit_injective {s t : Speed} (h : s.bit.toNat = t.bit.toNat) : s = t := by
  cases s <;> cases t <;> first | rfl | cases h

/-! ## The word of each format as a number (R101) -/

theorem toNat_wordByteDA (o : BitVec 6) (f : Byte) (x y : BitVec 1) :
    (o ++ x ++ y ++ f : Word16).toNat = o.toNat * 1024 + x.toNat * 512 + y.toNat * 256 + f.toNat := by
  have h : (o ++ x ++ y ++ f : Word16).toNat = (o ++ x ++ y).toNat * 2 ^ 8 + f.toNat := toNat_concat _ f
  rw [h, toNat_concat, toNat_concat]
  omega

theorem toNat_wordByteA (o : BitVec 7) (f : Byte) (x : BitVec 1) :
    (o ++ x ++ f : Word16).toNat = o.toNat * 512 + x.toNat * 256 + f.toNat := by
  have h : (o ++ x ++ f : Word16).toNat = (o ++ x).toNat * 2 ^ 8 + f.toNat := toNat_concat _ f
  rw [h, toNat_concat]
  omega

theorem toNat_wordBit (o : BitVec 4) (f : Byte) (b : BitVec 3) (x : BitVec 1) :
    (o ++ b ++ x ++ f : Word16).toNat = o.toNat * 4096 + b.toNat * 512 + x.toNat * 256 + f.toNat := by
  have h : (o ++ b ++ x ++ f : Word16).toNat = (o ++ b ++ x).toNat * 2 ^ 8 + f.toNat := toNat_concat _ f
  rw [h, toNat_concat, toNat_concat]
  omega

theorem toNat_wordBr11 (o : BitVec 5) (n : BitVec 11) : (o ++ n : Word16).toNat = o.toNat * 2048 + n.toNat := toNat_concat o n

theorem toNat_wordRetS (o : BitVec 15) (x : BitVec 1) : (o ++ x : Word16).toNat = o.toNat * 2 + x.toNat := toNat_concat o x

theorem toNat_wordMovlb (o : BitVec 12) (k : BitVec 4) : (o ++ k : Word16).toNat = o.toNat * 16 + k.toNat := toNat_concat o k

theorem toNat_wordMovff (o : BitVec 4) (x : BitVec 12) : (o ++ x : Word16).toNat = o.toNat * 4096 + x.toNat := toNat_concat o x

theorem toNat_wordLfsr (o : BitVec 10) (f : BitVec 2) (k : BitVec 4) :
    (o ++ f ++ k : Word16).toNat = o.toNat * 64 + f.toNat * 16 + k.toNat := by
  have h : (o ++ f ++ k : Word16).toNat = (o ++ f).toNat * 2 ^ 4 + k.toNat := toNat_concat _ k
  rw [h, toNat_concat]
  omega

/-! ## From an instruction of one word to its word and back (R101, R105) -/

section
variable {r : Row} {w : Word16} {i : Instr}

/-- A word in the range of a row is built by that row. -/
theorem decode_of_range (hr : r ∈ opcodeRows) (hw : r.range.Holds w) : decode w = (r.build w).getD .nop :=
  decode_of_hits hr ((Row.hits_iff_range hr).2 hw)

theorem decode_wordByteDA {o : BitVec 6} {op : Byte → Dest → Bank → Instr} (hr : rowByteDA (o ++ 0#10) op ∈ opcodeRows) (f : Byte)
    (d : Dest) (a : Bank) : decode (o ++ d.bit ++ a.bit ++ f) = op f d a := by
  have hw := toNat_wordByteDA o f d.bit a.bit
  have hpat : (o ++ 0#10 : Word16).toNat = o.toNat * 1024 + 0 := toNat_concat o 0#10
  have hf : fieldLow8 (o ++ d.bit ++ a.bit ++ f) = f := BitVec.eq_of_toNat_eq (by rw [toNat_fieldLow8]; omega)
  have hd : fieldD (o ++ d.bit ++ a.bit ++ f) = d := Dest.bit_injective (by rw [toNat_bit_fieldD]; omega)
  have ha : fieldA (o ++ d.bit ++ a.bit ++ f) = a := Bank.bit_injective (by rw [toNat_bit_fieldA]; omega)
  rw [decode_of_range hr ⟨by dsimp only [rowByteDA, Row.range]; omega, by dsimp only [rowByteDA, Row.range]; omega⟩]
  simp only [rowByteDA, hf, hd, ha, Option.getD_some]

theorem decode_wordByteA {o : BitVec 7} {op : Byte → Bank → Instr} (hr : rowByteA (o ++ 0#9) op ∈ opcodeRows) (f : Byte) (a : Bank) :
    decode (o ++ a.bit ++ f) = op f a := by
  have hw := toNat_wordByteA o f a.bit
  have hpat : (o ++ 0#9 : Word16).toNat = o.toNat * 512 + 0 := toNat_concat o 0#9
  have hf : fieldLow8 (o ++ a.bit ++ f) = f := BitVec.eq_of_toNat_eq (by rw [toNat_fieldLow8]; omega)
  have ha : fieldA (o ++ a.bit ++ f) = a := Bank.bit_injective (by rw [toNat_bit_fieldA]; omega)
  rw [decode_of_range hr ⟨by dsimp only [rowByteA, Row.range]; omega, by dsimp only [rowByteA, Row.range]; omega⟩]
  simp only [rowByteA, hf, ha, Option.getD_some]

theorem decode_wordBit {o : BitVec 4} {op : Byte → BitVec 3 → Bank → Instr} (hr : rowBit (o ++ 0#12) op ∈ opcodeRows) (f : Byte)
    (b : BitVec 3) (a : Bank) : decode (o ++ b ++ a.bit ++ f) = op f b a := by
  have hw := toNat_wordBit o f b a.bit
  have hpat : (o ++ 0#12 : Word16).toNat = o.toNat * 4096 + 0 := toNat_concat o 0#12
  have hf : fieldLow8 (o ++ b ++ a.bit ++ f) = f := BitVec.eq_of_toNat_eq (by rw [toNat_fieldLow8]; omega)
  have hb : fieldB (o ++ b ++ a.bit ++ f) = b := BitVec.eq_of_toNat_eq (by rw [toNat_fieldB]; omega)
  have ha : fieldA (o ++ b ++ a.bit ++ f) = a := Bank.bit_injective (by rw [toNat_bit_fieldA]; omega)
  rw [decode_of_range hr ⟨by dsimp only [rowBit, Row.range]; omega, by dsimp only [rowBit, Row.range]; omega⟩]
  simp only [rowBit, hf, hb, ha, Option.getD_some]

theorem decode_wordLow8 {o : Byte} {op : Byte → Instr} (hr : rowLow8 (o ++ 0#8) op ∈ opcodeRows) (k : Byte) :
    decode (o ++ k) = op k := by
  have hw := toNat_byte_byte o k
  have hpat : (o ++ 0#8 : Word16).toNat = o.toNat * 256 + 0 := toNat_concat o 0#8
  have hk : fieldLow8 (o ++ k) = k := BitVec.eq_of_toNat_eq (by rw [toNat_fieldLow8]; omega)
  rw [decode_of_range hr ⟨by dsimp only [rowLow8, Row.range]; omega, by dsimp only [rowLow8, Row.range]; omega⟩]
  simp only [rowLow8, hk, Option.getD_some]

theorem decode_wordBr11 {o : BitVec 5} {op : BitVec 11 → Instr} (hr : rowBr11 (o ++ 0#11) op ∈ opcodeRows) (n : BitVec 11) :
    decode (o ++ n) = op n := by
  have hw := toNat_wordBr11 o n
  have hpat : (o ++ 0#11 : Word16).toNat = o.toNat * 2048 + 0 := toNat_concat o 0#11
  have hn : fieldLow11 (o ++ n) = n := BitVec.eq_of_toNat_eq (by rw [toNat_fieldLow11]; omega)
  rw [decode_of_range hr ⟨by dsimp only [rowBr11, Row.range]; omega, by dsimp only [rowBr11, Row.range]; omega⟩]
  simp only [rowBr11, hn, Option.getD_some]

theorem decode_wordRetS {o : BitVec 15} {op : Speed → Instr} (hr : rowRetS (o ++ 0#1) op ∈ opcodeRows) (s : Speed) :
    decode (o ++ s.bit) = op s := by
  have hw := toNat_wordRetS o s.bit
  have hpat : (o ++ 0#1 : Word16).toNat = o.toNat * 2 + 0 := toNat_concat o 0#1
  have hs : fieldS 0 (o ++ s.bit) = s := Speed.bit_injective (by rw [toNat_bit_fieldS]; omega)
  rw [decode_of_range hr ⟨by dsimp only [rowRetS, Row.range]; omega, by dsimp only [rowRetS, Row.range]; omega⟩]
  simp only [rowRetS, hs, Option.getD_some]

theorem decode_wordMovlb (k : BitVec 4) : decode (0b000000010000#12 ++ k) = .movlb k := by
  have hw : (0b000000010000#12 ++ k : Word16).toNat = 256 + k.toNat := toNat_wordMovlb 0b000000010000#12 k
  have hk : fieldLow4 (0b000000010000#12 ++ k) = k := BitVec.eq_of_toNat_eq (by rw [toNat_fieldLow4]; omega)
  have hr : rowMovlb ∈ opcodeRows := by simp [opcodeRows]
  rw [decode_of_range hr ⟨by rw [hw]; exact Nat.le_add_right _ _, by rw [hw]; exact Nat.add_lt_add_left k.isLt 256⟩]
  simp only [rowMovlb, hk, Option.getD_some]

theorem decode_wordInh {pat : Word16} {op : Instr} (hr : rowInh pat op ∈ opcodeRows) : decode pat = op :=
  decode_of_range hr ⟨le_rfl, Nat.lt_succ_self _⟩

/-- Reading the one word of an instruction. -/
theorem decodeBytes_encode_of_oneWord (hw : decode w = i) (hone : i.twoWord = false) (rest : List Byte) :
    decodeBytes (bytesOfWords [w] ++ rest) = .ok (i, rest) := by
  subst hw
  exact decodeBytes_oneWord hone rest

end

/-! ## From an instruction of two words to its words and back (R101, R108) -/

section
variable {w1 : Word16} {op : Instr}

theorem decodeBytes_twoWords (hw : decode w1 = op) (htwo : op.twoWord = true) (w2 : Word16) (rest : List Byte) :
    decodeBytes (bytesOfWords [w1, w2] ++ rest) = .ok (fold op w2, rest) := by
  have hword (w : Word16) : wordOf (w.extractLsb 7 0) (w.extractLsb 15 8) = w := byte_byte_fields w
  simp [bytesOfWords, decodeBytes, hword, hw, htwo]

theorem fieldLow12_encSecond12 (x : BitVec 12) : fieldLow12 (encSecond12 x) = x := by
  have hw : (encSecond12 x).toNat = 0xF000 + x.toNat := toNat_wordMovff 0b1111#4 x
  exact BitVec.eq_of_toNat_eq (by rw [toNat_fieldLow12]; omega)

theorem target_fields (k : BitVec 20) : (k.extractLsb 19 8 ++ k.extractLsb 7 0 : BitVec 20) = k := by
  have h : (k.extractLsb 19 8 ++ k.extractLsb 7 0 : BitVec 20).toNat = (k.extractLsb 19 8).toNat * 256 + (k.extractLsb 7 0).toNat :=
    toNat_concat _ _
  apply BitVec.eq_of_toNat_eq
  rw [h, toNat_field, toNat_field]
  omega

theorem decode_wordCall (x : Byte) (s : Speed) : decode (0b1110110#7 ++ s.bit ++ x) = .call (0#12 ++ x) s := by
  have hw : (0b1110110#7 ++ s.bit ++ x : Word16).toNat = 0xEC00 + s.bit.toNat * 256 + x.toNat := toNat_wordByteA 0b1110110#7 x s.bit
  have hx : fieldLow8 (0b1110110#7 ++ s.bit ++ x) = x := BitVec.eq_of_toNat_eq (by rw [toNat_fieldLow8]; omega)
  have hs : fieldS 8 (0b1110110#7 ++ s.bit ++ x) = s := Speed.bit_injective (by rw [toNat_bit_fieldS]; omega)
  have hr : rowCall ∈ opcodeRows := specialRows_subset (by simp [specialRows])
  have hlo : 0xEC00 ≤ (0b1110110#7 ++ s.bit ++ x : Word16).toNat := by omega
  have hhi : (0b1110110#7 ++ s.bit ++ x : Word16).toNat < 0xEE00 := by omega
  rw [decode_of_range hr ⟨hlo, hhi⟩]
  simp only [rowCall, hx, hs, Option.getD_some]

theorem decode_wordGoto (x : Byte) : decode (0b11101111#8 ++ x) = .goto (0#12 ++ x) := by
  have hw : (0b11101111#8 ++ x : Word16).toNat = 0xEF00 + x.toNat := toNat_byte_byte 0b11101111#8 x
  have hx : fieldLow8 (0b11101111#8 ++ x) = x := BitVec.eq_of_toNat_eq (by rw [toNat_fieldLow8]; omega)
  have hr : rowGoto ∈ opcodeRows := specialRows_subset (by simp [specialRows])
  have hlo : 0xEF00 ≤ (0b11101111#8 ++ x : Word16).toNat := by omega
  have hhi : (0b11101111#8 ++ x : Word16).toNat < 0xF000 := by omega
  rw [decode_of_range hr ⟨hlo, hhi⟩]
  simp only [rowGoto, hx, Option.getD_some]

theorem decode_wordMovff (fs : DAddr) : decode (0b1100#4 ++ fs) = .movff fs 0#12 := by
  have hw : (0b1100#4 ++ fs : Word16).toNat = 0xC000 + fs.toNat := toNat_wordMovff 0b1100#4 fs
  have hx : fieldLow12 (0b1100#4 ++ fs) = fs := BitVec.eq_of_toNat_eq (by rw [toNat_fieldLow12]; omega)
  have hr : rowMovff ∈ opcodeRows := specialRows_subset (by simp [specialRows])
  have hlo : 0xC000 ≤ (0b1100#4 ++ fs : Word16).toNat := by omega
  have hhi : (0b1100#4 ++ fs : Word16).toNat < 0xD000 := by omega
  rw [decode_of_range hr ⟨hlo, hhi⟩]
  simp only [rowMovff, hx, Option.getD_some]

theorem decode_wordLfsr {f : BitVec 2} (hf : f ≠ 3#2) (x : BitVec 4) : decode (0b1110111000#10 ++ f ++ x) = .lfsr f (x ++ 0#8) := by
  have hw : (0b1110111000#10 ++ f ++ x : Word16).toNat = 0xEE00 + f.toNat * 16 + x.toNat := toNat_wordLfsr 0b1110111000#10 f x
  have hx : fieldLow4 (0b1110111000#10 ++ f ++ x) = x := BitVec.eq_of_toNat_eq (by rw [toNat_fieldLow4]; omega)
  have hff : fieldFsr (0b1110111000#10 ++ f ++ x) = f := BitVec.eq_of_toNat_eq (by rw [toNat_fieldFsr]; omega)
  rw [decode_lfsr (lfsr_mask_iff.2 (by omega)), hff, hx, if_neg hf]

theorem decodeBytes_encode_call (k : BitVec 20) (s : Speed) (rest : List Byte) :
    decodeBytes (bytesOfWords (encode (.call k s)) ++ rest) = .ok (.call k s, rest) := by
  refine (decodeBytes_twoWords (decode_wordCall _ s) rfl _ rest).trans ?_
  rw [fold, fieldLow12_encSecond12, low_byte_of_concat, target_fields]

theorem decodeBytes_encode_goto (k : BitVec 20) (rest : List Byte) :
    decodeBytes (bytesOfWords (encode (.goto k)) ++ rest) = .ok (.goto k, rest) := by
  refine (decodeBytes_twoWords (decode_wordGoto _) rfl _ rest).trans ?_
  rw [fold, fieldLow12_encSecond12, low_byte_of_concat, target_fields]

theorem decodeBytes_encode_movff (fs fd : DAddr) (rest : List Byte) :
    decodeBytes (bytesOfWords (encode (.movff fs fd)) ++ rest) = .ok (.movff fs fd, rest) := by
  refine (decodeBytes_twoWords (decode_wordMovff fs) rfl _ rest).trans ?_
  rw [fold, fieldLow12_encSecond12]

theorem decodeBytes_encode_lfsr {f : BitVec 2} (hf : f ≠ 3#2) (k : BitVec 12) (rest : List Byte) :
    decodeBytes (bytesOfWords (encode (.lfsr f k)) ++ rest) = .ok (.lfsr f k, rest) := by
  have hlow : fieldLow8 (0b11110000#8 ++ k.extractLsb 7 0) = k.extractLsb 7 0 := by
    have hw : (0b11110000#8 ++ k.extractLsb 7 0 : Word16).toNat = 0xF000 + (k.extractLsb 7 0).toNat := toNat_byte_byte _ _
    have := (k.extractLsb 7 0).isLt
    exact BitVec.eq_of_toNat_eq (by rw [toNat_fieldLow8]; omega)
  refine (decodeBytes_twoWords (decode_wordLfsr hf _) (bne_iff_ne.2 hf) _ rest).trans ?_
  rw [fold, hlow, high_nibble_of_concat, nibble_byte_fields]

end

/-- Settles O2: format by format, the word of the encoder lies in the range of its row, and the row's fields are the operands. -/
theorem decodeEncode : Obligations.DecodeEncode := by
  intro i rest hi
  cases i
  case addwf f d a | addwfc f d a | subwf f d a | subwfb f d a | subfwb f d a | incf f d a | decf f d a | andwf f d a | iorwf f d a |
      xorwf f d a | comf f d a | incfsz f d a | infsnz f d a | decfsz f d a | dcfsnz f d a | movf f d a | rlcf f d a | rlncf f d a |
      rrcf f d a | rrncf f d a | swapf f d a =>
    exact decodeBytes_encode_of_oneWord (decode_wordByteDA (by simp [opcodeRows, rowsByteDA]) f d a) rfl rest
  case negf f a | cpfseq f a | cpfsgt f a | cpfslt f a | tstfsz f a | movwf f a | clrf f a | setf f a | mulwf f a =>
    exact decodeBytes_encode_of_oneWord (decode_wordByteA (by simp [opcodeRows, rowsByteA]) f a) rfl rest
  case bcf f b a | bsf f b a | btg f b a | btfsc f b a | btfss f b a =>
    exact decodeBytes_encode_of_oneWord (decode_wordBit (by simp [opcodeRows, rowsWidth4]) f b a) rfl rest
  case addlw k | sublw k | andlw k | iorlw k | xorlw k | movlw k | mullw k | bz k | bnz k | bc k | bnc k | bov k | bnov k | bn k |
      bnn k | retlw k =>
    exact decodeBytes_encode_of_oneWord (decode_wordLow8 (by simp [opcodeRows, rowsLow8]) k) rfl rest
  case bra n | rcall n => exact decodeBytes_encode_of_oneWord (decode_wordBr11 (by simp [opcodeRows]) n) rfl rest
  case retfie s | ret s => exact decodeBytes_encode_of_oneWord (decode_wordRetS (by simp [opcodeRows]) s) rfl rest
  case movlb k => exact decodeBytes_encode_of_oneWord (decode_wordMovlb k) rfl rest
  case movff fs fd => exact decodeBytes_encode_movff fs fd rest
  case lfsr f k => exact decodeBytes_encode_lfsr (bne_iff_ne.1 hi) k rest
  case goto k => exact decodeBytes_encode_goto k rest
  case call k s => exact decodeBytes_encode_call k s rest
  all_goals exact decodeBytes_encode_of_oneWord (decode_wordInh (by simp [opcodeRows, rowsInherent])) rfl rest

/-! ## From a word to its instruction and back (R101, R105) -/

/-- A row of one-word instructions: every word of it is the encoding of what the row builds. -/
def Row.Faithful (r : Row) : Prop := ∀ w, r.range.Holds w → ∃ i, r.build w = some i ∧ encode i = [w]

section
variable {pat : Word16}

theorem faithful_byteDA {o : BitVec 6} {op : Byte → Dest → Bank → Instr} (henc : ∀ f d a, encode (op f d a) = encByteDA o f d a)
    (hpat : pat.toNat = o.toNat * 1024) : (rowByteDA pat op).Faithful := by
  rintro w ⟨hlo, hhi⟩
  dsimp only [rowByteDA, Row.range] at hlo hhi
  refine ⟨_, rfl, (henc _ _ _).trans (congrArg (fun x => [x]) (BitVec.eq_of_toNat_eq ?_))⟩
  rw [toNat_wordByteDA, toNat_bit_fieldD, toNat_bit_fieldA, toNat_fieldLow8]
  omega

theorem faithful_byteA {o : BitVec 7} {op : Byte → Bank → Instr} (henc : ∀ f a, encode (op f a) = encByteA o f a)
    (hpat : pat.toNat = o.toNat * 512) : (rowByteA pat op).Faithful := by
  rintro w ⟨hlo, hhi⟩
  dsimp only [rowByteA, Row.range] at hlo hhi
  refine ⟨_, rfl, (henc _ _).trans (congrArg (fun x => [x]) (BitVec.eq_of_toNat_eq ?_))⟩
  rw [toNat_wordByteA, toNat_bit_fieldA, toNat_fieldLow8]
  omega

theorem faithful_bit {o : BitVec 4} {op : Byte → BitVec 3 → Bank → Instr} (henc : ∀ f b a, encode (op f b a) = encBit o f b a)
    (hpat : pat.toNat = o.toNat * 4096) : (rowBit pat op).Faithful := by
  rintro w ⟨hlo, hhi⟩
  dsimp only [rowBit, Row.range] at hlo hhi
  refine ⟨_, rfl, (henc _ _ _).trans (congrArg (fun x => [x]) (BitVec.eq_of_toNat_eq ?_))⟩
  rw [toNat_wordBit, toNat_fieldB, toNat_bit_fieldA, toNat_fieldLow8]
  omega

theorem faithful_low8 {o : Byte} {op : Byte → Instr} (henc : ∀ k, encode (op k) = encLow8 o k) (hpat : pat.toNat = o.toNat * 256) :
    (rowLow8 pat op).Faithful := by
  rintro w ⟨hlo, hhi⟩
  dsimp only [rowLow8, Row.range] at hlo hhi
  refine ⟨_, rfl, (henc _).trans (congrArg (fun x => [x]) (BitVec.eq_of_toNat_eq ?_))⟩
  rw [toNat_byte_byte, toNat_fieldLow8]
  omega

theorem faithful_br11 {o : BitVec 5} {op : BitVec 11 → Instr} (henc : ∀ n, encode (op n) = encBr11 o n)
    (hpat : pat.toNat = o.toNat * 2048) : (rowBr11 pat op).Faithful := by
  rintro w ⟨hlo, hhi⟩
  dsimp only [rowBr11, Row.range] at hlo hhi
  refine ⟨_, rfl, (henc _).trans (congrArg (fun x => [x]) (BitVec.eq_of_toNat_eq ?_))⟩
  rw [toNat_wordBr11, toNat_fieldLow11]
  omega

theorem faithful_retS {o : BitVec 15} {op : Speed → Instr} (henc : ∀ s, encode (op s) = [o ++ s.bit])
    (hpat : pat.toNat = o.toNat * 2) : (rowRetS pat op).Faithful := by
  rintro w ⟨hlo, hhi⟩
  dsimp only [rowRetS, Row.range] at hlo hhi
  refine ⟨_, rfl, (henc _).trans (congrArg (fun x => [x]) (BitVec.eq_of_toNat_eq ?_))⟩
  rw [toNat_wordRetS, toNat_bit_fieldS]
  omega

theorem faithful_inh {op : Instr} (henc : encode op = [pat]) : (rowInh pat op).Faithful := by
  rintro w ⟨hlo, hhi⟩
  dsimp only [rowInh, Row.range] at hlo hhi
  exact ⟨op, rfl, henc.trans (congrArg (fun x => [x]) (BitVec.eq_of_toNat_eq (by omega)))⟩

theorem faithful_movlb : rowMovlb.Faithful := by
  rintro w ⟨hlo, hhi⟩
  have hlo : 256 ≤ w.toNat := hlo
  have hhi : w.toNat < 272 := hhi
  refine ⟨_, rfl, congrArg (fun x => [x]) (BitVec.eq_of_toNat_eq ?_)⟩
  rw [toNat_wordMovlb, toNat_fieldLow4]
  show 16 * 16 + _ = _
  omega

end

theorem faithful_or_special : ∀ r ∈ opcodeRows, r.Faithful ∨ r ∈ specialRows := by
  intro r hr
  simp only [opcodeRows, List.mem_append, List.mem_cons, List.not_mem_nil, or_false] at hr
  rcases hr with ((((((((h | rfl | rfl) | rfl) | rfl) | h) | h) | h) | rfl | rfl) | h)
  · fin_cases h
    · exact .inr (by simp [specialRows])
    all_goals exact .inl (faithful_inh rfl)
  · exact .inl (faithful_retS (fun _ => rfl) rfl)
  · exact .inl (faithful_retS (fun _ => rfl) rfl)
  · exact .inl faithful_movlb
  · exact .inr (by simp [specialRows])
  · rcases List.mem_append.1 (show r ∈ rowsLow8.dropLast ++ [rowGoto] from h) with h | h
    · fin_cases h <;> exact .inl (faithful_low8 (fun _ => rfl) rfl)
    · fin_cases h
      exact .inr (by simp [specialRows])
  · rcases List.mem_append.1 (show r ∈ rowsByteA.dropLast ++ [rowCall] from h) with h | h
    · fin_cases h <;> exact .inl (faithful_byteA (fun _ _ => rfl) rfl)
    · fin_cases h
      exact .inr (by simp [specialRows])
  · fin_cases h <;> exact .inl (faithful_byteDA (fun _ _ _ => rfl) rfl)
  · exact .inl (faithful_br11 (fun _ => rfl) rfl)
  · exact .inl (faithful_br11 (fun _ => rfl) rfl)
  · rcases List.mem_append.1 (show r ∈ rowsWidth4.take 5 ++ [rowMovff, rowNopx] from h) with h | h
    · fin_cases h <;> exact .inl (faithful_bit (fun _ _ _ => rfl) rfl)
    · fin_cases h <;> exact .inr (by simp [specialRows])

section
variable {w w1 : Word16}

theorem encode_decode_of_oneWord (hne : decode w ≠ .nop) (hone : (decode w).twoWord = false) : encode (decode w) = [w] := by
  rcases hits_or_unclaimed w with ⟨r, hr, hw⟩ | ⟨p, hp, hw⟩
  · rcases faithful_or_special r hr with hfaithful | hspecial
    · obtain ⟨i, hbuild, henc⟩ := hfaithful w ((Row.hits_iff_range hr).1 hw)
      rw [decode_of_hits hr hw, hbuild, Option.getD_some, henc]
    · rw [Row.hits_iff_mask] at hw
      simp only [specialRows, List.mem_cons, List.not_mem_nil, or_false] at hspecial
      rcases hspecial with rfl | rfl | rfl | rfl | rfl | rfl
      · cases (decode_call hw ▸ hone :)
      · cases (decode_goto hw ▸ hone :)
      · cases (decode_movff hw ▸ hone :)
      · by_cases hf : fieldFsr w = 3#2
        · exact absurd ((decode_lfsr hw).trans (if_pos hf)) hne
        · exact absurd (twoWord_decode_iff.2 (.inr (.inr (.inl ⟨hw, hf⟩)))) (Bool.eq_false_iff.1 hone)
      · exact absurd (decode_of_hits hr (Row.hits_iff_mask.2 hw)) hne
      · exact absurd (decode_nopx hw) hne
  · exact absurd (decode_of_unclaimed hp hw) hne

theorem wellFormed_decodeWords (w1 w2 : Word16) : (decodeWords w1 w2).wellFormed = true := by
  generalize hi : decode w1 = i
  cases firstWord_of_decode hi with
  | call => rw [decodeWords_call hi]; rfl
  | goto => rw [decodeWords_goto hi]; rfl
  | movff => rw [decodeWords_movff hi]; rfl
  | lfsr _ hf => rw [decodeWords_lfsr hi]; exact bne_iff_ne.2 hf
  | nop => rw [decodeWords, hi]; rfl
  | oneWord hwf hone => rw [decodeWords, hi, hone]; exact hwf

/-- The bits that twelve-bit formats ignore come back as 1111. -/
theorem encSecond12_fieldLow12 (w : Word16) : encSecond12 (fieldLow12 w) = 0xF000#16 ||| (w &&& 0x0FFF#16) := by
  have hmask : (w &&& 0x0FFF#16).toNat = w.toNat % 2 ^ 12 := Nat.and_two_pow_sub_one_eq_mod w.toNat 12
  apply BitVec.eq_of_toNat_eq
  rw [BitVec.toNat_or, hmask]
  have h : (encSecond12 (fieldLow12 w)).toNat = 0xF000 ||| (fieldLow12 w).toNat := BitVec.toNat_append 0b1111#4 _
  rw [h, toNat_fieldLow12]
  rfl

theorem second_fieldLow8 (w : Word16) : (0b11110000#8 ++ fieldLow8 w : Word16) = 0xF000#16 ||| (w &&& 0x00FF#16) := by
  have hmask : (w &&& 0x00FF#16).toNat = w.toNat % 2 ^ 8 := Nat.and_two_pow_sub_one_eq_mod w.toNat 8
  apply BitVec.eq_of_toNat_eq
  rw [BitVec.toNat_or, hmask]
  have h : (0b11110000#8 ++ fieldLow8 w : Word16).toNat = 0xF000 ||| (fieldLow8 w).toNat := BitVec.toNat_append 0b11110000#8 _
  rw [h, toNat_fieldLow8]
  rfl

theorem concat_fields (x : BitVec 12) (y : Byte) :
    (x ++ y : BitVec 20).extractLsb 19 8 = x ∧ (x ++ y : BitVec 20).extractLsb 7 0 = y := by
  have h : (x ++ y : BitVec 20).toNat = x.toNat * 256 + y.toNat := toNat_concat x y
  constructor <;> apply BitVec.eq_of_toNat_eq <;> rw [toNat_field, h] <;> omega

theorem concat_nibble_byte_fields (x : BitVec 4) (y : Byte) :
    (x ++ y : BitVec 12).extractLsb 11 8 = x ∧ (x ++ y : BitVec 12).extractLsb 7 0 = y := by
  have h := toNat_nibble_byte x y
  constructor <;> apply BitVec.eq_of_toNat_eq <;> rw [toNat_field, h] <;> omega

/-- A word outside LFSR's range takes twelve bits of its second word. -/
theorem not_lfsr_of_range {lo hi : Nat} (h : lo ≤ w.toNat ∧ w.toNat < hi) (hout : hi ≤ 0xEE00 ∨ 0xEE40 ≤ lo) :
    ¬w &&& 0xFFC0#16 = 0xEE00#16 := by
  rw [lfsr_mask_iff]
  omega

theorem encode_decodeWords_of_twoWord (w2 : Word16) (htwo : (decode w1).twoWord = true) :
    encode (decodeWords w1 w2)
      = [w1, 0xF000#16 ||| (w2 &&& if w1 &&& 0xFFC0#16 = 0xEE00#16 then 0x00FF#16 else 0x0FFF#16)] := by
  generalize hi : decode w1 = i at htwo
  cases firstWord_of_decode hi with
  | call h =>
    have hrange := (and_leadingOnes_eq_iff (p := 0xEC00#16) (k := 9) w1 rfl).1 h
    obtain ⟨hhigh, hlow⟩ := concat_fields (fieldLow12 w2) (fieldLow8 w1)
    rw [decodeWords_call hi, encode, hhigh, hlow, if_neg (not_lfsr_of_range hrange (.inl (by decide))), encSecond12_fieldLow12]
    congr 1
    apply BitVec.eq_of_toNat_eq
    rw [toNat_wordByteA, toNat_bit_fieldS, toNat_fieldLow8]
    simp only [BitVec.toNat_ofNat] at hrange ⊢
    omega
  | goto h =>
    have hrange := (and_leadingOnes_eq_iff (p := 0xEF00#16) (k := 8) w1 rfl).1 h
    obtain ⟨hhigh, hlow⟩ := concat_fields (fieldLow12 w2) (fieldLow8 w1)
    rw [decodeWords_goto hi, encode, hhigh, hlow, if_neg (not_lfsr_of_range hrange (.inr (by decide))), encSecond12_fieldLow12]
    congr 1
    apply BitVec.eq_of_toNat_eq
    rw [toNat_byte_byte, toNat_fieldLow8]
    simp only [BitVec.toNat_ofNat] at hrange ⊢
    omega
  | movff h =>
    have hrange := (and_leadingOnes_eq_iff (p := 0xC000#16) (k := 12) w1 rfl).1 h
    rw [decodeWords_movff hi, encode, if_neg (not_lfsr_of_range hrange (.inl (by decide))), encSecond12_fieldLow12]
    congr 1
    apply BitVec.eq_of_toNat_eq
    rw [toNat_wordMovff, toNat_fieldLow12]
    simp only [BitVec.toNat_ofNat] at hrange ⊢
    omega
  | lfsr h hf =>
    have hrange := lfsr_mask_iff.1 h
    obtain ⟨hhigh, hlow⟩ := concat_nibble_byte_fields (fieldLow4 w1) (fieldLow8 w2)
    rw [decodeWords_lfsr hi, encode, hhigh, hlow, if_pos h, second_fieldLow8]
    congr 1
    apply BitVec.eq_of_toNat_eq
    rw [toNat_wordLfsr, toNat_fieldFsr, toNat_fieldLow4]
    simp only [BitVec.toNat_ofNat]
    omega
  | nop => cases htwo
  | oneWord _ hone => exact absurd htwo (Bool.eq_false_iff.1 hone)

end

/-- Settles O3: the rows of one word are faithful, and the four formats of two words are put together again. -/
theorem encodeDecode : Obligations.EncodeDecode := by
  refine fun w1 w2 => ⟨wellFormed_decodeWords w1 w2, fun hne hone => ?_, encode_decodeWords_of_twoWord w2⟩
  have hdecode : decodeWords w1 w2 = decode w1 := by rw [decodeWords, hone]; rfl
  rw [hdecode]
  exact encode_decode_of_oneWord hne hone

/-- Settles O1: sixteen words, each evaluated. -/
theorem sampleWordsDecode : Obligations.SampleWordsDecode := by
  unfold Obligations.SampleWordsDecode
  decide

end Sys2Proof
end

