-- ==== Sys2Proof/Proofs/StepEffects.lean ====
section
/-! PROOFS. Proofs/StepEffects.lean: what a step can do to the state, said once, and what every step therefore keeps: the invariant
(R20, R36, R37, R43), the run state (R321, R329) and the stack-fault record (R51, R326); and that no step both skips and redirects
(R122). -/

namespace Sys2Proof.Machine

/-! ## The effect of an instruction on the state -/

/-- `t` comes from `s` by writes of storage cells and of stack views. -/
inductive RegisterWrites (s : State) : State → Prop where
  | refl : RegisterWrites s s
  | setBits {t : State} {a : DAddr} (ha : isStorage a = true) (m v : Byte) (h : RegisterWrites s t) : RegisterWrites s (t.setBits a m v)
  | stackView {t : State} (a : DAddr) (v : Byte) (h : RegisterWrites s t) : RegisterWrites s (t.stackViewWrite a v)

section
variable {s t : State}

theorem RegisterWrites.setCell {a : DAddr} (ha : isStorage a = true) (v : Byte) (h : RegisterWrites s t) :
    RegisterWrites s (t.setCell a v) := h.setBits ha _ v

theorem RegisterWrites.affect (m : Byte) (fl : FlagVec) (h : RegisterWrites s t) : RegisterWrites s (t.affect m fl) :=
  h.setBits isStorage_status m _

theorem RegisterWrites.setPtr (n : Fsr) (p : DAddr) (h : RegisterWrites s t) : RegisterWrites s (t.setPtr n p) :=
  (h.setCell (isStorage_low n) _).setCell (isStorage_high n) _

theorem RegisterWrites.applyUpd (u : Option (Fsr × DAddr)) (h : RegisterWrites s t) : RegisterWrites s (t.applyUpd u) := by
  rcases u with - | ⟨n, p⟩
  · exact h
  · exact h.setPtr n p

theorem RegisterWrites.setTblptr (v : TAddr) (h : RegisterWrites s t) : RegisterWrites s (t.setTblptr v) :=
  ((h.setCell (by decide) _).setCell (by decide) _).setCell (by decide) _

theorem RegisterWrites.tableRead (v : TAddr) (h : RegisterWrites s t) : RegisterWrites s (t.tableRead v) := h.setCell (by decide) _

theorem RegisterWrites.setProd (p : Word16) (h : RegisterWrites s t) : RegisterWrites s (t.setProd p) :=
  (h.setCell (by decide) _).setCell (by decide) _

theorem RegisterWrites.restoreShadow (h : RegisterWrites s t) : RegisterWrites s t.restoreShadow :=
  ((h.setCell (by decide) _).setCell (by decide) _).setCell (by decide) _

theorem RegisterWrites.leaveInterrupt (fast : Bool) (h : RegisterWrites s t) : RegisterWrites s (t.leaveInterrupt fast) := by
  cases fast
  · exact h.setBits (by decide) _ _
  · exact h.restoreShadow.setBits (by decide) _ _

theorem RegisterWrites.afterRead (acc : Access) (h : RegisterWrites s t) : RegisterWrites s (t.afterRead acc) := by
  unfold State.afterRead
  split
  · exact (h.setCell (by decide) _).setCell (by decide) _
  · exact h

theorem RegisterWrites.afterWrite {acc : Access} (hs : acc.sound) (v : Byte) (h : RegisterWrites s t) :
    RegisterWrites s (t.afterWrite acc v) := by
  unfold State.afterWrite
  rcases Progress.memWrite_cases (Progress.start t) acc v with
    ⟨hea, he⟩ | ⟨-, he⟩ | ⟨-, -, -, he⟩ | ⟨-, -, -, he⟩ | ⟨hdirect, hind⟩
  · rw [he]; exact h.setCell hea v
  · rw [he]; exact h
  · rw [he]; exact h.stackView _ v
  · rw [he]; exact h
  · rw [hs hdirect] at hind; cases hind

theorem OneOperand.registerWrites {p : Progress} (h : OneOperand s p) : RegisterWrites s p.s := by
  obtain ⟨acc, reads, dst, r, flags, hs, hstate⟩ := h.state
  rw [hstate]
  have hread : RegisterWrites s (readPhase acc reads s) := by
    cases reads
    · exact .refl
    · exact RegisterWrites.refl.afterRead acc
  have hwrite : RegisterWrites s (writePhase acc dst r (readPhase acc reads s)) := by
    rcases dst with - | d | -
    · exact hread
    · exact hread.setCell (by decide) r
    · exact hread.afterWrite hs r
  apply RegisterWrites.applyUpd
  rcases flags with - | x
  · exact hwrite
  · exact hwrite.affect x.1 x.2

/-- What register writes keep. -/
theorem RegisterWrites.keeps (h : RegisterWrites s t) :
    t.pc = s.pc ∧ t.params = s.params ∧ t.run = s.run ∧ t.stackFaults = s.stackFaults := by
  induction h with
  | refl => exact ⟨rfl, rfl, rfl, rfl⟩
  | setBits _ _ _ _ ih => exact ih
  | stackView a v _ ih => simpa using ih

theorem RegisterWrites.memoryOk (h : RegisterWrites s t) (hs : s.memoryOk) : t.memoryOk := by
  induction h with
  | refl => exact hs
  | setBits ha m v _ ih => exact State.memoryOk_setBits ha m v ih
  | stackView a v _ ih => exact State.memoryOk_congr ih (by simp) (by simp) (by simp) (by simp)

end

/-- R40: the instructions that push. -/
def pushes : Instr → Bool
  | .push | .rcall _ | .call _ _ => true
  | _ => false

/-- R41: the instructions that pop. -/
def pops : Instr → Bool
  | .pop | .retlw _ | .ret _ | .retfie _ => true
  | _ => false

/-- All that the phases of an instruction can make of a state. -/
inductive StepEffect (s : State) : Instr → State → Prop where
  | writes {i : Instr} {t : State} (h : RegisterWrites s t) : StepEffect s i t
  | push {i : Instr} {t : State} (hi : pushes i = true) (v : PAddr) (ht : t = s.push v ∨ t = s.saveShadow.push v) : StepEffect s i t
  | pop {i : Instr} {t : State} (hi : pops i = true) (h : RegisterWrites s.popped t) (hstack : SameStack s.popped t) : StepEffect s i t
  | sleep : StepEffect s .sleep { s.setBits rconAddr 0x0C#8 0x08#8 with run := .halted }
  | reset : StepEffect s .reset s.softReset

/-- R122: the step does not both skip and redirect the PC. -/
def Progress.OneWay (p : Progress) : Prop := ¬(p.skip = true ∧ p.redirect.isSome = true)

theorem Progress.oneWay_of_no_skip {p : Progress} (h : p.skip = false) : p.OneWay := fun ⟨hskip, _⟩ => nomatch h.symm.trans hskip

/-- A step that its plan does not stop has an effect of `StepEffect`, and goes one way. -/
def HasEffect (s : State) (i : Instr) (r : Except CoreFault Progress) : Prop := ∀ p, r = .ok p → StepEffect s i p.s ∧ p.OneWay

section
variable {s : State} {i : Instr} {r : Except CoreFault Progress} {p : Progress}

theorem HasEffect.of_ok (hr : r = .ok p) (h : StepEffect s i p.s) (hway : p.OneWay) : HasEffect s i r := by
  rintro q hq
  obtain rfl : p = q := Except.ok.inj (hr.symm.trans hq)
  exact ⟨h, hway⟩

theorem HasEffect.of_no_skip (hr : r = .ok p) (h : StepEffect s i p.s) (hskip : p.skip = false) : HasEffect s i r :=
  .of_ok hr h (Progress.oneWay_of_no_skip hskip)

theorem HasEffect.of_error {why : CoreFault} (hr : r = .error why) : HasEffect s i r := by
  rintro q hq
  cases hr.symm.trans hq

theorem HasEffect.of_refused (h : Refused s r) : HasEffect s i r := .of_error h.choose_spec

theorem planRegs_hasEffect {needs : List Need} {g : Unit → Progress} (h : StepEffect s i (g ()).s) (hskip : (g ()).skip = false) :
    HasEffect s i ((planRegs s needs).map g) := by
  rcases planRegs_map_cases needs g with ⟨-, hr⟩ | ⟨c, hr⟩
  · exact .of_no_skip hr h hskip
  · exact .of_error hr

theorem runState_hasEffect {g : State → State} (h : StepEffect s i (g s)) : HasEffect s i (runState g s) := .of_no_skip rfl h rfl

theorem runLiteral_hasEffect {mask : Byte} {op : Byte → Byte → Byte × FlagVec} {k : Byte} : HasEffect s i (runLiteral mask op k s) :=
  planRegs_hasEffect (.writes ((RegisterWrites.refl.setCell (by decide) _).affect _ _)) rfl

theorem runBranch_hasEffect {mask : Byte} {taken : State → Bool} {n : Byte} : HasEffect s i (runBranch mask taken n s) := by
  apply planRegs_hasEffect <;> split
  · exact .writes .refl
  · exact .writes .refl
  · rfl
  · rfl

theorem oneOperand_hasEffect (h : hasOneOperand i = true) : HasEffect s i (runInstr i s) := by
  rcases runInstr_oneOperand i h with ⟨p, hr, hp⟩ | hrefused
  · exact .of_ok hr (.writes hp.registerWrites) hp.control
  · exact .of_refused hrefused

theorem runMulwf_hasEffect {f : Byte} {a : Bank} : HasEffect s i (runMulwf f a s) := by
  rcases runMulwf_inv (s := s) f a with ⟨p, hr, hp, -, hskip⟩ | hrefused
  · exact .of_no_skip hr (hp ▸ .writes (((RegisterWrites.refl.afterRead _).setProd _).applyUpd _)) hskip
  · exact .of_refused hrefused

theorem runMovff_hasEffect {fs fd : DAddr} : HasEffect s i (runMovff fs fd s) := by
  rcases runMovff_inv (s := s) fs fd with ⟨p, hr, hp, -, hskip⟩ | hrefused | hfatal
  · exact .of_no_skip hr (hp ▸ .writes (((RegisterWrites.refl.afterWrite (operandWith_sound _ _ _) _).applyUpd _).applyUpd _)) hskip
  · exact .of_refused hrefused
  · exact .of_error hfatal

theorem runLfsr_hasEffect {f : BitVec 2} {k : BitVec 12} : HasEffect s i (runLfsr f k s) := by
  unfold runLfsr
  split
  · next n _ => exact runState_hasEffect (.writes (RegisterWrites.refl.setPtr n k))
  · exact runState_hasEffect (.writes .refl)

theorem runCall_hasEffect {k : BitVec 20} {sel : Speed} : HasEffect s (.call k sel) (runCall k sel s) := by
  cases sel with
  | normal => exact .of_no_skip rfl (.push rfl _ (.inl rfl)) rfl
  | fast => exact planRegs_hasEffect (.push rfl _ (.inr rfl)) rfl

theorem runRet_hasEffect {sel : Speed} : HasEffect s (.ret sel) (runRet sel s) := by
  cases sel with
  | normal => exact .of_no_skip rfl (.pop rfl .refl (SameStack.refl _)) rfl
  | fast => exact .of_no_skip rfl (.pop rfl RegisterWrites.refl.restoreShadow ⟨rfl, rfl, rfl, rfl⟩) rfl

theorem runRetfie_hasEffect {sel : Speed} : HasEffect s (.retfie sel) (runRetfie sel s) := by
  refine .of_no_skip rfl (.pop rfl (RegisterWrites.refl.leaveInterrupt _) ?_) rfl
  show SameStack s.popped (s.popped.leaveInterrupt _)
  simp [SameStack]

/-- RETLW writes W first; the pop does not see it. -/
theorem runRetlw_hasEffect {k : Byte} : HasEffect s (.retlw k) (runRetlw k s) := by
  have hpop : (s.setCell wregAddr k).popped = s.popped.setCell wregAddr k := s.popped_setCell wregAddr k
  refine .of_no_skip rfl (.pop rfl ?_ ?_) rfl
  · show RegisterWrites s.popped (s.setCell wregAddr k).popped
    exact hpop ▸ RegisterWrites.refl.setCell (by decide) k
  · show SameStack s.popped (s.setCell wregAddr k).popped
    exact hpop ▸ ⟨rfl, rfl, rfl, rfl⟩

/-- The effect of every instruction, by its shape. -/
theorem runInstr_hasEffect (i : Instr) (s : State) : HasEffect s i (runInstr i s) := by
  cases i
  case addlw | sublw | andlw | iorlw | xorlw =>
    simp only [runInstr, runAddlw, runSublw, runAndlw, runIorlw, runXorlw]
    exact runLiteral_hasEffect
  case bz | bnz | bc | bnc | bov | bnov | bn | bnn =>
    simp only [runInstr, runBz, runBnz, runBc, runBnc, runBov, runBnov, runBn, runBnn]
    exact runBranch_hasEffect
  case daw =>
    simp only [runInstr, runDaw]
    exact planRegs_hasEffect (.writes ((RegisterWrites.refl.setCell (by decide) _).affect _ _)) rfl
  case mullw =>
    simp only [runInstr, runMullw]
    exact planRegs_hasEffect (.writes (RegisterWrites.refl.setProd _)) rfl
  case bra | goto => exact .of_no_skip rfl (.writes .refl) rfl
  case nop | tblwt =>
    simp only [runInstr, runNop, runTblwt]
    exact runState_hasEffect (.writes .refl)
  case movlw | movlb =>
    simp only [runInstr, runMovlw, runMovlb]
    exact runState_hasEffect (.writes (RegisterWrites.refl.setCell (by decide) _))
  case clrwdt =>
    simp only [runInstr, runClrwdt]
    exact runState_hasEffect (.writes (RegisterWrites.refl.setBits (by decide) _ _))
  case tblrd =>
    simp only [runInstr, runTblrd]
    exact runState_hasEffect (.writes (RegisterWrites.refl.tableRead _))
  case tblrdPostInc | tblrdPostDec =>
    simp only [runInstr, runTblrdPostInc, runTblrdPostDec]
    exact runState_hasEffect (.writes ((RegisterWrites.refl.tableRead _).setTblptr _))
  case tblrdPreInc =>
    simp only [runInstr, runTblrdPreInc]
    exact runState_hasEffect (.writes ((RegisterWrites.refl.setTblptr _).tableRead _))
  case tblwtPostInc | tblwtPostDec | tblwtPreInc =>
    simp only [runInstr, runTblwtPostInc, runTblwtPostDec, runTblwtPreInc]
    exact runState_hasEffect (.writes (RegisterWrites.refl.setTblptr _))
  case push | rcall => exact .of_no_skip rfl (.push rfl _ (.inl rfl)) rfl
  case pop => exact .of_no_skip rfl (.pop rfl .refl (SameStack.refl _)) rfl
  case sleep => exact .of_no_skip rfl .sleep rfl
  case reset => exact .of_no_skip rfl .reset rfl
  case retfie => exact runRetfie_hasEffect
  case call => exact runCall_hasEffect
  case ret => exact runRet_hasEffect
  case retlw => exact runRetlw_hasEffect
  case lfsr => exact runLfsr_hasEffect
  case mulwf => exact runMulwf_hasEffect
  case movff => exact runMovff_hasEffect
  all_goals exact oneOperand_hasEffect rfl

end

/-! ## The invariant (R20, R36, R37, R43) -/

section
variable {s t : State} {i : Instr}

theorem StepEffect.memoryOk (h : StepEffect s i t) (hs : s.memoryOk) : t.memoryOk := by
  cases h with
  | writes h => exact h.memoryOk hs
  | push _ v ht =>
    rcases ht with rfl | rfl
    · exact State.memoryOk_push v hs
    · exact State.memoryOk_push v (s := s.saveShadow) hs
  | pop _ h _ => exact h.memoryOk (State.memoryOk_popped hs)
  | sleep => exact State.memoryOk_setBits (by decide) _ _ hs
  | reset => exact State.memoryOk_softReset hs

/-- R120: the PC still holds pc0 when the phases end. -/
theorem StepEffect.pc (h : StepEffect s i t) : t.pc = s.pc ∧ t.params = s.params := by
  cases h with
  | writes h =>
    obtain ⟨hpc, hparams, -, -⟩ := h.keeps
    exact ⟨hpc, hparams⟩
  | push _ v ht => rcases ht with rfl | rfl <;> simp
  | pop _ h _ =>
    obtain ⟨hpc, hparams, -, -⟩ := h.keeps
    exact ⟨hpc.trans s.popped_pc, hparams.trans s.popped_params⟩
  | sleep => exact ⟨rfl, rfl⟩
  | reset => exact ⟨rfl, rfl⟩

theorem exec_inv (hs : s.Inv) (h : exec i s = .next t) : t.Inv := by
  rw [exec_eq] at h
  refine conclude_inv ?_ hs (fun p hp => ?_) h
  · unfold Instr.size
    split <;> rfl
  · obtain ⟨heffect, -⟩ := runInstr_hasEffect i s p hp
    obtain ⟨hpc, hparams⟩ := heffect.pc
    refine ⟨heffect.memoryOk hs.1, ?_⟩
    rw [State.pcOk, hpc, hparams]
    exact hs.2

theorem step_inv (hs : s.Inv) (h : step s = .next t) : t.Inv := by
  rcases step_cases s with ⟨-, hstep⟩ | ⟨-, hstep⟩ | ⟨why, -, hstep⟩ <;> rw [hstep] at h
  · exact exec_inv hs h
  · cases h
  · cases h

end

/-- Settles O55: an effect of `StepEffect` keeps the memories, and the PC it is concluded with is even and in range. -/
theorem stepKeepsInvariant : Obligations.StepKeepsInvariant := fun _ _ => step_inv

/-- Settles O13: the reset state is evaluated. -/
theorem resetState : Obligations.ResetState :=
  ⟨rfl, rfl, State.memoryOk_reset, rfl, Params.progBytes_pos _⟩

/-! ## The run state (R302, R304, R321, R329) -/

/-- Settles O53: the cases of `exec_run_cases`, the first of which keeps the run state. -/
theorem faultsAreAllOrNothing : Obligations.FaultsAreAllOrNothing := by
  intro i s t hexec hrun
  rcases exec_run_cases hexec with hkept | ⟨reason, rfl⟩ | hsleep | hreset | ⟨fs, fd, -, -, rfl⟩
  · exact absurd hkept hrun
  · exact .inr (.inr (.inr ⟨reason, rfl⟩))
  · exact .inl hsleep
  · exact .inr (.inl hreset)
  · exact .inr (.inr (.inl ⟨_, _, rfl, rfl⟩))

/-- Settles O11: whatever its effect, a step goes one way. -/
theorem neverSkipsAndRedirects : Obligations.NeverSkipsAndRedirects := fun i s p hp => (runInstr_hasEffect i s p hp).2

/-! ## The stack-fault record (R51, R326) -/

section
variable {s t : State} {i : Instr}

/-- R326: the step dropped a push onto a full stack, and recorded it. -/
def RecordsOverflow (s : State) (i : Instr) (t : State) : Prop :=
  t.stackFaults = s.stackFaults ++ [{ kind := .overflow, pc0 := s.pc }] ∧ s.sp.toNat = 31 ∧ t.sp = s.sp ∧ t.stk = s.stk ∧
    t.stkful = true ∧ t.run = s.run ∧ pushes i = true

/-- R326: the step popped an empty stack, and recorded it. -/
def RecordsUnderflow (s : State) (i : Instr) (t : State) : Prop :=
  t.stackFaults = s.stackFaults ++ [{ kind := .underflow, pc0 := s.pc }] ∧ s.sp = 0#5 ∧ t.sp = 0#5 ∧ t.stk = s.stk ∧
    t.stkunf = true ∧ t.run = s.run ∧ pops i = true

theorem push_stackFaults (hi : pushes i = true) (v : PAddr) :
    (s.push v).stackFaults = s.stackFaults ∨ RecordsOverflow s i (s.push v) := by
  rcases Nat.lt_or_ge s.sp.toNat 31 with hroom | hfull
  · obtain ⟨-, -, -, -, hkept⟩ := State.push_room v hroom
    exact .inl hkept
  · have hfull : s.sp.toNat = 31 := by omega
    rw [State.push_full v hfull]
    exact .inr ⟨rfl, hfull, rfl, rfl, rfl, rfl, hi⟩

theorem pop_stackFaults (hi : pops i = true) (h : RegisterWrites s.popped t) (hstack : SameStack s.popped t) :
    t.stackFaults = s.stackFaults ∨ RecordsUnderflow s i t := by
  obtain ⟨-, -, hrun, hfaults⟩ := h.keeps
  obtain ⟨hstk, hsp, -, hstkunf⟩ := hstack
  by_cases hempty : s.sp = 0#5
  · rw [State.popped_of_empty hempty] at hrun hfaults hstk hsp hstkunf
    exact .inr ⟨hfaults, hempty, hsp.trans hempty, hstk, hstkunf, hrun, hi⟩
  · rw [State.popped_of_ne hempty] at hfaults
    exact .inl hfaults

theorem StepEffect.stackFaults (h : StepEffect s i t) :
    t.stackFaults = s.stackFaults ∨ RecordsOverflow s i t ∨ RecordsUnderflow s i t := by
  cases h with
  | writes h =>
    obtain ⟨-, -, -, hfaults⟩ := h.keeps
    exact .inl hfaults
  | push hi v ht =>
    rcases ht with rfl | rfl
    · exact (push_stackFaults hi v).imp_right .inl
    · exact (push_stackFaults (s := s.saveShadow) hi v).imp_right .inl
  | pop hi h hstack => exact (pop_stackFaults hi h hstack).imp_right .inr
  | sleep => exact .inl rfl
  | reset => exact .inl rfl

theorem pushes_iff : pushes i = true ↔ i = .push ∨ (∃ n, i = .rcall n) ∨ ∃ k sel, i = .call k sel := by
  cases i <;> simp [pushes]

theorem pops_iff : pops i = true ↔ i = .pop ∨ (∃ k, i = .retlw k) ∨ (∃ sel, i = .ret sel) ∨ ∃ sel, i = .retfie sel := by
  cases i <;> simp [pops]

end

/-- Settles O54: only the push at the depth and the pop of nothing among the effects of a step add to the record. -/
theorem stackFaultsRecorded : Obligations.StackFaultsRecorded := by
  intro i s t hexec
  simp only [← pushes_iff, ← pops_iff]
  rcases exec_cases i s with ⟨p, hp, hnext⟩ | ⟨why, -, hnext⟩ <;> obtain rfl := Host.Outcome.next.inj (hnext.symm.trans hexec)
  · exact (runInstr_hasEffect i s p hp).1.stackFaults
  · exact .inl rfl

end Sys2Proof.Machine
end

