-- ==== Sys2Proof/Proofs/Resets.lean ====
section
/-! PROOFS. Proofs/Resets.lean: the two resets, cell by cell and mark by mark (R36, R370, R371, R304). -/

namespace Sys2Proof.Machine

/-! ## The power-on reset (R370) -/

/-- R36: the POR column, as addresses. -/
theorem porByte_eq (a : DAddr) :
    porByte a.toNat = if a = rconAddr then 0x1C#8 else if a = trisaAddr ∨ a = trisbAddr then 0xFF#8 else 0x00#8 := by
  simp only [porByte, ← BitVec.toNat_inj]
  rfl

/-- R36: the cells whose whole byte is unknown on silicon. -/
def unknownCells : List DAddr :=
  [wregAddr, prodhAddr, prodlAddr, fsr0lAddr, fsr0hAddr, fsr1lAddr, fsr1hAddr, fsr2lAddr, fsr2hAddr, portaAddr, portbAddr]

/-- R36: the marks x of the silicon POR column, as addresses. -/
theorem porUnknownMarks_eq (a : DAddr) :
    Memory.get zeroByte porUnknownMarks a.toNat
      = if a ∈ unknownCells then 0xFF#8 else if a = statusAddr then 0x1F#8 else if a = intconAddr then 0x01#8 else 0x00#8 := by
  split_ifs with hcell hstatus hintcon
  · fin_cases hcell <;> rfl
  · subst hstatus
    rfl
  · subst hintcon
    rfl
  · refine Memory.get_of_not_listed fun c hc => ?_
    simp only [unknownCells, List.mem_cons, List.not_mem_nil, or_false, ← BitVec.toNat_inj, BitVec.toNat_ofNat, Config.portA,
      Config.portB] at hcell hstatus hintcon
    fin_cases hc <;> dsimp only <;> omega

/-- Settles O12: the cells and the marks by the columns of R36; the other fields are what the reset writes. -/
theorem powerOnReset : Obligations.PowerOnReset := by
  intro s t
  refine ⟨fun a => (s.cell_powerOnReset a).trans (porByte_eq a), fun hzero a => ?_, fun hunknown a => ?_, rfl, fun n => ?_, rfl, rfl, rfl,
    rfl, rfl, rfl, rfl, rfl, rfl, rfl⟩
  · rw [State.unset_powerOnReset, hzero, if_neg (by decide)]
  · rw [State.unset_powerOnReset, if_pos hunknown, porUnknownMarks_eq]
    rfl
  · exact Vector.getElem_replicate _

/-! ## The RESET instruction (R371) -/

/-- R371: the cells that RESET leaves unchanged, but for the GPR cells. -/
def keptCells : List DAddr :=
  [wregAddr, statusAddr, prodhAddr, prodlAddr, fsr0lAddr, fsr0hAddr, fsr1lAddr, fsr1hAddr, fsr2lAddr, fsr2hAddr, portaAddr, portbAddr]

theorem keptByReset_iff (a : DAddr) :
    keptByReset a.toNat = true ↔ a.toNat < Config.gprLimit ∨ a ∈ keptCells ∨ a = intconAddr ∨ a = rconAddr := by
  simp only [keptByReset, keptCells, Bool.or_eq_true, decide_eq_true_eq, List.contains_eq_mem, List.mem_cons, List.not_mem_nil, or_false,
    ← BitVec.toNat_inj, BitVec.toNat_ofNat, Config.portA, Config.portB]
  omega

section
variable (s : State) {a : DAddr}

/-- R371: a kept cell keeps its byte and its marks. -/
theorem State.softReset_kept (h : a.toNat < Config.gprLimit ∨ a ∈ keptCells) :
    s.softReset.cell a = s.cell a ∧ s.softReset.unset a = s.unset a := by
  have hkept : keptByReset a.toNat = true := (keptByReset_iff a).2 (by tauto)
  have hne : a ≠ rconAddr ∧ a ≠ intconAddr := by
    rcases h with h | h
    · constructor <;> rintro rfl <;> revert h <;> decide
    · fin_cases h <;> decide
  rw [State.cell_softReset, State.unset_softReset, if_neg hne.1, if_neg hne.2, if_pos hkept, if_neg hne.1, if_neg hne.2, if_pos hkept]
  exact ⟨rfl, rfl⟩

/-- R371: any other SFR cell but INTCON and RCON returns to its reset value, which it holds. -/
theorem State.softReset_cleared (hsfr : Config.sfrBase ≤ a.toNat) (hkept : a ∉ keptCells) (hintcon : a ≠ intconAddr)
    (hrcon : a ≠ rconAddr) : s.softReset.cell a = porByte a.toNat ∧ s.softReset.unset a = 0x00#8 := by
  have hgpr : ¬a.toNat < Config.gprLimit := fun h => absurd (hsfr.trans_lt h) (by decide)
  have hnot : ¬keptByReset a.toNat = true := by
    rw [keptByReset_iff]
    tauto
  rw [State.cell_softReset, State.unset_softReset, if_neg hrcon, if_neg hintcon, if_neg hnot, if_neg hrcon, if_neg hintcon, if_neg hnot]
  exact ⟨rfl, rfl⟩

/-- R304, R372: the software reset, and on at the reset vector. -/
theorem exec_reset : exec .reset s = .next { s.softReset with pc := 0#21 } := by
  have hpc : wrapPc s.softReset.params 0#21 = 0#21 := wrapPc_self _ rfl (Params.progBytes_pos _)
  show Host.Outcome.next { s.softReset with pc := wrapPc s.softReset.params 0#21 } = _
  rw [hpc]

end

/-- Settles O14: the software reset by the kind of the cell, and no other field but SP, the run state and the PC. -/
theorem resetInstruction : Obligations.ResetInstruction := by
  intro s
  have hcell : ∀ a, ({ s.softReset with pc := 0#21 } : State).cell a = s.softReset.cell a := fun _ => rfl
  have hunset : ∀ a, ({ s.softReset with pc := 0#21 } : State).unset a = s.softReset.unset a := fun _ => rfl
  obtain ⟨htrisa, htrisaMark⟩ := s.softReset_cleared (a := trisaAddr) (by decide) (by decide) (by decide) (by decide)
  obtain ⟨htrisb, htrisbMark⟩ := s.softReset_cleared (a := trisbAddr) (by decide) (by decide) (by decide) (by decide)
  refine ⟨_, exec_reset s, fun a h => s.softReset_kept h, ?_, ?_, ?_, ?_, htrisa, htrisaMark, htrisb, htrisbMark, fun a hsfr h => ?_,
    rfl, rfl, rfl, rfl, rfl, ⟨rfl, rfl, rfl⟩, rfl, rfl, rfl, rfl⟩
  · rw [hcell, State.cell_softReset, if_neg (by decide), if_pos rfl]
  · rw [hunset, State.unset_softReset, if_neg (by decide), if_pos rfl]
  · rw [hcell, State.cell_softReset, if_pos rfl]
  · rw [hunset, State.unset_softReset, if_pos rfl]
  · have hkept : a ∉ keptCells := fun hmem => h (List.mem_append_left [intconAddr, rconAddr, trisaAddr, trisbAddr] hmem)
    simp only [List.mem_cons, List.not_mem_nil, or_false, not_or] at h
    obtain ⟨-, -, -, -, -, -, -, -, -, -, -, -, hintcon, hrcon, htrisa, htrisb⟩ := h
    obtain ⟨hbyte, hmark⟩ := s.softReset_cleared hsfr hkept hintcon hrcon
    refine ⟨(hcell a).trans (hbyte.trans ?_), (hunset a).trans hmark⟩
    rw [porByte_eq, if_neg hrcon, if_neg (not_or.2 ⟨htrisa, htrisb⟩)]

end Sys2Proof.Machine
end

