-- ==== Sys2Proof/Proofs/DataAccess.lean ====
section
/-! PROOFS. Proofs/DataAccess.lean: the kinds of data address, the value of a read by its kind, and what a write of a storage cell
changes (R20, R60, R72 and R73 of spec/20_memory.md; R29, R31, R36 and R39 of spec/10_state.md). -/

namespace Sys2Proof.Machine

/-! ## Kinds of address (R20, R60, R63) -/

section
variable (a : DAddr)

theorem isGap_iff : isGap a = true ↔ 0x300 ≤ a.toNat ∧ a.toNat < 0xF80 := by
  rw [isGap, Bool.and_eq_true, decide_eq_true_iff, decide_eq_true_iff]
  rfl

theorem isStackView_iff : isStackView a = true ↔ a ∈ [0xFFC#12, 0xFFD#12, 0xFFE#12, 0xFFF#12] := by
  simp only [isStackView, decide_eq_true_eq, List.mem_cons, List.not_mem_nil, or_false, ← BitVec.toNat_inj, BitVec.toNat_ofNat]
  omega

theorem isView_iff : isView a = true ↔ a = pclAddr ∨ isStackView a = true ∨ isIndirect a = true := by
  simp [isView, or_assoc]

theorem isStackView_iff_le : isStackView a = true ↔ 0xFFC ≤ a.toNat := decide_eq_true_iff

/-- R20, R60: the storage cells are the GPR cells and the SFR addresses that are no views. -/
theorem isStorage_iff_range :
    isStorage a = true ↔ a.toNat < 0x300 ∨ (0xF80 ≤ a.toNat ∧ a ≠ pclAddr ∧ a.toNat < 0xFFC ∧ ¬isIndirect a = true) := by
  have hindirect : isIndirect a = true → 0xF80 ≤ a.toNat := fun h => (by decide : 0xF80 ≤ 0xFDB).trans (isIndirect_range h).1
  have hpcl : a = pclAddr → 0xF80 ≤ a.toNat := by rintro rfl; decide
  rw [isStorage_iff, ← Bool.not_eq_true, ← Bool.not_eq_true, ← Bool.not_eq_true, isGap_iff, isStackView_iff_le]
  by_cases hi : isIndirect a = true
  · have := hindirect hi
    simp only [hi, not_true, and_false, or_false, false_iff]
    omega
  · by_cases hp : a = pclAddr
    · have := hpcl hp
      simp only [hp, ne_eq, not_true, false_and, and_false, or_false, false_iff] at this ⊢
      omega
    · simp only [hi, hp, ne_eq, Bool.false_eq_true, not_false_eq_true, true_and, and_true]
      omega

end

/-! ## The value of a read (R72) -/

section
variable (s : State) {acc : Access}

theorem State.readValue_indirect (hind : acc.ind = true) (h : isIndirect acc.ea = true) : s.readValue acc = 0x00#8 := by
  simp [State.readValue, hind, h]

/-- An address that is neither indirect nor in the gap is read by its own kind. -/
theorem State.readValue_special (hind : isIndirect acc.ea = false) (hgap : isGap acc.ea = false) :
    s.readValue acc = if acc.ea = pclAddr then (s.pcPlus 2#21).extractLsb 7 0
      else if isStackView acc.ea then s.stackViewRead acc.ea else s.cell acc.ea := by
  simp [State.readValue, hind, hgap]

theorem State.readValue_pcl (h : acc.ea = pclAddr) : s.readValue acc = (s.pcPlus 2#21).extractLsb 7 0 := by
  rw [State.readValue_special s (by rw [h]; decide) (by rw [h]; decide), if_pos h]

theorem State.readValue_stackView (h : isStackView acc.ea = true) : s.readValue acc = s.stackViewRead acc.ea := by
  have hle := (isStackView_iff_le _).1 h
  have hind : isIndirect acc.ea = false := Bool.eq_false_iff.2 fun hi => by have := (isIndirect_range hi).2; omega
  have hne : acc.ea ≠ pclAddr := fun e => by rw [e] at hle; exact absurd hle (by decide)
  rw [State.readValue_special s hind (isGap_false_of_sfr (by omega)), if_neg hne, if_pos h]

theorem State.toNat_readValue_pcl (h : acc.ea = pclAddr) :
    (s.readValue acc).toNat = (s.pc.toNat + 2) % s.params.progBytes % 256 := by
  rw [State.readValue_pcl s h, toNat_field, State.toNat_pcPlus]
  simp

theorem State.toNat_readValue_stkptr (h : acc.ea = stkptrAddr) :
    (s.readValue acc).toNat = s.stkful.toNat * 128 + s.stkunf.toNat * 64 + s.sp.toNat := by
  rw [State.readValue_stackView s (by rw [h]; decide), h]
  exact toNat_stkptr s.stkful s.stkunf s.sp

theorem State.toNat_readValue_tosl (h : acc.ea = toslAddr) : (s.readValue acc).toNat = s.tos.toNat % 256 := by
  have hview : s.stackViewRead toslAddr = s.tos.extractLsb 7 0 := rfl
  rw [State.readValue_stackView s (by rw [h]; decide), h, hview, toNat_field]
  simp

theorem State.toNat_readValue_tosh (h : acc.ea = toshAddr) : (s.readValue acc).toNat = s.tos.toNat / 256 % 256 := by
  have hview : s.stackViewRead toshAddr = s.tos.extractLsb 15 8 := rfl
  rw [State.readValue_stackView s (by rw [h]; decide), h, hview, toNat_field]
  rfl

theorem State.toNat_readValue_tosu (h : acc.ea = tosuAddr) : (s.readValue acc).toNat = s.tos.toNat / 65536 := by
  have hview : s.stackViewRead tosuAddr = 0#3 ++ s.tos.extractLsb 20 16 := rfl
  have hlt := s.tos.isLt
  rw [State.readValue_stackView s (by rw [h]; decide), h, hview, toNat_zero3_concat, toNat_field]
  omega

theorem State.toNat_ptr (n : Fsr) : (s.ptr n).toNat = (s.cell n.high).toNat % 16 * 256 + (s.cell n.low).toNat := by
  rw [State.ptr, toNat_nibble_byte, toNat_field]
  simp

theorem State.toNat_tblptr :
    s.tblptr.toNat = (s.cell tblptruAddr).toNat % 64 * 65536 + (s.cell tblptrhAddr).toNat * 256 + (s.cell tblptrlAddr).toNat := by
  rw [State.tblptr, toNat_table, toNat_field]
  simp

end

/-- Settles O17: the kinds in numbers, the addresses of R36, and the value of a read kind by kind. -/
theorem readByKind : Obligations.ReadByKind := by
  have hindirect : ∀ a : DAddr, isIndirect a = true ↔ a ∈ [0xFEF#12, 0xFEE#12, 0xFED#12, 0xFEC#12, 0xFEB#12, 0xFE7#12, 0xFE6#12,
      0xFE5#12, 0xFE4#12, 0xFE3#12, 0xFDF#12, 0xFDE#12, 0xFDD#12, 0xFDC#12, 0xFDB#12] := isIndirect_iff_mem
  refine ⟨fun a => ⟨isGap_iff a, hindirect a, isStackView_iff a, ?_, ?_⟩, ⟨rfl, rfl, rfl, rfl, rfl, rfl⟩,
    fun s => ⟨rfl, rfl, rfl, s.toNat_ptr, s.toNat_tblptr⟩, fun s acc => ⟨State.readValue_gap, s.readValue_indirect,
    s.toNat_readValue_pcl, s.toNat_readValue_stkptr, s.toNat_readValue_tosl, s.toNat_readValue_tosh, s.toNat_readValue_tosu,
    State.readValue_storage⟩⟩
  · rw [isView_iff, isStackView_iff, hindirect]
  · rw [isStorage_iff_range, hindirect]

/-! ## A write of a storage cell (R73) -/

theorem Progress.memWrite_storage {p : Progress} {acc : Access} (h : isStorage acc.ea = true) (v : Byte) :
    p.memWrite acc v = p.update (State.setCell acc.ea v) := by
  obtain ⟨hgap, hpcl, hview, hind⟩ := (isStorage_iff _).1 h
  simp [Progress.memWrite, hgap, hpcl, hview, hind]

/-- Settles O18: the write is `State.setCell`, whose cells and marks are known. -/
theorem writeThenRead : Obligations.WriteThenRead := by
  intro s a b v ha t
  have ht : t = s.setCell a v := congrArg Progress.s (Progress.memWrite_storage ha v)
  rw [ht]
  refine ⟨?_, ?_, fun hb => sameCells_setCell a v b hb, ⟨rfl, rfl, rfl, rfl⟩, ⟨rfl, rfl, rfl⟩, ⟨rfl, rfl, rfl, rfl⟩, rfl⟩
  · rw [State.readValue_storage ha, State.cell_setCell, if_pos rfl]
  · rw [State.unset_setCell, if_pos rfl]

end Sys2Proof.Machine
end

