-- ==== Sys2Proof/Proofs/ReturnStack.lean ====
section
/-! PROOFS. Proofs/ReturnStack.lean: the writes of the stack views, and the push and the pop (R39 to R41 of spec/10_state.md). -/

namespace Sys2Proof.Machine

section
variable (s : State) (v : Byte)

/-- R39: a write of STKPTR. -/
theorem State.toNat_setStkptr_sp : (s.setStkptr v).sp.toNat = min (v.toNat % 32) 31 := by
  have hfield : (v.extractLsb 4 0).toNat = v.toNat % 32 := (toNat_field 4 0 v).trans (by simp)
  simp only [State.setStkptr, Config.stackDepth, hfield, BitVec.toNat_ofNat]
  omega

theorem State.stackViewWrite_tosl : s.stackViewWrite toslAddr v = s.setTos (s.tos.extractLsb 20 8 ++ v) := rfl

theorem State.stackViewWrite_tosh :
    s.stackViewWrite toshAddr v = s.setTos (s.tos.extractLsb 20 16 ++ v ++ s.tos.extractLsb 7 0) := rfl

theorem State.stackViewWrite_tosu : s.stackViewWrite tosuAddr v = s.setTos (v.extractLsb 4 0 ++ s.tos.extractLsb 15 0) := rfl

/-- R39: each TOS view writes the top of the stack. -/
theorem State.stackViewWrite_tos {a : DAddr} (h : a ∈ [toslAddr, toshAddr, tosuAddr]) : ∃ t, s.stackViewWrite a v = s.setTos t := by
  fin_cases h
  · exact ⟨_, s.stackViewWrite_tosl v⟩
  · exact ⟨_, s.stackViewWrite_tosh v⟩
  · exact ⟨_, s.stackViewWrite_tosu v⟩

theorem State.toNat_newTosl : (s.tos.extractLsb 20 8 ++ v : PAddr).toNat = s.tos.toNat / 256 * 256 + v.toNat := by
  have := s.tos.isLt
  rw [toNat_program_low, toNat_field]
  omega

theorem State.toNat_newTosh : (s.tos.extractLsb 20 16 ++ v ++ s.tos.extractLsb 7 0 : PAddr).toNat
    = s.tos.toNat / 65536 * 65536 + v.toNat * 256 + s.tos.toNat % 256 := by
  have hprogram := toNat_program (s.tos.extractLsb 20 16) v (s.tos.extractLsb 7 0)
  have := s.tos.isLt
  rw [toNat_field, toNat_field] at hprogram
  refine hprogram.trans ?_
  omega

theorem State.toNat_newTosu : (v.extractLsb 4 0 ++ s.tos.extractLsb 15 0 : PAddr).toNat
    = v.toNat % 32 * 65536 + s.tos.toNat % 65536 := by
  rw [toNat_program_high, toNat_field, toNat_field]
  omega

/-- R39: what a new top of a stack that is not empty changes. -/
theorem State.setTos_entry {s : State} {n : Nat} (hn : s.sp.toNat = n + 1) (t : PAddr) :
    (s.setTos t).tos = t ∧ s.setTos t = { s with stk := (s.setTos t).stk } ∧ ∀ m : Nat, m ≠ n → (s.setTos t).stk[m]? = s.stk[m]? := by
  have hne : s.sp ≠ 0#5 := fun h => by simp [h] at hn
  obtain ⟨htos, hrest⟩ := State.setTos_spec hne t
  exact ⟨htos, s.setTos_frame t, fun m hm => hrest m (by omega)⟩

end

/-- Settles O19: STKPTR by its own write; the three TOS views by the new top of the stack, each as a number. -/
theorem stackViewWrites : Obligations.StackViewWrites := by
  intro s v
  refine ⟨⟨s.toNat_setStkptr_sp v, rfl, rfl, rfl⟩, fun a ha hempty => ?_, fun n hn => ⟨?_, ?_, ?_⟩⟩
  · obtain ⟨t, ht⟩ := s.stackViewWrite_tos v ha
    rw [ht, State.setTos_of_empty hempty]
  · obtain ⟨htos, hframe⟩ := State.setTos_entry hn (s.tos.extractLsb 20 8 ++ v)
    rw [State.stackViewWrite_tosl]
    exact ⟨(congrArg BitVec.toNat htos).trans (s.toNat_newTosl v), hframe⟩
  · obtain ⟨htos, hframe⟩ := State.setTos_entry hn (s.tos.extractLsb 20 16 ++ v ++ s.tos.extractLsb 7 0)
    rw [State.stackViewWrite_tosh]
    exact ⟨(congrArg BitVec.toNat htos).trans (s.toNat_newTosh v), hframe⟩
  · obtain ⟨htos, hframe⟩ := State.setTos_entry hn (v.extractLsb 4 0 ++ s.tos.extractLsb 15 0)
    rw [State.stackViewWrite_tosu]
    exact ⟨(congrArg BitVec.toNat htos).trans (s.toNat_newTosu v), hframe⟩

/-- R41: a pop after a push below the depth restores SP. -/
theorem State.sp_popped_push {s : State} (h : s.sp.toNat < 31) (v : PAddr) : (s.push v).popped.sp = s.sp := by
  obtain ⟨hsp, -⟩ := State.push_room v h
  have hne : (s.push v).sp ≠ 0#5 := fun h0 => by simp [h0] at hsp
  apply BitVec.eq_of_toNat_eq
  rw [State.sp_popped hne, hsp, Nat.add_sub_cancel]

/-- Settles O20: the push and the pop by whether the stack is full or empty. -/
theorem pushAndPop : Obligations.PushAndPop := by
  intro s v
  refine ⟨fun h => ?_, State.push_full v, fun h => ⟨State.tos_of_ne h, State.popped_of_ne h⟩,
    fun h => ⟨State.tos_of_empty h, State.popped_of_empty h⟩⟩
  obtain ⟨hsp, htos, hrest, hstkful, hfaults⟩ := State.push_room v h
  exact ⟨hsp, htos, hrest, hstkful, s.push_stkunf v, hfaults, State.push_frame v h, htos, State.sp_popped_push h v⟩

end Sys2Proof.Machine
end

