-- ==== Sys2Proof/Proofs/Flags.lean ====
section
/-! PROOFS. Proofs/Flags.lean: the flags of STATUS and the write under a mask (R24 and R25 of spec/10_state.md), and the carries that
chain two bytes (R134 and R137 of spec/40_arithmetic.md). -/

namespace Sys2Proof.Machine

/-! ## The flags (R24, R25) -/

/-- R24: the flags at their bit positions. -/
theorem FlagVec.getLsbD_toByte (fl : FlagVec) (b : Nat) :
    fl.toByte.getLsbD b = ([fl.c, fl.dc, fl.z, fl.ov, fl.n][b]?).getD false := by
  obtain ⟨c, dc, z, ov, n⟩ := fl
  rcases b with - | - | - | - | - | b <;> simp only [FlagVec.toByte, BitVec.getLsbD_append, BitVec.getLsbD_ofBool] <;> simp

theorem getLsbD_under_mask (x y mask : Byte) {b : Nat} (hb : b < 8) :
    ((x &&& ~~~mask) ||| (y &&& mask)).getLsbD b = if mask.getLsbD b then y.getLsbD b else x.getLsbD b := by
  rw [BitVec.getLsbD_or, BitVec.getLsbD_and, BitVec.getLsbD_and, BitVec.getLsbD_not]
  cases mask.getLsbD b <;> simp [hb]

theorem State.status_affect (s : State) (mask : Byte) (fl : FlagVec) :
    (s.affect mask fl).status = (s.status &&& ~~~mask) ||| (fl.toByte &&& mask) :=
  (s.cell_affect statusAddr mask fl).trans (if_pos rfl)

/-- Settles O21: the flag vector bit by bit, and a write of bits under a mask. -/
theorem affectWritesTheMask : Obligations.AffectWritesTheMask := by
  refine ⟨⟨rfl, rfl, rfl, rfl, rfl, rfl, rfl, rfl, rfl⟩, fun fl => ?_, fun s => ⟨rfl, rfl, rfl, rfl, rfl⟩, fun s mask fl => ?_⟩
  · simp only [FlagVec.getLsbD_toByte]
    refine ⟨rfl, rfl, rfl, rfl, rfl, fun b hb => ?_⟩
    rw [List.getElem?_eq_none hb, Option.getD_none]
  · refine ⟨s.status_affect mask fl, fun b hb => ?_, ⟨sameCells_setBits statusAddr mask fl.toByte, ⟨rfl, rfl, rfl⟩, ⟨rfl, rfl, rfl, rfl⟩⟩,
      ⟨rfl, rfl, rfl, rfl⟩, rfl⟩
    rw [s.status_affect mask fl, getLsbD_under_mask _ _ _ hb]

/-! ## Two bytes (R134, R137) -/

theorem toNat_add8_c (a b : Byte) (cin : Bool) : (add8 a b cin).2.c.toNat = (a.toNat + b.toNat + cin.toNat) / 256 := by
  have ha := a.isLt
  have hb := b.isLt
  have hcin := cin.toNat_le
  have hc := add8_c_iff a b cin
  cases h : (add8 a b cin).2.c <;> simp only [h, true_iff, Bool.false_eq_true, false_iff, Bool.toNat_true, Bool.toNat_false] at hc ⊢ <;>
    omega

/-- R134: the carry of the low bytes carries into the high ones. -/
theorem add8_chain (xh xl yh yl : Byte) :
    (add8 xh yh (add8 xl yl false).2.c).1 ++ (add8 xl yl false).1 = (xh ++ xl : Word16) + (yh ++ yl) := by
  apply BitVec.eq_of_toNat_eq
  rw [toNat_byte_byte, toNat_add8, toNat_add8, toNat_add8_c, BitVec.toNat_add, toNat_byte_byte, toNat_byte_byte, Bool.toNat_false]
  omega

/-- R131: the borrow out is 1 - C. -/
theorem toNat_not_sub8_c (x y : Byte) (bin : Bool) :
    (!(sub8 x y bin).2.c).toNat = if y.toNat + bin.toNat ≤ x.toNat then 0 else 1 := by
  have hc := sub8_c_iff x y bin
  split
  · next h => rw [hc.2 h]; rfl
  · next h => rw [Bool.eq_false_iff.2 (fun e => h (hc.1 e))]; rfl

/-- R137: the borrow of the low bytes is taken from the high ones. -/
theorem sub8_chain (xh xl yh yl : Byte) :
    (sub8 xh yh (!(sub8 xl yl false).2.c)).1 ++ (sub8 xl yl false).1 = (xh ++ xl : Word16) - (yh ++ yl) := by
  have hborrow : (!(sub8 xl yl false).2.c).toNat = if yl.toNat + 0 ≤ xl.toNat then 0 else 1 := toNat_not_sub8_c xl yl false
  have hlow : ((sub8 xl yl false).1.toNat : Int) = ((xl.toNat : Int) - yl.toNat - 0) % 256 := toNat_sub8 xl yl false
  have hhigh := toNat_sub8 xh yh (!(sub8 xl yl false).2.c)
  have hxh := xh.isLt
  have hxl := xl.isLt
  have hyh := yh.isLt
  have hyl := yl.isLt
  apply BitVec.eq_of_toNat_eq
  rw [toNat_byte_byte, BitVec.toNat_sub, toNat_byte_byte, toNat_byte_byte]
  split at hborrow <;> omega

theorem sub8_chain_c_iff (xh xl yh yl : Byte) :
    (sub8 xh yh (!(sub8 xl yl false).2.c)).2.c = true ↔ (xh ++ xl : Word16).toNat ≥ (yh ++ yl : Word16).toNat := by
  have hborrow : (!(sub8 xl yl false).2.c).toNat = if yl.toNat + 0 ≤ xl.toNat then 0 else 1 := toNat_not_sub8_c xl yl false
  have hxl := xl.isLt
  have hyl := yl.isLt
  rw [sub8_c_iff, toNat_byte_byte, toNat_byte_byte]
  split at hborrow <;> omega

/-- Settles O25: the sums and differences of the bytes as numbers, with the carry between them. -/
theorem twoByteArithmetic : Obligations.TwoByteArithmetic := fun xh xl yh yl =>
  ⟨add8_chain xh xl yh yl, sub8_chain xh xl yh yl, sub8_chain_c_iff xh xl yh yl⟩

end Sys2Proof.Machine
end

