-- ==== Sys2Proof/Proofs/Arithmetic.lean ====
section
/-! PROOFS. Proofs/Arithmetic.lean: the arithmetic instructions, the literal instructions and DAW (spec/40_arithmetic.md, and the
literals of spec/41_logic.md). -/

namespace Sys2Proof.Machine

/-! ## The instructions of one operand (R133 to R142) -/

/-- Settles O26: each is of shape `runByteDA`, NEGF of shape `runModify`. -/
theorem byteArithmetic : Obligations.ByteArithmetic := by
  intro s f d a addr acc v hclash
  refine ⟨fun h => ⟨?_, ?_⟩, fun h => ⟨?_, ?_, ?_⟩, fun h => ⟨?_, ?_, fun hnegf => ?_⟩⟩
  · exact runByteDA_spec (op := fun s v => add8 s.w v false) h hclash
  · exact runByteDA_spec (op := fun s v => sub8 v s.w false) h hclash
  · exact runByteDA_spec (op := fun s v => add8 s.w v s.flagC) h hclash
  · exact runByteDA_spec (op := fun s v => sub8 v s.w (!s.flagC)) h hclash
  · exact runByteDA_spec (op := fun s v => sub8 s.w v (!s.flagC)) h hclash
  · exact runByteDA_spec (op := fun _ v => add8 v 0x01#8 false) h hclash
  · exact runByteDA_spec (op := fun _ v => sub8 v 0x01#8 false) h hclash
  · exact runModify_spec (op := fun v => sub8 0x00#8 v false) h hnegf

/-! ## The literal instructions (R135, R139, R165 to R167) -/

/-- R160: Z and N, bit 7 being the sign. -/
theorem logicFlags_eq (r : Byte) :
    logicFlags r = { c := false, dc := false, z := decide (r = 0x00#8), ov := false, n := r.getLsbD 7 } := by
  rw [getLsbD_seven]
  rfl

theorem runLiteral_logic {s : State} (g : Byte → Byte → Byte) (k : Byte) (h : s.readyRegs [needW]) :
    ∃ t, conclude s 2#21 (runLiteral maskZN (fun w k => (g w k, logicFlags (g w k))) k s) = .next t ∧
      LiteralStep s t (g s.w k) 0x14#8
        { c := false, dc := false, z := decide (g s.w k = 0x00#8), ov := false, n := (g s.w k).getLsbD 7 } := by
  rw [← logicFlags_eq]
  exact runLiteral_spec (op := fun w k => (g w k, logicFlags (g w k))) h

/-- Settles O27: the five are of shape `runLiteral`, three of them with the flags of a logic operation. -/
theorem literalOperations : Obligations.LiteralOperations := by
  intro s k flags h
  exact ⟨runLiteral_spec (op := fun w k => add8 w k false) h, runLiteral_spec (op := fun w k => sub8 k w false) h,
    runLiteral_logic (· &&& ·) k h, runLiteral_logic (· ||| ·) k h, runLiteral_logic (· ^^^ ·) k h⟩

/-! ## DAW (R143) -/

/-- R143: the value of DAW before it is reduced to a byte. -/
def adjusted (w : Nat) (c dc : Bool) : Nat :=
  let v1 := if w % 16 > 9 ∨ dc = true then w + 0x06 else w
  if v1 > 0x9F ∨ c = true then v1 + 0x60 else v1

theorem decimalAdjust_eq (w : Byte) (c dc : Bool) :
    decimalAdjust w c dc = (BitVec.ofNat 8 (adjusted w.toNat c dc), c || decide (adjusted w.toNat c dc > 0xFF)) := rfl

section
variable {s : State}

/-- DAW as a literal instruction without a literal: it needs the flags it reads beside W, and those are ready. -/
theorem runDaw_eq (h : s.readyRegs [needW, needFlags (maskC ||| maskDC)]) :
    s.readyRegs [needW] ∧ runDaw s = runLiteral maskC (fun w _ => ((decimalAdjust w s.flagC s.flagDC).1,
      FlagVec.mk (decimalAdjust w s.flagC s.flagDC).2 false false false false)) 0x00#8 s := by
  obtain ⟨-, hw⟩ := operandNeeds_missing (as := []) (bs := [needW]) (cs := [needFlags (maskC ||| maskDC)]) h
  have hw : s.readyRegs [needW] := hw
  refine ⟨hw, ?_⟩
  rw [State.readyRegs] at h hw
  simp only [runDaw, runLiteral, planRegs, h, hw]

/-- R143: what DAW does. -/
theorem daw_spec (h : s.readyRegs [needW, needFlags (maskC ||| maskDC)]) :
    ∃ t, exec .daw s = .next t ∧ t.w.toNat = adjusted s.w.toNat s.flagC s.flagDC % 256 ∧
      (t.flagC = true ↔ s.flagC = true ∨ adjusted s.w.toNat s.flagC s.flagDC > 0xFF) ∧
      (∀ b : Nat, 1 ≤ b → b < 8 → t.status.getLsbD b = s.status.getLsbD b) ∧
      Elsewhere (fun x => x = wregAddr ∨ x = statusAddr) s t ∧ Advances 2 s t := by
  obtain ⟨hready, hrun⟩ := runDaw_eq h
  obtain ⟨t, hnext, hw, hstatus, ⟨hcells, helse⟩, hadvance⟩ := runLiteral_spec (mask := maskC) (k := 0x00#8)
    (op := fun w _ => ((decimalAdjust w s.flagC s.flagDC).1,
      FlagVec.mk (decimalAdjust w s.flagC s.flagDC).2 false false false false)) hready
  rw [← hrun] at hnext
  refine ⟨t, hnext, ?_, ?_, fun b hb hb8 => ?_, ⟨hcells.mono fun x => Or.imp_right And.right, helse⟩, hadvance⟩
  · rw [hw, decimalAdjust_eq, BitVec.toNat_ofNat]
  · rw [State.flagC, hstatus, getLsbD_under_mask _ _ _ (by decide), if_pos (by decide), FlagVec.getLsbD_toByte, decimalAdjust_eq]
    simp
  · have hmask : maskC.getLsbD b = false := by
      have hone : b ≠ 0 := by omega
      simp [maskC, BitVec.getLsbD_one, hone]
    rw [hstatus, getLsbD_under_mask _ _ _ hb8, hmask, if_neg Bool.false_ne_true]

end

/-- Settles O28: `adjusted` is the pseudocode's value. -/
theorem decimalAdjust_spec : Obligations.DecimalAdjust := fun _ h => daw_spec h

/-! ## Packed decimal addition (R143) -/

section
variable {s : State}

/-- A literal instruction leaves W and the flags of its mask with a value. -/
theorem runLiteral_unset {mask : Byte} {op : Byte → Byte → Byte × FlagVec} {k : Byte} (h : s.readyRegs [needW]) :
    ∃ t, conclude s 2#21 (runLiteral mask op k s) = .next t ∧ t.unset wregAddr = 0x00#8 ∧
      t.unset statusAddr = s.unset statusAddr &&& ~~~mask := by
  have hne : wregAddr ≠ statusAddr := by decide
  refine ⟨((((Progress.start s).update (State.setCell wregAddr (op s.w k).1)).affect mask (op s.w k).2).finish 2#21), ?_, ?_, ?_⟩
  · rw [State.readyRegs] at h
    simp only [runLiteral, planRegs, h, Except.map, conclude]
  · show ((s.setCell wregAddr (op s.w k).1).affect mask (op s.w k).2).unset wregAddr = _
    rw [State.unset_affect, if_neg hne, State.unset_setCell, if_pos rfl]
  · show ((s.setCell wregAddr (op s.w k).1).affect mask (op s.w k).2).unset statusAddr = _
    rw [State.unset_affect, if_pos rfl, State.unset_setCell, if_neg hne.symm]

theorem readyRegs_daw (hw : s.unset wregAddr = 0x00#8) (hstatus : s.unset statusAddr &&& (maskC ||| maskDC) = 0x00#8) :
    s.readyRegs [needW, needFlags (maskC ||| maskDC)] := by
  simp [State.readyRegs, State.missing, needW, needFlags, hw, hstatus]

/-- R135: ADDLW leaves the sum in W, the carries in C and DC, and W and the flags with a value. -/
theorem addlw_then_daw (k : Byte) (h : s.readyRegs [needW]) :
    ∃ t, exec (.addlw k) s = .next t ∧ t.readyRegs [needW, needFlags (maskC ||| maskDC)] ∧ t.w = (add8 s.w k false).1 ∧
      t.flagC = (add8 s.w k false).2.c ∧ t.flagDC = (add8 s.w k false).2.dc := by
  obtain ⟨t, hnext, hw, hstatus, -⟩ := runLiteral_spec (mask := maskAll) (op := fun w k => add8 w k false) (k := k) h
  obtain ⟨t', hnext', hunsetW, hunsetStatus⟩ := runLiteral_unset (mask := maskAll) (op := fun w k => add8 w k false) (k := k) h
  obtain rfl : t' = t := Host.Outcome.next.inj (hnext'.symm.trans hnext)
  refine ⟨t', hnext, readyRegs_daw hunsetW ?_, hw, ?_, ?_⟩
  · rw [hunsetStatus, BitVec.and_assoc, (by decide : ~~~maskAll &&& (maskC ||| maskDC) = 0#8), BitVec.and_zero]
  · rw [State.flagC, hstatus, getLsbD_under_mask _ _ _ (by decide), if_pos (by decide), FlagVec.getLsbD_toByte]
    rfl
  · rw [State.flagDC, hstatus, getLsbD_under_mask _ _ _ (by decide), if_pos (by decide), FlagVec.getLsbD_toByte]
    rfl

end

/-- `v` is, mod 256, the packed decimal of `sum` mod 100, and `v` or the carry `c` of the binary sum overflows where `sum` does. -/
abbrev IsBcdOf (sum : Nat) (c : Prop) (v : Nat) : Prop :=
  v % 256 / 16 ≤ 9 ∧ v % 256 % 16 ≤ 9 ∧ v % 256 / 16 * 10 + v % 256 % 16 = sum % 100 ∧ (c ∨ v > 0xFF ↔ sum ≥ 100)

/-- R143: the adjustment of a sum of two packed decimal bytes, whose high digits add up to `h` and whose low ones to `l`. -/
theorem adjusted_digitSums : ∀ h ≤ 18, ∀ l ≤ 18,
    IsBcdOf (10 * h + l) (16 * h + l > 0xFF) (adjusted ((16 * h + l) % 256) (decide (16 * h + l > 0xFF)) (decide (l > 0xF))) := by
  decide

theorem adjusted_add_bcd {x y : Byte} (hx : isBcd x) (hy : isBcd y) :
    let r := add8 x y false
    IsBcdOf (bcdValue x + bcdValue y) (r.2.c = true) (adjusted r.1.toNat r.2.c r.2.dc) := by
  intro r
  obtain ⟨hx1, hx0⟩ := hx
  obtain ⟨hy1, hy0⟩ := hy
  have hsum : 16 * (x.toNat / 16 + y.toNat / 16) + (x.toNat % 16 + y.toNat % 16) = x.toNat + y.toNat + false.toNat := by
    rw [Bool.toNat_false]
    omega
  have hvalue : 10 * (x.toNat / 16 + y.toNat / 16) + (x.toNat % 16 + y.toNat % 16) = bcdValue x + bcdValue y := by
    unfold bcdValue
    omega
  have hdigits := adjusted_digitSums _ (Nat.add_le_add hx1 hy1) _ (Nat.add_le_add hx0 hy0)
  rw [hsum, hvalue, ← toNat_add8] at hdigits
  rw [add8_c_iff]
  exact hdigits

/-- Settles O29: the two instructions one after the other, and the sum of the digits as numbers. -/
theorem bcdAddition : Obligations.BcdAddition := by
  intro s k h hs hk
  obtain ⟨t, haddlw, hready, hw, hc, hdc⟩ := addlw_then_daw k h
  obtain ⟨u, hdaw, huw, huc, -⟩ := daw_spec hready
  rw [hw, hc, hdc] at huw huc
  obtain ⟨hhigh, hlow, hvalue, hcarry⟩ := adjusted_add_bcd hs hk
  refine ⟨t, u, haddlw, hdaw, ?_, ?_, huc.trans hcarry⟩
  · rw [isBcd, huw]
    exact ⟨hhigh, hlow⟩
  · rw [bcdValue, huw]
    exact hvalue

end Sys2Proof.Machine
end

