-- ==== Sys2Proof/Proofs/LogicRotate.lean ====
section
/-! PROOFS. Proofs/LogicRotate.lean: the logic instructions, MOVF, the rotates and SWAPF (spec/41_logic.md, spec/45_move.md R210 and
spec/46_shift_rotate.md). -/

namespace Sys2Proof.Machine

section
variable {s : State} {f : Byte} {d : Dest} {a : Bank} {needs : List Need}

/-- R160: the instructions whose flags are Z and N of their result. -/
theorem runByteDA_logic (g : State → Byte → Byte) (h : s.ready (s.resolve f a) needs) (hclash : d = .file → ¬s.clashes (s.resolve f a)) :
    let acc := s.operand (s.resolve f a)
    let r := g s (s.readValue acc)
    ∃ t, conclude s 2#21 (runByteDA needs maskZN (fun s v => (g s v, logicFlags (g s v))) f d a s) = .next t ∧
      OperandStep s t acc true (some d) r 0x14#8
        { c := false, dc := false, z := decide (r = 0x00#8), ov := false, n := r.getLsbD 7 } false := by
  intro acc r
  rw [← logicFlags_eq]
  exact runByteDA_spec (op := fun s v => (g s v, logicFlags (g s v))) h hclash

end

/-- Settles O30: the five are of shape `runByteDA` with the flags of their result. -/
theorem byteLogic : Obligations.ByteLogic := by
  intro s f d a addr acc v flags hclash
  refine ⟨fun h => ⟨?_, ?_, ?_⟩, fun h => ⟨?_, ?_⟩⟩
  · exact runByteDA_logic (fun s v => s.w &&& v) h hclash
  · exact runByteDA_logic (fun s v => s.w ||| v) h hclash
  · exact runByteDA_logic (fun s v => s.w ^^^ v) h hclash
  · exact runByteDA_logic (fun _ v => ~~~v) h hclash
  · exact runByteDA_logic (fun _ v => v) h hclash

/-! ## Rotates as arithmetic (R230 to R234) -/

theorem toNat_lowField {n : Nat} (hi : Nat) (x : BitVec n) : (x.extractLsb hi 0).toNat = x.toNat % 2 ^ (hi + 1) :=
  (toNat_field hi 0 x).trans (by simp)

section
variable (v : Byte) (c : Bool)

theorem rotateFlags_eq (r : Byte) :
    rotateFlags r c = { c := c, dc := false, z := decide (r = 0x00#8), ov := false, n := r.getLsbD 7 } := by
  rw [rotateFlags, logicFlags_eq]

theorem rotateLeft_through : (v.extractLsb 6 0 ++ BitVec.ofBool c : Byte) = BitVec.ofNat 8 (2 * v.toNat + c.toNat) := by
  have h : (v.extractLsb 6 0 ++ BitVec.ofBool c : Byte).toNat = (v.extractLsb 6 0).toNat * 2 ^ 1 + (BitVec.ofBool c).toNat :=
    toNat_concat _ _
  have hc := c.toNat_le
  apply BitVec.eq_of_toNat_eq
  rw [h, toNat_field, BitVec.toNat_ofNat, BitVec.toNat_ofBool]
  omega

theorem rotateRight_through : (BitVec.ofBool c ++ v.extractLsb 7 1 : Byte) = BitVec.ofNat 8 (v.toNat / 2 + 128 * c.toNat) := by
  have h : (BitVec.ofBool c ++ v.extractLsb 7 1 : Byte).toNat = (BitVec.ofBool c).toNat * 2 ^ 7 + (v.extractLsb 7 1).toNat :=
    toNat_concat _ _
  have hc := c.toNat_le
  have hv := v.isLt
  apply BitVec.eq_of_toNat_eq
  rw [h, toNat_field, BitVec.toNat_ofNat, BitVec.toNat_ofBool]
  omega

theorem rotateLeft_fields : (v.extractLsb 6 0 ++ v.extractLsb 7 7 : Byte) = v.rotateLeft 1 := by
  have hfields : (v.extractLsb 6 0 ++ v.extractLsb 7 7 : Byte).toNat = (v.extractLsb 6 0).toNat <<< 1 ||| (v.extractLsb 7 7).toNat :=
    BitVec.toNat_append _ _
  have hrotate : (v.rotateLeft 1).toNat = v.toNat <<< 1 % 256 ||| v.toNat >>> 7 := rfl
  have hv := v.isLt
  apply BitVec.eq_of_toNat_eq
  rw [hfields, hrotate, toNat_lowField, toNat_field, Nat.shiftLeft_eq, Nat.shiftLeft_eq, Nat.shiftRight_eq_div_pow]
  congr 1 <;> omega

theorem rotateRight_fields : (v.extractLsb 0 0 ++ v.extractLsb 7 1 : Byte) = v.rotateRight 1 := by
  have hfields : (v.extractLsb 0 0 ++ v.extractLsb 7 1 : Byte).toNat = (v.extractLsb 0 0).toNat <<< 7 ||| (v.extractLsb 7 1).toNat :=
    BitVec.toNat_append _ _
  have hrotate : (v.rotateRight 1).toNat = v.toNat >>> 1 ||| v.toNat <<< 7 % 256 := rfl
  have hv := v.isLt
  apply BitVec.eq_of_toNat_eq
  rw [hfields, hrotate, Nat.or_comm, toNat_lowField, toNat_field, Nat.shiftLeft_eq, Nat.shiftLeft_eq, Nat.shiftRight_eq_div_pow]
  congr 1 <;> omega

theorem swap_nibbles : (v.extractLsb 3 0 ++ v.extractLsb 7 4 : Byte) = BitVec.ofNat 8 (v.toNat % 16 * 16 + v.toNat / 16) := by
  have h : (v.extractLsb 3 0 ++ v.extractLsb 7 4 : Byte).toNat = (v.extractLsb 3 0).toNat * 2 ^ 4 + (v.extractLsb 7 4).toNat :=
    toNat_concat _ _
  have hv := v.isLt
  apply BitVec.eq_of_toNat_eq
  have hhigh : v.toNat / 2 ^ 4 % 2 ^ (7 - 4 + 1) = v.toNat / 16 := Nat.mod_eq_of_lt (by omega : v.toNat / 16 < 16)
  have hlt : v.toNat % 16 * 16 + v.toNat / 16 < 256 := by omega
  rw [h, toNat_lowField, toNat_field, BitVec.toNat_ofNat, hhigh]
  exact (Nat.mod_eq_of_lt hlt).symm

end

/-- Settles O31: the five are of shape `runByteDA`; their results are the numbers above. -/
theorem rotates : Obligations.Rotates := by
  intro s f d a addr acc v flags hclash
  refine ⟨fun h => ⟨?_, ?_⟩, fun h => ⟨?_, ?_, ?_⟩⟩
  · rw [← rotateLeft_through]
    simp only [flags]
    rw [← rotateFlags_eq]
    exact runByteDA_spec (op := fun s v => (v.extractLsb 6 0 ++ BitVec.ofBool s.flagC,
      rotateFlags (v.extractLsb 6 0 ++ BitVec.ofBool s.flagC) (v.getLsbD 7))) h hclash
  · rw [← rotateRight_through]
    simp only [flags]
    rw [← rotateFlags_eq]
    exact runByteDA_spec (op := fun s v => (BitVec.ofBool s.flagC ++ v.extractLsb 7 1,
      rotateFlags (BitVec.ofBool s.flagC ++ v.extractLsb 7 1) (v.getLsbD 0))) h hclash
  · rw [← rotateLeft_fields]
    exact runByteDA_logic (fun _ v => v.extractLsb 6 0 ++ v.extractLsb 7 7) h hclash
  · rw [← rotateRight_fields]
    exact runByteDA_logic (fun _ v => v.extractLsb 0 0 ++ v.extractLsb 7 1) h hclash
  · rw [← swap_nibbles]
    exact runByteDA_spec (op := fun _ v => (v.extractLsb 3 0 ++ v.extractLsb 7 4, FlagVec.none)) h hclash

end Sys2Proof.Machine
end

