-- ==== Sys2Proof/Proofs/SkipsBits.lean ====
section
/-! PROOFS. Proofs/SkipsBits.lean: the instructions that skip and those of one bit (spec/42_incdec_skip.md, spec/43_compare_skip.md
and spec/44_bit.md). -/

namespace Sys2Proof.Machine

/-- Settles O32: the four are of shape `runIncDecSkip`. -/
theorem incrementAndSkip : Obligations.IncrementAndSkip := by
  intro s f d a addr acc v h hdest
  have hclash : d = .file → ¬s.clashes addr := fun hd => (hdest hd).1
  have hpcl : d = .file → acc.ea ≠ pclAddr := fun hd => (hdest hd).2
  have hnonzero : ∀ r : Byte, decide (r ≠ 0x00#8) = (r != 0x00#8) := fun r => decide_not
  refine ⟨?_, ?_, ?_, ?_⟩
  · exact runIncDecSkip_spec (op := fun v => v + 0x01#8) (cond := fun r => r == 0x00#8) h hclash hpcl
  · rw [hnonzero]
    exact runIncDecSkip_spec (op := fun v => v + 0x01#8) (cond := fun r => r != 0x00#8) h hclash hpcl
  · exact runIncDecSkip_spec (op := fun v => v - 0x01#8) (cond := fun r => r == 0x00#8) h hclash hpcl
  · rw [hnonzero]
    exact runIncDecSkip_spec (op := fun v => v - 0x01#8) (cond := fun r => r != 0x00#8) h hclash hpcl

/-- Settles O33: the four are of shape `runCompareSkip`. -/
theorem compareAndSkip : Obligations.CompareAndSkip := by
  intro s f a addr acc v
  refine ⟨fun h => ⟨?_, ?_, ?_⟩, fun h => ?_⟩
  · exact runCompareSkip_spec (cond := fun s v => v == s.w) h v
  · exact runCompareSkip_spec (cond := fun s v => decide (v.toNat > s.w.toNat)) h v
  · exact runCompareSkip_spec (cond := fun s v => decide (v.toNat < s.w.toNat)) h v
  · exact runCompareSkip_spec (cond := fun _ v => v == 0x00#8) h v

/-! ## One bit of a byte (R200 to R202) -/

theorem getLsbD_bit {b : Nat} (hb : b < 8) (n : Nat) : (1#8 <<< b).getLsbD n = decide (n = b) := by
  rw [BitVec.getLsbD_shiftLeft, BitVec.getLsbD_one]
  by_cases h : n = b
  · simp [h, hb]
  · rw [decide_eq_false h]
    by_cases hlt : n < b
    · simp [hlt]
    · have hne : n - b ≠ 0 := by omega
      simp [hne]

section
variable (v : Byte) (b : BitVec 3) {n : Nat}

theorem getLsbD_clearBit (hn : n < 8) : (v &&& ~~~(1#8 <<< b.toNat)).getLsbD n = if n = b.toNat then false else v.getLsbD n := by
  rw [BitVec.getLsbD_and, BitVec.getLsbD_not, getLsbD_bit b.isLt]
  by_cases h : n = b.toNat <;> simp [h, hn]

theorem getLsbD_setBit : (v ||| 1#8 <<< b.toNat).getLsbD n = if n = b.toNat then true else v.getLsbD n := by
  rw [BitVec.getLsbD_or, getLsbD_bit b.isLt]
  by_cases h : n = b.toNat <;> simp [h]

theorem getLsbD_toggleBit : (v ^^^ 1#8 <<< b.toNat).getLsbD n = if n = b.toNat then !v.getLsbD n else v.getLsbD n := by
  rw [BitVec.getLsbD_xor, getLsbD_bit b.isLt]
  by_cases h : n = b.toNat <;> simp [h]

end

/-- Settles O35: the tests are of shape `runBitSkip`, the changes of shape `runBitModify`. -/
theorem bitInstructions : Obligations.BitInstructions := by
  intro s f b a addr acc v h
  have hclear : ∀ x : Bool, decide (x = false) = !x := by decide
  have hset : ∀ x : Bool, decide (x = true) = x := by decide
  refine ⟨?_, ?_, fun hclash => ⟨v &&& ~~~(1#8 <<< b.toNat), v ||| 1#8 <<< b.toNat, v ^^^ 1#8 <<< b.toNat,
    fun n hn => ⟨getLsbD_clearBit v b hn, getLsbD_setBit v b, getLsbD_toggleBit v b⟩, ?_, ?_, ?_⟩⟩
  · rw [hclear]
    exact runBitSkip_spec (cond := fun x => !x) h v
  · rw [hset]
    exact runBitSkip_spec (cond := fun x => x) h v
  · exact runBitModify_spec (op := fun v m => v &&& ~~~m) h hclash
  · exact runBitModify_spec (op := fun v m => v ||| m) h hclash
  · exact runBitModify_spec (op := fun v m => v ^^^ m) h hclash

end Sys2Proof.Machine
end

