-- ==== Sys2Proof/Proofs/Moves.lean ====
section
/-! PROOFS. Proofs/Moves.lean: the moves (spec/45_move.md), MOVFF in full, and the multiplications (spec/47_multiply.md). -/

namespace Sys2Proof.Machine

/-- Settles O39: the three are of shape `runWrite`. -/
theorem writeOnly : Obligations.WriteOnly := by
  intro s f a addr acc hclash
  refine ⟨fun h => ?_, fun h => ⟨?_, ?_⟩⟩
  · exact runWrite_spec (value := State.w) h hclash
  · exact runWrite_spec (value := fun _ => 0x00#8) h hclash
  · exact runWrite_spec (value := fun _ => 0xFF#8) h hclash

/-! ## The end of a step that neither skips nor redirects -/

section
variable {s : State} {p : Progress}

/-- R120: only the PC changes. -/
theorem Progress.finish_advance {size : PAddr} (hredirect : p.redirect = none) (hskip : p.skip = false) (hpc : p.s.pc = s.pc)
    (hparams : p.s.params = s.params) : p.finish size = { p.s with pc := s.pcPlus size } := by
  simp [Progress.finish, Progress.nextPc, hredirect, hskip, State.pcPlus, hpc, hparams]

theorem seqPc_two_eq_pcPlus (s : State) : seqPc s 2 false = s.pcPlus 2#21 := by simp [seqPc_eq_pcPlus]

/-- A change of the state that keeps the PC and the parameters, in an instruction of one word. -/
theorem runState_advance {g : State → State} (hpc : (g s).pc = s.pc) (hparams : (g s).params = s.params) :
    conclude s 2#21 (runState g s) = .next { g s with pc := seqPc s 2 false } := by
  rw [runState_spec, seqPc_two_eq_pcPlus, State.pcPlus, State.pcPlus, hpc, hparams]

/-- The same in an instruction of two words. -/
theorem runState_advance_four {g : State → State} (hpc : (g s).pc = s.pc) (hparams : (g s).params = s.params) :
    conclude s 4#21 (runState g s) = .next { g s with pc := seqPc s 4 false } := by
  rw [runState_spec, seqPc_four_eq_pcPlus, State.pcPlus, State.pcPlus, hpc, hparams]

end

/-! ## The literal moves (R213 to R215) -/

section
variable (s : State)

/-- R213, R214: a literal into one cell. -/
theorem setCell_step (a : DAddr) (v : Byte) :
    ∃ t, conclude s 2#21 (runState (State.setCell a v) s) = .next t ∧ t.cell a = v ∧ Elsewhere (fun x => x = a) s t ∧
      Advances 2 s t := by
  refine ⟨_, runState_advance rfl rfl, ?_, ⟨sameCells_setCell a v, ⟨rfl, rfl, rfl⟩, ⟨rfl, rfl, rfl, rfl⟩⟩, ⟨rfl, rfl, rfl, rfl⟩, rfl⟩
  exact (s.cell_setCell a a v).trans (if_pos rfl)

/-- R215: the two bytes of a pointer. -/
theorem setPtr_step (n : Fsr) (p : DAddr) :
    ∃ t, conclude s 4#21 (runState (State.setPtr n p) s) = .next t ∧ t.ptr n = p ∧ (t.cell n.high).toNat = p.toNat / 256 ∧
      Elsewhere (fun x => x = n.low ∨ x = n.high) s t ∧ Advances 4 s t := by
  refine ⟨_, runState_advance_four rfl rfl, s.ptr_setPtr n p, ?_, ⟨sameCells_setPtr s n p, ⟨rfl, rfl, rfl⟩, ⟨rfl, rfl, rfl, rfl⟩⟩,
    ⟨rfl, rfl, rfl, rfl⟩, rfl⟩
  have hhigh : (s.setPtr n p).cell n.high = 0#4 ++ p.extractLsb 11 8 := (s.cell_setPtr n.high n p).trans (if_pos rfl)
  have := p.isLt
  show ((s.setPtr n p).cell n.high).toNat = _
  rw [hhigh, toNat_zero4_concat, toNat_field]
  omega

end

/-- Settles O40: each literal into its cell or its pair of cells. -/
theorem literalMoves : Obligations.LiteralMoves := by
  intro s k b p
  refine ⟨setCell_step s wregAddr k, ?_, fun f n hn => ?_⟩
  · obtain ⟨t, hnext, hcell, hframe⟩ := setCell_step s bsrAddr (0#4 ++ b)
    exact ⟨t, hnext, (congrArg BitVec.toNat hcell).trans (toNat_zero4_concat b), hframe⟩
  · fin_cases hn
    · exact setPtr_step s .fsr0 p
    · exact setPtr_step s .fsr1 p
    · exact setPtr_step s .fsr2 p

/-! ## MOVFF (R211) -/

section
variable {s t u : State} {acc : Access} {v : Byte} {fs fd : DAddr}

theorem SameStack.trans (h1 : SameStack s t) (h2 : SameStack t u) : SameStack s u :=
  ⟨h2.1.trans h1.1, h2.2.1.trans h1.2.1, h2.2.2.1.trans h1.2.2.1, h2.2.2.2.trans h1.2.2.2⟩

theorem SameShadow.trans (h1 : SameShadow s t) (h2 : SameShadow t u) : SameShadow s u :=
  ⟨h2.1.trans h1.1, h2.2.1.trans h1.2.1, h2.2.2.trans h1.2.2⟩

theorem SameMachine.trans (h1 : SameMachine s t) (h2 : SameMachine t u) : SameMachine s u :=
  ⟨h2.1.trans h1.1, h2.2.1.trans h1.2.1, h2.2.2.1.trans h1.2.2.1, h2.2.2.2.trans h1.2.2.2⟩

/-- What is made of the return stack by a write stays what it was made. -/
theorem StackAfterWrite.trans (h : StackAfterWrite acc v s t) (hsame : SameStack t u) : StackAfterWrite acc v s u := by
  unfold StackAfterWrite at h ⊢
  split at h
  · next hview => rw [if_pos hview]; exact h.trans hsame
  · next hview => rw [if_neg hview]; exact h.trans hsame

theorem State.afterWrite_phase (hsound : acc.sound) (v : Byte) : WritePhase s (s.afterWrite acc v) acc (some .file) v :=
  (writePhase_spec (Progress.start s) hsound (some .file)).1

/-- R67: an FSR update keeps everything but cells. -/
theorem State.applyUpd_frame (s : State) (upd : Option (Fsr × DAddr)) :
    SameStack s (s.applyUpd upd) ∧ SameShadow s (s.applyUpd upd) ∧ SameMachine s (s.applyUpd upd) := by
  simp [SameStack, SameShadow, SameMachine]

theorem movffUnrestricted_of_not_mem (h : ∀ x, x ∈ [fs, fd, (s.operand fs).ea, (movffDest fs fd s).ea] →
    x ∉ [pclAddr, toslAddr, toshAddr, tosuAddr]) : movffUnrestricted fs fd s :=
  ⟨h _ (by simp), h _ (by simp), fun _ => h _ (by simp), fun _ => h _ (by simp)⟩

/-- The state MOVFF leaves before the PC advances. -/
def movffState (fs fd : DAddr) (s : State) : State :=
  ((s.afterWrite (movffDest fs fd s) (s.readValue (s.operand fs))).applyUpd (s.operand fs).upd).applyUpd (movffDest fs fd s).upd

/-- A MOVFF whose plan does not stop it. -/
theorem exec_movff_of_plan (h : planMovff fs fd s = .ok (s.operand fs, movffDest fs fd s)) :
    exec (.movff fs fd) s = .next { movffState fs fd s with pc := seqPc s 4 false } := by
  have hok : ∃ q, runMovff fs fd s = .ok q := ⟨_, by rw [runMovff, h]; rfl⟩
  rcases runMovff_inv (s := s) fs fd with ⟨p, hr, hp, hredirect, hskip⟩ | ⟨reason, hrefused⟩ | hfatal
  · show conclude s 4#21 (runMovff fs fd s) = _
    rw [conclude_ok s hr, Progress.finish_advance hredirect hskip (s := s) (by simp [hp]) (by simp [hp]), hp, seqPc_four_eq_pcPlus]
    rfl
  · obtain ⟨q, hq⟩ := hok
    cases hq.symm.trans hrefused
  · obtain ⟨q, hq⟩ := hok
    cases hq.symm.trans hfatal

/-- The source's pointer keeps its update, unless the destination moves the same one. -/
theorem not_updCells_of_ne {upd : Option (Fsr × DAddr)} {n : Fsr} (h : ∀ q, upd ≠ some (n, q)) :
    ¬updCells upd n.low ∧ ¬updCells upd n.high := by
  refine ⟨?_, ?_⟩ <;> rintro ⟨m, q, hupd, he | he⟩
  · exact h q (Fsr.low_injective he ▸ hupd)
  · exact Fsr.low_ne_high n m he
  · exact Fsr.low_ne_high m n he.symm
  · exact h q (Fsr.high_injective he ▸ hupd)

end

/-- Settles O36: the write, and then the two updates in their order. -/
theorem moveFileToFile : Obligations.MoveFileToFile := by
  intro s fs fd src dst v hfree hready hsrc hdst
  have hwrite := State.afterWrite_phase (s := s) (operandWith_sound _ _ _ : dst.sound) v
  obtain ⟨hsrcApplied, hsrcCells⟩ := State.applyUpd_spec (s.afterWrite dst v) src.upd
  obtain ⟨hdstApplied, hdstCells⟩ := State.applyUpd_spec ((s.afterWrite dst v).applyUpd src.upd) dst.upd
  obtain ⟨hstack1, hshadow1, hmachine1⟩ := (s.afterWrite dst v).applyUpd_frame src.upd
  obtain ⟨hstack2, hshadow2, hmachine2⟩ := ((s.afterWrite dst v).applyUpd src.upd).applyUpd_frame dst.upd
  refine ⟨_, exec_movff_of_plan (planMovff_of_ready (movffUnrestricted_of_not_mem hfree) hready hsrc hdst), fun hstorage => ?_,
    hdstApplied, fun n p hupd hother => ?_, ?_, (hwrite.stack.trans hstack1).trans hstack2, (hwrite.shadow.trans hshadow1).trans hshadow2,
    (hwrite.machine.trans hmachine1).trans hmachine2, rfl⟩
  · refine ((hdstCells dst.ea (not_updCells_of_not_collides hdst)).1.trans ?_).trans (hwrite.stored rfl hstorage)
    exact (hsrcCells dst.ea (not_updCells_of_not_collides hsrc)).1
  · obtain ⟨hlow, hhigh⟩ := not_updCells_of_ne hother
    obtain ⟨hlow', hhigh'⟩ := hsrcApplied n p hupd
    exact ⟨(hdstCells _ hlow).1.trans hlow', (hdstCells _ hhigh).1.trans hhigh'⟩
  · have hwritten := hwrite.cells.mono (Q := fun x => accessTouches src false x ∨ accessTouches dst false x ∨
      (isStorage dst.ea = true ∧ x = dst.ea)) fun x hx => .inr (.inr (hx.resolve_left (fun h => by cases h.1)).2)
    have hmoved := hwritten.trans (hsrcCells.mono fun x hx => .inl (.inl hx))
    exact hmoved.trans (hdstCells.mono fun x hx => .inr (.inl (.inl hx)))

section
variable {s : State} {fs fd : DAddr}

/-- R211: a restricted operand is restricted through its pointers, where they hold a value. -/
theorem restrictedThrough_of_mem {addr ea : DAddr} (h : addr ∈ [pclAddr, toslAddr, toshAddr, tosuAddr] ∨
    (s.missing (operandNeeds addr) = none ∧ ea ∈ [pclAddr, toslAddr, toshAddr, tosuAddr])) : restrictedThrough s addr ea = true := by
  rw [restrictedThrough, Bool.or_eq_true, Bool.and_eq_true, restricted_iff_mem, restricted_iff_mem]
  exact h.imp_right fun ⟨hready, hea⟩ => ⟨by rw [hready]; rfl, hea⟩

/-- R211: MOVFF's fault names a restricted address. -/
theorem restricted_offendingAddress
    (h : restrictedThrough s fs (movffSource fs s).ea = true ∨ restrictedThrough s fd (movffDest fs fd s).ea = true) :
    restricted (offendingAddress fs fd s) = true := by
  have hreached : ∀ addr ea, restricted addr ≠ true → restrictedThrough s addr ea = true → restricted ea = true := fun addr ea hne hthrough => by
    rw [restrictedThrough, Bool.or_eq_true, Bool.and_eq_true] at hthrough
    exact (hthrough.resolve_left hne).2
  unfold offendingAddress
  split
  · assumption
  · next hfs =>
    split
    · assumption
    · next hfd =>
      split
      · next hsrc => exact hreached _ _ hfs hsrc
      · next hsrc => exact hreached _ _ hfd (h.resolve_left hsrc)

theorem exec_movff_fatal
    (h : restrictedThrough s fs (movffSource fs s).ea = true ∨ restrictedThrough s fd (movffDest fs fd s).ea = true) :
    exec (.movff fs fd) s = .next (s.takeFault (movffFault fs fd s)) := by
  have hplan : planMovff fs fd s = .error (movffFault fs fd s) := by
    unfold planMovff
    rw [if_pos (by simpa using h)]
  show conclude s 4#21 (runMovff fs fd s) = _
  rw [runMovff, hplan]
  rfl

end

/-- Settles O37: the condition is that of MOVFF's plan, whose fault keeps what the statement names. -/
theorem moveRestricted : Obligations.MoveRestricted := by
  intro s fs fd src dst special h
  have hthrough : restrictedThrough s fs (movffSource fs s).ea = true ∨ restrictedThrough s fd (movffDest fs fd s).ea = true := by
    rcases h with hfs | hfd | ⟨hready, hea⟩
    · exact .inl (restrictedThrough_of_mem (.inl hfs))
    · exact .inr (restrictedThrough_of_mem (.inl hfd))
    · obtain ⟨hreadyFs, hreadyFd⟩ := operandNeeds_missing (cs := []) (by rwa [List.append_nil])
      exact hea.imp (fun hsrc => restrictedThrough_of_mem (.inr ⟨hreadyFs, hsrc⟩)) fun hdst => restrictedThrough_of_mem (.inr ⟨hreadyFd, hdst⟩)
  exact ⟨_, exec_movff_fatal hthrough, rfl, rfl, rfl, rfl, restricted_iff_mem.1 (restricted_offendingAddress hthrough)⟩

/-! ## The multiplications (R240, R241) -/

section
variable {s : State} {f : Byte} {a : Bank}

theorem toNat_prod_setProd (s : State) (x y : Byte) :
    ((s.setProd (product x y)).cell prodhAddr ++ (s.setProd (product x y)).cell prodlAddr : Word16).toNat = x.toNat * y.toNat := by
  rw [State.prod_setProd, toNat_product]

theorem Fsr.low_ne_prod (n : Fsr) : prodhAddr ≠ n.low ∧ prodlAddr ≠ n.low := by cases n <;> decide

theorem Fsr.high_ne_prod (n : Fsr) : prodhAddr ≠ n.high ∧ prodlAddr ≠ n.high := by cases n <;> decide

/-- The cells of PROD and the latches are in no FSR. -/
theorem not_updCells_of_mem (upd : Option (Fsr × DAddr)) {x : DAddr} (h : x ∈ [prodhAddr, prodlAddr, pclathAddr, pclatuAddr]) :
    ¬updCells upd x := by
  fin_cases h <;> apply not_updCells <;> intro n
  · exact ⟨n.low_ne_prod.1, n.high_ne_prod.1⟩
  · exact ⟨n.low_ne_prod.2, n.high_ne_prod.2⟩
  · exact ⟨n.low_ne_latch.1, n.high_ne_latch.1⟩
  · exact ⟨n.low_ne_latch.2, n.high_ne_latch.2⟩

theorem exec_mulwf (h : s.ready (s.resolve f a) [needW]) :
    let acc := s.operand (s.resolve f a)
    exec (.mulwf f a) s
      = .next { ((s.afterRead acc).setProd (product s.w (s.readValue acc))).applyUpd acc.upd with pc := seqPc s 2 false } := by
  intro acc
  rcases runMulwf_inv (s := s) f a with ⟨p, hr, hp, hredirect, hskip⟩ | ⟨reason, hrefused⟩
  · show conclude s 2#21 (runMulwf f a s) = _
    rw [conclude_ok s hr, Progress.finish_advance hredirect hskip (s := s) (by simp [hp]) (by simp [hp]), hp, seqPc_two_eq_pcPlus]
  · rw [runMulwf, planRead_of_ready h] at hrefused
    cases hrefused

/-- R70: a read of PCL by a one-word instruction loads the latches. -/
theorem State.cell_afterRead_pcl {acc : Access} (h : acc.ea = pclAddr) :
    (s.afterRead acc).cell pclathAddr = latchHigh s ∧ (s.afterRead acc).cell pclatuAddr = latchUpper s := by
  have hne : pclathAddr ≠ pclatuAddr := by decide
  simp [State.afterRead, h, State.cell_loadLatches, latchHigh_eq, latchUpper_eq, hne]

end

/-- Settles O41: MULWF's read, product and update act on different cells. -/
theorem multiplication : Obligations.Multiplication := by
  intro s f a k acc
  have hprod := sameCells_setProd (s.afterRead acc) (product s.w (s.readValue acc))
  obtain ⟨happlied, hupd⟩ := State.applyUpd_spec ((s.afterRead acc).setProd (product s.w (s.readValue acc))) acc.upd
  refine ⟨fun h => ⟨_, exec_mulwf h, ?_, happlied, fun hpcl => ?_, ⟨?_, ?_, ?_⟩, ?_, rfl⟩, fun h => ?_⟩
  · have hhigh := (hupd prodhAddr (not_updCells_of_mem acc.upd (by simp))).1
    have hlow := (hupd prodlAddr (not_updCells_of_mem acc.upd (by simp))).1
    exact (congrArg BitVec.toNat (congrArg₂ (fun x y : Byte => (x ++ y : Word16)) hhigh hlow)).trans (toNat_prod_setProd _ _ _)
  · obtain ⟨hhigh, hupper⟩ := State.cell_afterRead_pcl (s := s) hpcl
    exact ⟨((hupd pclathAddr (not_updCells_of_mem acc.upd (by simp))).1.trans (hprod _ (by decide)).1).trans hhigh,
      ((hupd pclatuAddr (not_updCells_of_mem acc.upd (by simp))).1.trans (hprod _ (by decide)).1).trans hupper⟩
  · have hread := (sameCells_afterRead (s := s) acc).mono (Q := fun x => x = prodhAddr ∨ x = prodlAddr ∨ accessTouches acc true x)
      fun x hx => .inr (.inr (.inr ⟨rfl, hx⟩))
    exact (hread.trans (hprod.mono fun x hx => hx.imp_right .inl)).trans (hupd.mono fun x hx => .inr (.inr (.inl hx)))
  · simp [SameShadow]
  · simp [SameMachine]
  · simp [SameStack]
  · have hexec : exec (.mullw k) s = .next { s.setProd (product s.w k) with pc := seqPc s 2 false } := by
      show conclude s 2#21 (runMullw k s) = _
      rw [State.readyRegs] at h
      simp only [runMullw, planRegs, h]
      rw [seqPc_two_eq_pcPlus]
      exact congrArg _ (Progress.finish_advance rfl rfl rfl rfl)
    exact ⟨_, hexec, toNat_prod_setProd s s.w k, ⟨sameCells_setProd s _, ⟨rfl, rfl, rfl⟩, ⟨rfl, rfl, rfl, rfl⟩⟩, ⟨rfl, rfl, rfl, rfl⟩, rfl⟩

end Sys2Proof.Machine
end

