-- ==== Sys2Proof/Proofs/Control.lean ====
section
/-! PROOFS. Proofs/Control.lean: branches, jumps, calls and returns (spec/48_control.md). -/

namespace Sys2Proof.Machine

/-! ## The end of a step that redirects the PC (R122) -/

section
variable {s : State} {p : Progress}

theorem Progress.finish_goTo {size v : PAddr} (hredirect : p.redirect = some v) (hparams : p.s.params = s.params) :
    p.finish size = { p.s with pc := wrapPc s.params v } := by
  simp [Progress.finish, Progress.nextPc, hredirect, hparams]

/-- R250: the displacement is signed. -/
theorem wrapPc_relTarget_signExtend (hpc : s.pcOk) {w : Nat} (hw : w ≤ 21) (n : BitVec w) :
    wrapPc s.params (s.relTarget (n.signExtend 21)) = branchTarget s n.toInt := by
  rw [wrapPc_relTarget hpc.1, BitVec.toInt_signExtend_of_le hw]

/-! ## Branches (R251 to R260) -/

theorem exec_bra (hpc : s.pcOk) (n : BitVec 11) : exec (.bra n) s = .next { s with pc := branchTarget s n.toInt } := by
  rw [← wrapPc_relTarget_signExtend hpc (by decide)]
  rfl

theorem branch_if_set {mask : Byte} (hpc : s.pcOk) (h : s.readyRegs [needFlags mask]) (flag : State → Bool) (m : Byte) :
    conclude s 2#21 (runBranch mask flag m s)
      = .next { s with pc := if flag s = true then branchTarget s m.toInt else seqPc s 2 false } := by
  rw [runBranch_spec h, wrapPc_relTarget_signExtend hpc (by decide), seqPc_two_eq_pcPlus]

theorem branch_if_clear {mask : Byte} (hpc : s.pcOk) (h : s.readyRegs [needFlags mask]) (flag : State → Bool) (m : Byte) :
    conclude s 2#21 (runBranch mask (fun s => !flag s) m s)
      = .next { s with pc := if flag s = false then branchTarget s m.toInt else seqPc s 2 false } := by
  rw [branch_if_set hpc h]
  simp only [Bool.not_eq_true']

end

/-- Settles O42: each conditional branch is on a flag set or a flag clear. -/
theorem branches : Obligations.Branches := by
  intro s n m hpc
  exact ⟨exec_bra hpc n,
    fun h => ⟨branch_if_set hpc h State.flagZ m, branch_if_clear hpc h State.flagZ m⟩,
    fun h => ⟨branch_if_set hpc h State.flagC m, branch_if_clear hpc h State.flagC m⟩,
    fun h => ⟨branch_if_set hpc h State.flagOV m, branch_if_clear hpc h State.flagOV m⟩,
    fun h => ⟨branch_if_set hpc h State.flagN m, branch_if_clear hpc h State.flagN m⟩⟩

/-! ## Jumps and calls (R261 to R263, R267) -/

section
variable (s : State) (k : BitVec 20)

theorem exec_goto : exec (.goto k) s = .next { s with pc := jumpTarget s k } := by
  rw [← wrapPc_absTarget]
  rfl

theorem exec_call_normal : exec (.call k .normal) s = .next { s.push (seqPc s 4 false) with pc := jumpTarget s k } := by
  rw [← wrapPc_absTarget, seqPc_four_eq_pcPlus]
  exact congrArg _ (Progress.finish_goTo rfl (s.push_params _))

theorem exec_call_fast (h : s.readyRegs [needW, (statusAddr, 0xFF#8), (bsrAddr, 0xFF#8)]) :
    exec (.call k .fast) s
      = .next { s.push (seqPc s 4 false) with pc := jumpTarget s k, ws := s.w, statuss := s.status, bsrs := s.bsr } := by
  rw [State.readyRegs] at h
  show conclude s 4#21 (runCall k .fast s) = _
  simp only [runCall, planRegs, h]
  rw [← wrapPc_absTarget, seqPc_four_eq_pcPlus]
  refine (congrArg _ (Progress.finish_goTo rfl (s.saveShadow.push_params _))).trans ?_
  show Host.Outcome.next ({ s.saveShadow.push (s.pcPlus 4#21) with pc := wrapPc s.params (absTarget k) } : State) = _
  rw [State.push_saveShadow]

theorem exec_rcall {s : State} (hpc : s.pcOk) (n : BitVec 11) :
    exec (.rcall n) s = .next { s.push (seqPc s 2 false) with pc := branchTarget s n.toInt } := by
  rw [← wrapPc_relTarget_signExtend hpc (by decide), seqPc_two_eq_pcPlus]
  exact congrArg _ (Progress.finish_goTo rfl (s.push_params _))

theorem exec_push : exec .push s = .next { s.push (seqPc s 2 false) with pc := seqPc s 2 false } := by
  have hstep := runState_advance (s := s) (g := State.push (seqPc s 2 false)) (s.push_pc _) (s.push_params _)
  rw [← hstep, seqPc_two_eq_pcPlus]
  rfl

end

/-- Settles O43: the five, each by what it pushes and where it goes. -/
theorem jumpsAndCalls : Obligations.JumpsAndCalls := fun s k n =>
  ⟨exec_goto s k, exec_call_normal s k, exec_call_fast s k, fun hpc => exec_rcall hpc n, exec_push s⟩

/-! ## Returns (R264 to R266, R268) -/

section
variable (s : State)

theorem exec_ret_normal : exec (.ret .normal) s = .next { s.popped with pc := returnTarget s s.popValue } := by
  rw [← wrapPc_return]
  exact congrArg _ (Progress.finish_goTo rfl s.popped_params)

theorem exec_ret_fast : exec (.ret .fast) s = .next { s.popped.restoreShadow with pc := returnTarget s s.popValue } := by
  rw [← wrapPc_return]
  exact congrArg _ (Progress.finish_goTo rfl s.popped_params)

theorem exec_retlw (k : Byte) : exec (.retlw k) s = .next { s.popped.setCell wregAddr k with pc := returnTarget s s.popValue } := by
  rw [← wrapPc_return, ← State.popped_setCell]
  exact congrArg _ (Progress.finish_goTo rfl (s.setCell wregAddr k).popped_params)

theorem exec_retfie (sel : Speed) :
    exec (.retfie sel) s = .next { s.popped.leaveInterrupt (sel == .fast) with pc := returnTarget s s.popValue } := by
  rw [← wrapPc_return]
  exact congrArg _ (Progress.finish_goTo rfl ((s.popped.leaveInterrupt_params _).trans s.popped_params))

theorem exec_pop : exec .pop s = .next { s.popped with pc := seqPc s 2 false } := runState_advance s.popped_pc s.popped_params

/-- Beside the pop, a return changes cells alone. -/
theorem poppedElsewhere_of_cells {s u : State} {touched : DAddr → Prop} (x : PAddr) (hcells : SameCells touched s.popped u)
    (hstack : SameStack s.popped u) (hshadow : SameShadow s.popped u) (hmachine : SameMachine s.popped u) :
    PoppedElsewhere touched s { u with pc := x } :=
  ⟨fun y hy => ⟨(hcells y hy).1.trans (s.cell_popped y), (hcells y hy).2.trans (s.unset_popped y)⟩, hstack, by simpa [SameShadow] using hshadow, hmachine⟩

/-- R264: the cells that RETFIE touches. -/
theorem sameCells_leaveInterrupt (fast : Bool) :
    SameCells (fun x => x = intconAddr ∨ (fast = true ∧ (x = wregAddr ∨ x = statusAddr ∨ x = bsrAddr))) s (s.leaveInterrupt fast) := by
  cases fast with
  | false => exact (sameCells_setBits intconAddr _ _).mono fun x hx => .inl hx
  | true =>
    have hrestored := (State.restoreShadow_spec s).2.mono (Q := fun x => x = intconAddr ∨ (true = true ∧ (x = wregAddr ∨ x = statusAddr ∨
      x = bsrAddr))) fun x hx => .inr ⟨rfl, hx⟩
    exact hrestored.trans ((sameCells_setBits intconAddr _ _).mono fun x hx => .inl hx)

theorem shadowRestored_ret_fast (x : PAddr) : ShadowRestored s { s.popped.restoreShadow with pc := x } := by
  obtain ⟨hw, hstatus, hbsr⟩ := (State.restoreShadow_spec s.popped).1
  exact ⟨hw.trans s.popped_ws, hstatus.trans s.popped_statuss, hbsr.trans s.popped_bsrs⟩

theorem shadowRestored_retfie_fast (x : PAddr) : ShadowRestored s { s.popped.leaveInterrupt true with pc := x } := by
  obtain ⟨hw, hstatus, hbsr⟩ := shadowRestored_ret_fast s x
  exact ⟨((s.popped.cell_leaveInterrupt true _).trans (if_neg (by decide))).trans hw,
    ((s.popped.cell_leaveInterrupt true _).trans (if_neg (by decide))).trans hstatus,
    ((s.popped.cell_leaveInterrupt true _).trans (if_neg (by decide))).trans hbsr⟩

/-- R264: GIE is set. -/
theorem cell_intcon_retfie (fast : Bool) : (s.popped.leaveInterrupt fast).cell intconAddr = s.cell intconAddr ||| 0x80#8 := by
  rw [State.cell_leaveInterrupt, if_pos rfl, State.cell_popped]

theorem leaveInterrupt_frame (fast : Bool) :
    SameStack s (s.leaveInterrupt fast) ∧ SameShadow s (s.leaveInterrupt fast) ∧ SameMachine s (s.leaveInterrupt fast) := by
  simp [SameStack, SameShadow, SameMachine]

end

/-- Settles O44: each is the pop, its own cells, and the PC. -/
theorem returns : Obligations.Returns := by
  intro s k
  obtain ⟨hstack0, hshadow0, hmachine0⟩ := leaveInterrupt_frame s.popped false
  obtain ⟨hstack1, hshadow1, hmachine1⟩ := leaveInterrupt_frame s.popped true
  refine ⟨exec_ret_normal s, ⟨_, exec_ret_fast s, shadowRestored_ret_fast s _, ?_, rfl⟩, ⟨_, exec_retlw s k, ?_, ?_, rfl⟩,
    ⟨_, exec_retfie s .normal, cell_intcon_retfie s _, ?_, rfl⟩,
    ⟨_, exec_retfie s .fast, shadowRestored_retfie_fast s _, cell_intcon_retfie s _, ?_, rfl⟩, exec_pop s⟩
  · exact poppedElsewhere_of_cells _ (State.restoreShadow_spec s.popped).2 ⟨rfl, rfl, rfl, rfl⟩ ⟨rfl, rfl, rfl⟩ ⟨rfl, rfl, rfl, rfl⟩
  · exact (s.popped.cell_setCell wregAddr wregAddr k).trans (if_pos rfl)
  · exact poppedElsewhere_of_cells _ (sameCells_setCell wregAddr k) ⟨rfl, rfl, rfl, rfl⟩ ⟨rfl, rfl, rfl⟩ ⟨rfl, rfl, rfl, rfl⟩
  · exact poppedElsewhere_of_cells _ ((sameCells_leaveInterrupt s.popped false).mono fun x hx => hx.resolve_right fun h => by cases h.1)
      hstack0 hshadow0 hmachine0
  · exact poppedElsewhere_of_cells _ ((sameCells_leaveInterrupt s.popped true).mono fun x hx => hx.imp_right And.right)
      hstack1 hshadow1 hmachine1

/-- Settles O46: the call leaves its registers in the shadow slot, which the return gives back. -/
theorem fastCallAndReturn : Obligations.FastCallAndReturn := by
  intro s t u k h hcall hshadow
  obtain rfl := Host.Outcome.next.inj ((exec_call_fast s k h).symm.trans hcall)
  obtain ⟨hws, hstatuss, hbsrs⟩ := hshadow
  obtain ⟨hw, hstatus, hbsr⟩ := shadowRestored_ret_fast u (returnTarget u u.popValue)
  exact ⟨⟨_, exec_ret_fast u, hw.trans hws, hstatus.trans hstatuss, hbsr.trans hbsrs⟩,
    fun k' h' => ⟨_, exec_call_fast u k' h', rfl, rfl, rfl⟩⟩

/-! ## Nested calls (R269) -/

theorem execAll_append {as bs : List Instr} {s t : State} (h : execAll as s = .next t) : execAll (as ++ bs) s = execAll bs t := by
  induction as generalizing s with
  | nil => rw [List.nil_append, Host.Outcome.next.inj h]
  | cons i rest ih =>
    simp only [List.cons_append, execAll] at h ⊢
    cases hi : exec i s <;> rw [hi] at h
    case next u => exact ih h
    all_goals cases h

/-- What calls and as many returns leave as it was: SP, the entries below it, the stack-fault record, the cells and the parameters. -/
structure Undone (s u : State) : Prop where
  sp : u.sp = s.sp
  entries : ∀ m : Nat, m < s.sp.toNat → u.stk[m]? = s.stk[m]?
  stackFaults : u.stackFaults = s.stackFaults
  cells : ∀ x, u.cell x = s.cell x
  params : u.params = s.params

section
variable {s u : State}

/-- The address after an instruction is even and in range, so a return goes there. -/
theorem wrapPc_seqPc (hpc : s.pcOk) (i : Instr) : wrapPc s.params (seqPc s i.size false) = seqPc s i.size false := by
  have hsize : i.size = 2 ∨ i.size = 4 := by
    unfold Instr.size
    split <;> simp
  rcases hsize with h | h <;> rw [h]
  · rw [seqPc_two_eq_pcPlus]
    obtain ⟨heven, hlt⟩ := State.pcPlus_ok hpc 2#21 (by decide)
    exact wrapPc_self _ heven hlt
  · rw [seqPc_four_eq_pcPlus]
    obtain ⟨heven, hlt⟩ := State.pcPlus_ok hpc 4#21 (by decide)
    exact wrapPc_self _ heven hlt

/-- R262, R263: a call pushes the address after it and goes to an even address in range. -/
theorem exec_plainCall {i : Instr} (hi : isPlainCall i) (hpc : s.pcOk) :
    ∃ v, exec i s = .next { s.push (seqPc s i.size false) with pc := wrapPc s.params v } := by
  rcases hi with ⟨k, rfl⟩ | ⟨n, rfl⟩
  · exact ⟨absTarget k, by rw [exec_call_normal, wrapPc_absTarget]; rfl⟩
  · exact ⟨s.relTarget (n.signExtend 21), by rw [exec_rcall hpc, wrapPc_relTarget_signExtend hpc (by decide)]; rfl⟩

/-- R265: a return after what a call pushed undoes the call. -/
theorem exec_ret_undone {v x : PAddr} (hroom : s.sp.toNat < 31) (hv : wrapPc s.params v = v)
    (h : Undone { s.push v with pc := x } u) : ∃ w, exec (.ret .normal) u = .next w ∧ Undone s w ∧ w.pc = v := by
  obtain ⟨hsp, htos, hentries, -, hfaults⟩ := State.push_room v hroom
  have husp : u.sp = (s.push v).sp := h.sp
  have hne : u.sp ≠ 0#5 := fun h0 => by rw [← husp, h0] at hsp; simp at hsp
  have hpne : (s.push v).sp ≠ 0#5 := husp ▸ hne
  have hparams : u.params = s.params := h.params.trans (s.push_params v)
  have hpop : u.popValue = v := by
    have htop : u.stk[(s.push v).sp.toNat - 1]? = (s.push v).stk[(s.push v).sp.toNat - 1]? :=
      h.entries _ (by show (s.push v).sp.toNat - 1 < (s.push v).sp.toNat; omega)
    rw [State.popValue, State.tos_of_ne hne, husp, htop, ← State.tos_of_ne hpne, htos]
  refine ⟨_, exec_ret_normal u, ⟨?_, fun m hm => ?_, ?_, fun y => ?_, ?_⟩, ?_⟩
  · apply BitVec.eq_of_toNat_eq
    show u.popped.sp.toNat = _
    rw [State.sp_popped hne, husp, hsp, Nat.add_sub_cancel]
  · show u.popped.stk[m]? = _
    rw [State.popped_stk, h.entries m (by show m < (s.push v).sp.toNat; omega)]
    exact hentries m (Nat.ne_of_lt hm)
  · show u.popped.stackFaults = _
    rw [State.popped_of_ne hne]
    exact h.stackFaults.trans hfaults
  · exact (u.cell_popped y).trans ((h.cells y).trans (s.cell_push y v))
  · exact u.popped_params.trans hparams
  · show returnTarget u u.popValue = v
    rw [← wrapPc_return, hpop, hparams, hv]

/-- A call, instructions that undo themselves one level deeper, and a return. -/
theorem call_body_return {i : Instr} {body : List Instr} (hi : isPlainCall i) (hpc : s.pcOk) (hroom : s.sp.toNat < 31)
    (hbody : ∀ t : State, t.pcOk → t.sp.toNat = s.sp.toNat + 1 → ∃ u, execAll body t = .next u ∧ Undone t u) :
    ∃ w, execAll (i :: (body ++ [.ret .normal])) s = .next w ∧ Undone s w ∧ w.pc = seqPc s i.size false := by
  obtain ⟨v, hcall⟩ := exec_plainCall hi hpc
  obtain ⟨hsp, -⟩ := State.push_room (seqPc s i.size false) hroom
  obtain ⟨u, hrun, hundone⟩ := hbody { s.push (seqPc s i.size false) with pc := wrapPc s.params v }
    (by simpa [State.pcOk] using wrapPc_ok s.params v) hsp
  obtain ⟨w, hret, hw⟩ := exec_ret_undone hroom (wrapPc_seqPc hpc i) hundone
  refine ⟨w, ?_, hw⟩
  simp only [execAll, hcall]
  rw [execAll_append hrun]
  simp only [execAll, hret]

/-- R269 (1): by induction on the nested calls. -/
theorem calls_then_returns (calls : List Instr) (hplain : ∀ c ∈ calls, isPlainCall c) (hpc : s.pcOk)
    (hroom : s.sp.toNat + calls.length ≤ 31) :
    ∃ u, execAll (calls ++ List.replicate calls.length (.ret .normal)) s = .next u ∧ Undone s u := by
  induction calls generalizing s with
  | nil => exact ⟨s, rfl, rfl, fun _ _ => rfl, rfl, fun _ => rfl, rfl⟩
  | cons i rest ih =>
    rw [List.length_cons] at hroom
    obtain ⟨w, hrun, hw, -⟩ := call_body_return (hplain i List.mem_cons_self) hpc (by omega) fun t ht hsp =>
      ih (fun c hc => hplain c (List.mem_cons_of_mem _ hc)) ht (by omega)
    refine ⟨w, ?_, hw⟩
    rw [List.length_cons, List.replicate_succ', List.cons_append, ← List.append_assoc]
    exact hrun

end

/-- Settles O45: the outermost call and return around the nested ones. -/
theorem nestedCallsReturn : Obligations.NestedCallsReturn := by
  intro s i calls hpc hplain hroom
  obtain ⟨w, hrun, hw, hwpc⟩ := call_body_return (hplain i List.mem_cons_self) hpc (by omega) fun t ht hsp =>
    calls_then_returns calls (fun c hc => hplain c (List.mem_cons_of_mem _ hc)) ht (by omega)
  refine ⟨w, ?_, hwpc, hw.sp, hw.entries, hw.stackFaults, hw.cells⟩
  rw [List.replicate_succ', List.cons_append, ← List.append_assoc]
  exact hrun

end Sys2Proof.Machine
end

