-- ==== Sys2Proof/Proofs/TableSystem.lean ====
section
/-! PROOFS. Proofs/TableSystem.lean: the table pointer, the table reads and the system instructions (spec/49_table_system.md), and the
instruction a step runs (spec/30_encoding.md R105, R120). -/

namespace Sys2Proof.Machine

/-! ## The table pointer (R290) -/

section
variable (s : State) (v : TAddr)

theorem toNat_tblptrl_setTblptr : ((s.setTblptr v).cell tblptrlAddr).toNat = v.toNat % 256 := by
  rw [State.cell_setTblptr, if_neg (by decide), if_neg (by decide), if_pos rfl, toNat_lowField]
  rfl

theorem toNat_tblptrh_setTblptr : ((s.setTblptr v).cell tblptrhAddr).toNat = v.toNat / 256 % 256 := by
  rw [State.cell_setTblptr, if_neg (by decide), if_pos rfl, toNat_field]
  rfl

theorem toNat_tblptru_setTblptr : ((s.setTblptr v).cell tblptruAddr).toNat = v.toNat / 65536 := by
  have := v.isLt
  rw [State.cell_setTblptr, if_pos rfl, toNat_zero2_concat, toNat_field]
  omega

end

/-- Settles O47: the three bytes of the pointer, and the pointer they make. -/
theorem setTablePointer : Obligations.SetTablePointer := fun s v =>
  ⟨(s.tblptr_setTblptr v).1, toNat_tblptrl_setTblptr s v, toNat_tblptrh_setTblptr s v, toNat_tblptru_setTblptr s v,
    ⟨sameCells_setTblptr s v, ⟨rfl, rfl, rfl⟩, ⟨rfl, rfl, rfl, rfl⟩⟩, ⟨rfl, rfl, rfl, rfl⟩, rfl⟩

/-! ## The table reads (R292 to R295) -/

section
variable (s : State) (v t : TAddr)

theorem not_tablePointerCell_tablat : ¬tablePointerCell tablatAddr := by
  unfold tablePointerCell
  decide

theorem cell_tableRead : (s.tableRead t).cell tablatAddr = s.tableByte t := (s.cell_setCell tablatAddr tablatAddr _).trans (if_pos rfl)

theorem sameCells_tableRead : SameCells (fun x => x = tablatAddr) s (s.tableRead t) := sameCells_setCell tablatAddr _

/-- TABLAT is no byte of TBLPTR. -/
theorem tblptrSet_tableRead (h : TblptrSet v s) : TblptrSet v (s.tableRead t) := by
  have hkeeps : ∀ x, x ≠ tablatAddr → (s.tableRead t).cell x = s.cell x := fun x hx => (sameCells_tableRead s t x hx).1
  rw [TblptrSet, State.tblptr, hkeeps _ (by decide), hkeeps _ (by decide), hkeeps _ (by decide)]
  exact h

/-- R293, R294: the read, then the pointer. -/
theorem tableRead_setTblptr_step :
    ∃ u, conclude s 2#21 (runState (fun s => (s.tableRead t).setTblptr v) s) = .next u ∧ u.cell tablatAddr = s.tableByte t ∧
      TblptrSet v u ∧ Elsewhere (fun x => x = tablatAddr ∨ tablePointerCell x) s u ∧ Advances 2 s u := by
  refine ⟨_, runState_advance rfl rfl, ?_, (s.tableRead t).tblptr_setTblptr v, ⟨?_, ⟨rfl, rfl, rfl⟩, ⟨rfl, rfl, rfl, rfl⟩⟩,
    ⟨rfl, rfl, rfl, rfl⟩, rfl⟩
  · exact (sameCells_setTblptr (s.tableRead t) v tablatAddr not_tablePointerCell_tablat).1.trans (cell_tableRead s t)
  · exact ((sameCells_tableRead s t).mono fun x hx => .inl hx).trans ((sameCells_setTblptr _ v).mono fun x hx => .inr hx)

/-- R295: the pointer, then the read. -/
theorem setTblptr_tableRead_step :
    ∃ u, conclude s 2#21 (runState (fun s => (s.setTblptr v).tableRead t) s) = .next u ∧ u.cell tablatAddr = s.tableByte t ∧
      TblptrSet v u ∧ Elsewhere (fun x => x = tablatAddr ∨ tablePointerCell x) s u ∧ Advances 2 s u := by
  refine ⟨_, runState_advance rfl rfl, cell_tableRead (s.setTblptr v) t, tblptrSet_tableRead _ v t (s.tblptr_setTblptr v),
    ⟨?_, ⟨rfl, rfl, rfl⟩, ⟨rfl, rfl, rfl, rfl⟩⟩, ⟨rfl, rfl, rfl, rfl⟩, rfl⟩
  exact ((sameCells_setTblptr s v).mono fun x hx => .inr hx).trans ((sameCells_tableRead _ t).mono fun x hx => .inl hx)

end

/-- Settles O48: the read before or after the move of the pointer. -/
theorem tableReads : Obligations.TableReads := by
  intro s byteAt frame
  refine ⟨⟨_, runState_advance rfl rfl, cell_tableRead s s.tblptr, ⟨sameCells_tableRead s s.tblptr, ⟨rfl, rfl, rfl⟩, ⟨rfl, rfl, rfl, rfl⟩⟩,
    ⟨rfl, rfl, rfl, rfl⟩, rfl⟩, ?_, ?_, ?_⟩
  · exact tableRead_setTblptr_step s (s.tblptr + 1#22) s.tblptr
  · exact tableRead_setTblptr_step s (s.tblptr - 1#22) s.tblptr
  · exact setTblptr_tableRead_step s (s.tblptr + 1#22) (s.tblptr + 1#22)

/-! ## SLEEP and CLRWDT (R302, R303) -/

/-- Settles O50: the NOPs by `exec_nop`; SLEEP and CLRWDT by the bits they write into RCON. -/
theorem systemInstructions : Obligations.SystemInstructions := by
  intro s x
  have hsleep : s.cell rconAddr &&& ~~~0x0C#8 ||| 0x08#8 &&& 0x0C#8 = s.cell rconAddr &&& 0xF3#8 ||| 0x08#8 := rfl
  have hclrwdt : ∀ v : Byte, v &&& ~~~0x0C#8 ||| 0x0C#8 &&& 0x0C#8 = v ||| 0x0C#8 := by decide
  refine ⟨exec_nop s, exec_nop s, ⟨_, runState_advance rfl rfl, rfl, ?_, sameCells_setBits rconAddr 0x0C#8 0x08#8, ⟨rfl, rfl, rfl⟩, rfl, rfl,
    rfl, ⟨rfl, rfl, rfl, rfl⟩, rfl⟩, ⟨_, runState_advance rfl rfl, ?_, ⟨sameCells_setBits rconAddr 0x0C#8 0x0C#8, ⟨rfl, rfl, rfl⟩,
    ⟨rfl, rfl, rfl, rfl⟩⟩, ⟨rfl, rfl, rfl, rfl⟩, rfl⟩⟩
  · exact ((s.cell_setBits rconAddr rconAddr 0x0C#8 0x08#8).trans (if_pos rfl)).trans hsleep
  · exact ((s.cell_setBits rconAddr rconAddr 0x0C#8 0x0C#8).trans (if_pos rfl)).trans (hclrwdt _)

/-! ## The instruction at the PC (R80, R105, R120) -/

/-- The bytes of two words decode to what the words do. -/
theorem decodeBytes_words {b0 b1 b2 b3 : Byte} {i : Instr} {rest : List Byte} (h : decodeBytes [b0, b1, b2, b3] = .ok (i, rest)) :
    decodeWords (wordOf b0 b1) (wordOf b2 b3) = i := by
  by_cases htwo : (decode (wordOf b0 b1)).twoWord = true
  · rw [decodeWords, if_pos htwo]
    rw [decodeBytes, if_pos htwo] at h
    exact congrArg Prod.fst (Except.ok.inj h)
  · rw [decodeWords, if_neg htwo]
    rw [decodeBytes, if_neg htwo] at h
    exact congrArg Prod.fst (Except.ok.inj h)

/-- Settles O9: a program word is its two bytes, low byte first. -/
theorem stepRunsDecoded : Obligations.StepRunsDecoded := by
  intro s i rest hrun hdecode
  have hfetch : fetch s = i := decodeBytes_words hdecode
  rw [step_running hrun, hfetch]

end Sys2Proof.Machine
end

