-- ==== Sys2Proof/Proofs/Refusals.lean ====
section
/-! PROOFS. Proofs/Refusals.lean: the two collisions of spec/20_memory.md R69, and the reads of cells that hold no value
(spec/60_exceptions.md R329). -/

namespace Sys2Proof.Machine

section
variable {s : State} {α : Type} {addr fs fd : DAddr} {needs : List Need}

/-- R120, R329: an instruction whose plan stops it. -/
theorem conclude_map_error {plan : Except CoreFault α} {why : CoreFault} (h : plan = .error why) (size : PAddr) (g : α → Progress) :
    conclude s size (plan.map g) = .next (s.takeFault why) := by rw [h]; rfl

/-! ## Collisions (R69) -/

theorem planModify_clash (h : s.ready addr needs) (hclash : s.clashes addr) :
    planModify s addr needs = .error (.refused s.pc .fsrCollision) := planDest_clash h hclash

/-- PCL is no byte of an FSR. -/
theorem not_clashes_of_pcl (h : (s.operand addr).ea = pclAddr) : ¬s.clashes addr := by
  have hpcl : ∀ n : Fsr, (pclAddr == n.low || pclAddr == n.high) = false := fun n => by cases n <;> rfl
  rw [State.clashes, h]
  unfold collides
  split
  · next n _ _ => simp [hpcl n]
  · exact Bool.false_ne_true

theorem planSkip_pcl (h : s.ready addr []) (hpcl : (s.operand addr).ea = pclAddr) :
    planSkip s addr .file = .error (.refused s.pc .skipWritesPcl) := by
  simp only [planSkip, planDest_of_ready h fun _ => not_clashes_of_pcl hpcl]
  exact if_pos ⟨trivial, hpcl⟩

theorem planMovff_clash (hfree : movffUnrestricted fs fd s)
    (h : s.missing (operandNeeds fs ++ operandNeeds fd ++ readNeeds (s.operand fs)) = none)
    (hclash : collides (s.operand fs).upd (movffDest fs fd s).ea = true ∨ collides (movffDest fs fd s).upd (movffDest fs fd s).ea = true) :
    planMovff fs fd s = .error (.refused s.pc .fsrCollision) := by
  obtain ⟨hsource, hdest⟩ := restrictedThrough_of_unrestricted hfree
  rcases planMovff_cases (s := s) fs fd with ⟨hrestricted, -⟩ | ⟨c, hmissing, -⟩ | ⟨-, -, hplan⟩ | ⟨-, -, hfine, -⟩
  · simp [hsource, hdest] at hrestricted
  · cases hmissing.symm.trans h
  · exact hplan
  · rw [← Bool.or_eq_true] at hclash
    cases hfine.symm.trans hclash

end

/-- R69(a): the instructions that write their operand. -/
theorem exec_clash {s : State} {f : Byte} {b : BitVec 3} {a : Bank} {i : Instr}
    (hi : i ∈ [.addwf f .file a, .addwfc f .file a, .subwf f .file a, .subwfb f .file a, .subfwb f .file a, .negf f a, .incf f .file a,
      .decf f .file a, .andwf f .file a, .iorwf f .file a, .xorwf f .file a, .comf f .file a, .incfsz f .file a,
      .infsnz f .file a, .decfsz f .file a, .dcfsnz f .file a, .bcf f b a, .bsf f b a, .btg f b a, .movf f .file a, .movwf f a,
      .clrf f a, .setf f a, .rlcf f .file a, .rlncf f .file a, .rrcf f .file a, .rrncf f .file a, .swapf f .file a])
    (h : s.missing (needsOf i s) = none) (hclash : s.clashes (s.resolve f a)) :
    exec i s = .next (s.takeFault (.refused s.pc .fsrCollision)) := by
  fin_cases hi
  -- ADDWF to SUBFWB, then NEGF
  iterate 5 exact conclude_map_error (planDest_clash h hclash) _ _
  · exact conclude_map_error (planModify_clash h hclash) _ _
  -- INCF to COMF, then the four that skip, then the three of one bit
  iterate 6 exact conclude_map_error (planDest_clash h hclash) _ _
  iterate 4 exact conclude_map_error (planSkip_clash h hclash) _ _
  iterate 3 exact conclude_map_error (planModify_clash h hclash) _ _
  -- MOVF, then MOVWF, CLRF and SETF
  · exact conclude_map_error (planDest_clash h hclash) _ _
  iterate 3 exact conclude_map_error (planWrite_clash h hclash) _ _
  -- RLCF to SWAPF
  iterate 5 exact conclude_map_error (planDest_clash h hclash) _ _

/-- Settles O51: the plan of each instruction, by its shape. -/
theorem collisionAndSkipToPclRefused : Obligations.CollisionAndSkipToPclRefused := by
  refine ⟨fun s f b a i hi h hclash => exec_clash hi h hclash, ?_, fun s f a i hi h hpcl => ?_⟩
  · intro s fs fd src dst hfree h hclash
    exact conclude_map_error (planMovff_clash (movffUnrestricted_of_not_mem hfree) h hclash) _ _
  · fin_cases hi
    iterate 4 exact conclude_map_error (planSkip_pcl h hpcl) _ _

/-! ## Reads without a value (R329) -/

/-- The refusal of `r` for want of a value is that of the first cell of `needs` without one. -/
def RefusesFor {α : Type} (s : State) (needs : List Need) (r : Except CoreFault α) : Prop :=
  (∀ c, s.missing needs = some c → r = .error (.refused s.pc (.noValue c))) ∧
  ∀ pc0 c, r = .error (.refused pc0 (.noValue c)) → s.missing needs = some c

section
variable {s : State} {α β : Type} {needs : List Need} {r : Except CoreFault α}

theorem RefusesFor.map (h : RefusesFor s needs r) (g : α → β) : RefusesFor s needs (r.map g) := by
  obtain ⟨hrefuses, hmissing⟩ := h
  refine ⟨fun c hc => by rw [hrefuses c hc]; rfl, fun pc0 c hr => hmissing pc0 c ?_⟩
  cases r with
  | error why => rw [Except.error.inj hr]
  | ok x => cases hr

theorem refusesFor_ok (x : α) : RefusesFor s [] (.ok x) := by
  refine ⟨fun c hc => ?_, fun pc0 c hr => ?_⟩
  · cases hc
  · cases hr

theorem planRegs_refusesFor (needs : List Need) : RefusesFor s needs (planRegs s needs) := by
  refine ⟨fun c hc => planRegs_missing hc, fun pc0 c hr => ?_⟩
  rcases planRegs_cases s needs with ⟨-, hplan⟩ | ⟨c', hmissing, hplan⟩
  · cases hr.symm.trans hplan
  · cases hr.symm.trans hplan
    exact hmissing

theorem planDest_refusesFor (addr : DAddr) (d : Dest) (needs : List Need) :
    RefusesFor s (operandNeeds addr ++ needs ++ readNeeds (s.operand addr)) (planDest s addr d needs) :=
  ⟨fun _ hc => planDest_missing d hc, fun _ _ hr => planDest_noValue hr⟩

theorem planRead_refusesFor (addr : DAddr) (needs : List Need) :
    RefusesFor s (operandNeeds addr ++ needs ++ readNeeds (s.operand addr)) (planRead s addr needs) := planDest_refusesFor addr .w needs

theorem planModify_refusesFor (addr : DAddr) (needs : List Need) :
    RefusesFor s (operandNeeds addr ++ needs ++ readNeeds (s.operand addr)) (planModify s addr needs) :=
  planDest_refusesFor addr .file needs

theorem planSkip_refusesFor (addr : DAddr) (d : Dest) :
    RefusesFor s (operandNeeds addr ++ [] ++ readNeeds (s.operand addr)) (planSkip s addr d) :=
  ⟨fun _ hc => planSkip_missing d hc, fun _ _ hr => planSkip_noValue hr⟩

theorem planWrite_refusesFor (addr : DAddr) (needs : List Need) :
    RefusesFor s (operandNeeds addr ++ needs) (planWrite s addr needs) :=
  ⟨fun _ hc => planWrite_missing hc, fun _ _ hr => planWrite_noValue hr⟩

end

section
variable {s : State}

/-- MOVFF's plan is refused for want of a value where one of its reads has none. -/
theorem planMovff_noValue {fs fd c : DAddr} {pc0 : PAddr} (h : planMovff fs fd s = .error (.refused pc0 (.noValue c))) :
    s.missing (needsOf (.movff fs fd) s) = some c := by
  rcases planMovff_cases (s := s) fs fd with ⟨-, hplan⟩ | ⟨c', hmissing, hplan⟩ | ⟨-, -, hplan⟩ | ⟨-, -, -, hplan⟩
  · cases h.symm.trans hplan
  · cases h.symm.trans hplan
    exact hmissing
  · cases h.symm.trans hplan
  · cases h.symm.trans hplan

theorem runCall_refusesFor (k : BitVec 20) (sel : Speed) : RefusesFor s (needsOf (.call k sel) s) (runCall k sel s) := by
  cases sel with
  | normal => exact refusesFor_ok _
  | fast => exact (planRegs_refusesFor _).map _

theorem runRet_refusesFor (sel : Speed) : RefusesFor s [] (runRet sel s) := by
  cases sel <;> exact refusesFor_ok _

theorem runLfsr_refusesFor (f : BitVec 2) (k : BitVec 12) : RefusesFor s [] (runLfsr f k s) := by
  unfold runLfsr
  split <;> exact refusesFor_ok _

/-- R329: the refusals of every instruction but MOVFF, by its shape. -/
theorem runInstr_refusesFor {i : Instr} (hi : ∀ fs fd, i ≠ .movff fs fd) : RefusesFor s (needsOf i s) (runInstr i s) := by
  cases i
  case movff fs fd => exact absurd rfl (hi fs fd)
  case addwf | addwfc | subwf | subwfb | subfwb | incf | decf | andwf | iorwf | xorwf | comf | movf | rlcf | rlncf | rrcf | rrncf |
      swapf => exact (planDest_refusesFor _ _ _).map _
  case incfsz | infsnz | decfsz | dcfsnz => exact (planSkip_refusesFor _ _).map _
  case negf | bcf | bsf | btg => exact (planModify_refusesFor _ _).map _
  case cpfseq | cpfsgt | cpfslt | tstfsz | btfsc | btfss | mulwf => exact (planRead_refusesFor _ _).map _
  case movwf | clrf | setf => exact (planWrite_refusesFor _ _).map _
  case addlw | sublw | andlw | iorlw | xorlw | mullw | daw | bz | bnz | bc | bnc | bov | bnov | bn | bnn =>
    exact (planRegs_refusesFor _).map _
  case call k sel => exact runCall_refusesFor k sel
  case ret sel => exact runRet_refusesFor sel
  case lfsr f k => exact runLfsr_refusesFor f k
  all_goals exact refusesFor_ok _

/-- R329: the refusal names the first read without a value. -/
theorem runInstr_missing {i : Instr} {c : DAddr} (h : s.missing (needsOf i s) = some c)
    (hfree : ∀ fs fd, i = .movff fs fd → movffUnrestricted fs fd s) : runInstr i s = .error (.refused s.pc (.noValue c)) := by
  by_cases hi : ∃ fs fd, i = .movff fs fd
  · obtain ⟨fs, fd, rfl⟩ := hi
    show (planMovff fs fd s).map _ = _
    rw [planMovff_missing (hfree fs fd rfl) h]
    rfl
  · exact (runInstr_refusesFor fun fs fd e => hi ⟨fs, fd, e⟩).1 c h

/-- R329: and there is one. -/
theorem runInstr_noValue {i : Instr} {c : DAddr} {pc0 : PAddr} (h : runInstr i s = .error (.refused pc0 (.noValue c))) :
    s.missing (needsOf i s) = some c := by
  by_cases hi : ∃ fs fd, i = .movff fs fd
  · obtain ⟨fs, fd, rfl⟩ := hi
    apply planMovff_noValue (pc0 := pc0)
    change (planMovff fs fd s).map _ = _ at h
    cases hplan : planMovff fs fd s with
    | error why => rw [hplan] at h; rw [Except.error.inj h]
    | ok acc => rw [hplan] at h; cases h
  · exact (runInstr_refusesFor fun fs fd e => hi ⟨fs, fd, e⟩).2 pc0 c h

/-- A step of a Running core whose reads all hold a value is not refused for want of one. -/
theorem run_ne_noValue {i : Instr} {t : State} {c : DAddr} {pc0 : PAddr} (h : s.missing (needsOf i s) = none) (hrun : s.run = .running)
    (hexec : exec i s = .next t) : t.run ≠ .faulted (.refused pc0 (.noValue c)) := by
  intro ht
  rcases exec_cases i s with ⟨p, hr, hnext⟩ | ⟨why, hr, hnext⟩ <;> obtain rfl := Host.Outcome.next.inj (hexec.symm.trans hnext)
  · have hp : p.s.run = .faulted (.refused pc0 (.noValue c)) := ht
    rcases runInstr_run_cases i s with (⟨reason, hr'⟩ | ⟨q, hr', hq⟩) | ⟨q, -, hr', hq⟩ | ⟨q, -, hr', hq⟩ | ⟨fs, fd, -, hr'⟩ <;>
      cases hr.symm.trans hr'
    · cases hp.symm.trans (hq.trans hrun)
    · cases hp.symm.trans hq
    · cases hp.symm.trans hq
  · obtain rfl : why = .refused pc0 (.noValue c) := RunState.faulted.inj ht
    cases (runInstr_noValue hr).symm.trans h

/-! ### After a power-on reset with POR_SFR_INIT = Unknown (R36) -/

theorem missing_w_powerOnReset (h : s.params.porSfrInit = .unknown) : s.powerOnReset.missing [needW] = some wregAddr := by
  have hunset : s.powerOnReset.unset wregAddr = 0xFF#8 := by
    rw [State.unset_powerOnReset, if_pos h]
    decide
  simp [State.missing, needW, hunset]

/-- R213: W holds a value once it is written. -/
theorem readyRegs_w_setCell (k : Byte) (pc : PAddr) : ({ s.setCell wregAddr k with pc := pc } : State).readyRegs [needW] := by
  show (s.setCell wregAddr k).missing [needW] = none
  simp [State.missing, needW, State.unset_setCell]

end

/-- Settles O52: `runInstr_missing` and `runInstr_noValue`; the reset state by its marks. -/
theorem noValueRefused : Obligations.NoValueRefused := by
  refine ⟨fun i s c h hfree => ?_, fun i s t pc0 c => run_ne_noValue, fun i s pc0 c h hr => ?_, fun s k h => ⟨?_, ?_⟩⟩
  · rw [exec_eq, runInstr_missing h hfree]
    rfl
  · cases (runInstr_noValue hr).symm.trans (State.ready_of_noValue h _)
  · exact conclude_map_error (planRegs_missing (missing_w_powerOnReset h)) _ _
  · obtain ⟨u, hnext, -, -, ⟨-, -, hmachine⟩, -⟩ := runLiteral_spec (mask := maskAll) (op := fun w k => add8 w k false) (k := k)
      (readyRegs_w_setCell (s := s.powerOnReset) k (seqPc s.powerOnReset 2 false))
    exact ⟨_, runState_advance rfl rfl, u, hnext, hmachine.2.1⟩

end Sys2Proof.Machine
end

