-- ==== Sys2Proof/Proofs/HostActions.lean ====
section
/-! PROOFS. Proofs/HostActions.lean: the actions of the host between steps, and what they keep (spec/60_exceptions.md R340 to R347). -/

namespace Sys2Proof.Machine

/-! ## Data addresses (R341) -/

section
variable {s : State} {a v : Nat}

theorem isView_false_of_gap {c : DAddr} (h : isGap c = true) : isView c = false := by
  obtain ⟨-, hlt⟩ := (isGap_iff c).1 h
  rw [Bool.eq_false_iff, Ne, isView_iff]
  rintro (rfl | hview | hind)
  · exact absurd hlt (by decide)
  · have := (isStackView_iff_le c).1 hview
    omega
  · have := (isIndirect_range hind).1
    omega

theorem kind_of_storage {c : DAddr} (h : isStorage c = true) : isView c = false ∧ isGap c = false := by
  simpa [isStorage, and_comm] using h

theorem hostRead_beyond (ha : 0x1000 ≤ a) : hostRead s a = .error .addressingFault := if_pos ha

theorem hostRead_view (ha : a < 0x1000) (h : isView (BitVec.ofNat 12 a) = true) : hostRead s a = .error .restrictedRegister := by
  rw [hostRead, if_neg (Nat.not_le.2 ha), if_pos h]

theorem hostRead_gap (ha : a < 0x1000) (h : isGap (BitVec.ofNat 12 a) = true) : hostRead s a = .ok 0x00#8 := by
  rw [hostRead, if_neg (Nat.not_le.2 ha), isView_false_of_gap h, if_neg Bool.false_ne_true, if_pos h]

theorem hostRead_storage (ha : a < 0x1000) (h : isStorage (BitVec.ofNat 12 a) = true) :
    hostRead s a = .ok (s.hostByte (BitVec.ofNat 12 a)) := by
  obtain ⟨hview, hgap⟩ := kind_of_storage h
  rw [hostRead, if_neg (Nat.not_le.2 ha), hview, hgap, if_neg Bool.false_ne_true, if_neg Bool.false_ne_true]

theorem hostWrite_beyond (ha : 0x1000 ≤ a) : hostWrite s a v = .error .addressingFault := if_pos ha

theorem hostWrite_wide (ha : a < 0x1000) (hv : 256 ≤ v) : hostWrite s a v = .error .valueRange := by
  rw [hostWrite, if_neg (Nat.not_le.2 ha), if_pos hv]

theorem hostWrite_view (ha : a < 0x1000) (hv : v < 256) (h : isView (BitVec.ofNat 12 a) = true) :
    hostWrite s a v = .error .restrictedRegister := by
  rw [hostWrite, if_neg (Nat.not_le.2 ha), if_neg (Nat.not_le.2 hv), if_pos h]

theorem hostWrite_gap (ha : a < 0x1000) (hv : v < 256) (h : isGap (BitVec.ofNat 12 a) = true) : hostWrite s a v = .ok s := by
  rw [hostWrite, if_neg (Nat.not_le.2 ha), if_neg (Nat.not_le.2 hv), isView_false_of_gap h, if_neg Bool.false_ne_true, if_pos h]

theorem hostWrite_storage (ha : a < 0x1000) (hv : v < 256) (h : isStorage (BitVec.ofNat 12 a) = true) :
    hostWrite s a v = .ok (s.setCell (BitVec.ofNat 12 a) (BitVec.ofNat 8 v)) := by
  obtain ⟨hview, hgap⟩ := kind_of_storage h
  rw [hostWrite, if_neg (Nat.not_le.2 ha), if_neg (Nat.not_le.2 hv), hview, hgap, if_neg Bool.false_ne_true, if_neg Bool.false_ne_true]

/-- A host write that is not rejected writes a storage cell, or nothing. -/
theorem hostWrite_ok {t : State} (h : hostWrite s a v = .ok t) :
    t = s ∨ (isStorage (BitVec.ofNat 12 a) = true ∧ t = s.setCell (BitVec.ofNat 12 a) (BitVec.ofNat 8 v)) := by
  by_cases ha : a < 0x1000
  · by_cases hv : v < 256
    · by_cases hview : isView (BitVec.ofNat 12 a) = true
      · cases (hostWrite_view ha hv hview).symm.trans h
      · by_cases hgap : isGap (BitVec.ofNat 12 a) = true
        · exact .inl (Except.ok.inj ((hostWrite_gap ha hv hgap).symm.trans h)).symm
        · have hstorage : isStorage (BitVec.ofNat 12 a) = true := by simp [isStorage, hview, hgap]
          exact .inr ⟨hstorage, (Except.ok.inj ((hostWrite_storage ha hv hstorage).symm.trans h)).symm⟩
    · cases (hostWrite_wide ha (Nat.not_lt.1 hv)).symm.trans h
  · cases (hostWrite_beyond (Nat.not_lt.1 ha)).symm.trans h

end

/-! ## The invariant (R20, R36, R37, R43) -/

section
variable {s t : State}

theorem inv_hostWrite {a v : Nat} (hs : s.Inv) (h : hostWrite s a v = .ok t) : t.Inv := by
  rcases hostWrite_ok h with rfl | ⟨hstorage, rfl⟩
  · exact hs
  · exact ⟨State.memoryOk_setCell hstorage _ hs.1, hs.2⟩

theorem inv_hostWriteFlag (hs : s.Inv) (fl : StatusFlag) (v : Bool) : (hostWriteFlag s fl v).Inv :=
  ⟨State.memoryOk_setBits isStorage_status _ _ hs.1, hs.2⟩

theorem toNat_pc_ofNat {v : Nat} (h : v < s.params.progBytes) : (BitVec.ofNat 21 v).toNat = v := by
  have := Params.progBytes_le s.params
  rw [BitVec.toNat_ofNat]
  exact Nat.mod_eq_of_lt (by omega)

theorem inv_hostWritePc {v : Nat} (hs : s.Inv) (h : hostWritePc s v = .ok t) : t.Inv := by
  unfold hostWritePc at h
  split at h
  · next hv =>
    obtain rfl := Except.ok.inj h
    refine ⟨hs.1, (getLsbD_zero_iff _).2 ?_, ?_⟩
    · show (BitVec.ofNat 21 v).toNat % 2 = 0
      rw [toNat_pc_ofNat hv.2]
      exact hv.1
    · show (BitVec.ofNat 21 v).toNat < s.params.progBytes
      rw [toNat_pc_ofNat hv.2]
      exact hv.2
  · cases h

theorem inv_loadBytes {a : Nat} {vs : List Byte} (hs : s.Inv) (h : loadBytes a vs s = .ok t) : t.Inv := by
  induction vs generalizing a s with
  | nil => exact Except.ok.inj h ▸ hs
  | cons v rest ih =>
    unfold loadBytes loadByte at h
    by_cases ha : a < s.params.progBytes
    · simp only [if_pos ha] at h
      exact ih ⟨State.memoryOk_setProgByte ha v hs.1, hs.2⟩ h
    · simp only [if_neg ha] at h
      cases h

theorem inv_loadRecords {hi : BitVec 16} {recs : List LoadRecord} (hs : s.Inv) (h : loadRecords hi recs s = .ok t) : t.Inv := by
  induction recs generalizing hi s with
  | nil => exact Except.ok.inj h ▸ hs
  | cons record rest ih =>
    cases record with
    | endOfFile => exact Except.ok.inj h ▸ hs
    | extended hi' => exact ih hs h
    | data addr bytes =>
      unfold loadRecords at h
      split at h
      · next u hu => exact ih (inv_loadBytes hs hu) h
      · cases h

theorem inv_bridgeSetBit {p : Port} {b : BitVec 3} {v : Bool} (hs : s.Inv) (h : bridgeSetBit s p b v = .ok t) : t.Inv := by
  unfold bridgeSetBit at h
  split at h
  · cases h
  · exact inv_hostWrite hs h

theorem inv_hostReset (hs : s.Inv) : (hostReset s).Inv := ⟨State.memoryOk_powerOnReset hs.1.2.2, BitVec.getLsbD_zero, Params.progBytes_pos _⟩

theorem hostSteps_succ {n : Nat} (h : step s = .next t) : hostSteps (n + 1) s = ((hostSteps n t).1 + 1, (hostSteps n t).2) := by
  rw [hostSteps, h]

theorem inv_hostSteps (hs : s.Inv) (n : Nat) : (hostSteps n s).2.Inv := by
  induction n generalizing s with
  | zero => exact hs
  | succ n ih =>
    by_cases h : ∃ t, step s = .next t
    · obtain ⟨t, ht⟩ := h
      rw [hostSteps_succ ht]
      exact ih (step_inv hs ht)
    · rw [hostSteps_of_no_next (not_exists.1 h)]
      exact hs

end

/-- Settles O56: action by action. -/
theorem hostKeepsInvariant : Obligations.HostKeepsInvariant := fun _ _ hs =>
  ⟨fun _ _ => inv_hostWrite hs, inv_hostWriteFlag hs, fun _ => inv_hostWritePc hs, fun _ _ => inv_loadRecords hs, fun _ _ => inv_hostWrite hs,
    fun _ _ _ => inv_bridgeSetBit hs, inv_hostReset hs, inv_hostSteps hs⟩

/-! ## Loads (R342) -/

/-- Settles O57: `loadBytes_ok` and `loadBytes_beyond` at the load address of the record. -/
theorem programLoad : Obligations.ProgramLoad := by
  intro s hi rest
  refine ⟨fun addr bytes => ⟨fun h => ?_, fun hne h => ?_⟩, fun hi' => rfl, rfl, rfl⟩
  · obtain ⟨t, hload, hframe⟩ := loadBytes_ok bytes _ s h
    refine ⟨t, ?_, hframe⟩
    rw [loadRecords, toNat_loadAddress, hload]
  · rw [loadRecords, toNat_loadAddress, loadBytes_beyond bytes _ s hne h]

/-! ## What the host reads and writes (R341, R343) -/

section
variable {s : State} {c : DAddr} {n : Nat}

/-- A bit that holds a value reads as it is. -/
theorem getLsbD_hostByte (hn : n < 8) (h : (s.unset c).getLsbD n = false) : (s.hostByte c).getLsbD n = (s.cell c).getLsbD n := by
  rw [State.hostByte, getLsbD_under_mask _ _ _ hn, h, if_neg Bool.false_ne_true]

theorem hostByte_of_set (h : s.unset c = 0x00#8) : s.hostByte c = s.cell c := by
  apply BitVec.eq_of_getLsbD_eq
  intro n hn
  exact getLsbD_hostByte hn (by rw [h]; exact BitVec.getLsbD_zero)

theorem cell_setCell_self (s : State) (c : DAddr) (v : Byte) : (s.setCell c v).cell c = v := (s.cell_setCell c c v).trans (if_pos rfl)

theorem unset_setCell_self (s : State) (c : DAddr) (v : Byte) : (s.setCell c v).unset c = 0x00#8 := (s.unset_setCell c c v).trans (if_pos rfl)

/-- R341: a host write changes bits of one cell alone. -/
theorem setBits_frame (s : State) (c : DAddr) (m v : Byte) :
    Elsewhere (fun x => x = c) s (s.setBits c m v) ∧ SameStack s (s.setBits c m v) ∧ (s.setBits c m v).pc = s.pc :=
  ⟨⟨sameCells_setBits c m v, ⟨rfl, rfl, rfl⟩, ⟨rfl, rfl, rfl, rfl⟩⟩, ⟨rfl, rfl, rfl, rfl⟩, rfl⟩

/-! ### Flags -/

theorem StatusFlag.bit_lt (fl : StatusFlag) : fl.bit < 8 := by cases fl <;> decide

theorem getLsbD_hostWriteFlag (fl : StatusFlag) (b : Bool) (hn : n < 8) :
    (hostWriteFlag s fl b).status.getLsbD n = if n = fl.bit then b else s.status.getLsbD n := by
  have hcell : (hostWriteFlag s fl b).status = (s.cell statusAddr &&& ~~~(1#8 <<< fl.bit)) |||
      ((if b then 0xFF#8 else 0x00#8) &&& (1#8 <<< fl.bit)) := (s.cell_setBits statusAddr statusAddr _ _).trans (if_pos rfl)
  have hall : (if b then 0xFF#8 else 0x00#8).getLsbD n = b := by
    cases b with
    | false => exact BitVec.getLsbD_zero
    | true => exact (BitVec.getLsbD_allOnes (v := 8)).trans (decide_eq_true hn)
  rw [hcell, getLsbD_under_mask _ _ _ hn, getLsbD_bit fl.bit_lt, hall]
  simp only [decide_eq_true_eq]
  rfl

theorem getLsbD_unset_hostWriteFlag (fl : StatusFlag) (b : Bool) : ((hostWriteFlag s fl b).unset statusAddr).getLsbD fl.bit = false := by
  have hunset : (hostWriteFlag s fl b).unset statusAddr = s.unset statusAddr &&& ~~~(1#8 <<< fl.bit) :=
    (s.unset_setBits statusAddr statusAddr _ _).trans (if_pos rfl)
  rw [hunset, BitVec.getLsbD_and, BitVec.getLsbD_not, getLsbD_bit fl.bit_lt]
  simp

/-! ### Ports -/

theorem Port.ofNat_addr (p : Port) : BitVec.ofNat 12 p.addr.toNat = p.addr :=
  (BitVec.ofNat_toNat 12 p.addr).trans (BitVec.setWidth_eq _)

theorem bridgeRead_eq (s : State) (p : Port) : bridgeRead s p = .ok (s.hostByte p.addr) := by
  have hstorage : isStorage (BitVec.ofNat 12 p.addr.toNat) = true := p.ofNat_addr.symm ▸ p.isStorage_addr
  rw [bridgeRead, hostRead_storage p.addr.isLt hstorage, p.ofNat_addr]

theorem bridgeWrite_eq (s : State) (p : Port) (x : Byte) : bridgeWrite s p x = .ok (s.setCell p.addr x) := by
  have hstorage : isStorage (BitVec.ofNat 12 p.addr.toNat) = true := p.ofNat_addr.symm ▸ p.isStorage_addr
  rw [bridgeWrite, hostWrite_storage p.addr.isLt x.isLt hstorage, p.ofNat_addr, BitVec.ofNat_toNat, BitVec.setWidth_eq]

/-- R343: the byte a bit change writes back. -/
def withBit (v : Byte) (b : BitVec 3) (x : Bool) : Byte := if x then v ||| 1#8 <<< b.toNat else v &&& ~~~(1#8 <<< b.toNat)

theorem getLsbD_withBit (v : Byte) (b : BitVec 3) (x : Bool) (hn : n < 8) :
    (withBit v b x).getLsbD n = if n = b.toNat then x else v.getLsbD n := by
  cases x with
  | false => exact getLsbD_clearBit v b hn
  | true => exact getLsbD_setBit v b

theorem bridgeSetBit_eq (s : State) (p : Port) (b : BitVec 3) (x : Bool) :
    bridgeSetBit s p b x = .ok (s.setCell p.addr (withBit (s.hostByte p.addr) b x)) := by
  rw [bridgeSetBit, bridgeRead_eq]
  exact bridgeWrite_eq s p _

end

/-- Settles O58: the kinds of address, the flags, the PC and the bridge. -/
theorem hostAccess : Obligations.HostAccess := by
  intro s a v
  refine ⟨fun ha => ⟨hostRead_beyond ha, hostWrite_beyond ha⟩, fun ha => ?_, fun fl b => ?_, fun heven hlt => ?_, fun hodd => ?_, rfl,
    fun p x => ⟨rfl, bridgeWrite_eq s p x⟩, fun p b x => ?_⟩
  · intro c
    refine ⟨fun h => ⟨hostRead_view ha h, fun hv => hostWrite_view ha hv h⟩, fun h => ⟨hostRead_gap ha h, fun hv => hostWrite_gap ha hv h⟩,
      fun h => ⟨fun hset => ?_, fun hv => ⟨_, hostWrite_storage ha hv h, ?_, ?_, setBits_frame s c _ _⟩⟩, hostWrite_wide ha⟩
    · rw [hostRead_storage ha h, hostByte_of_set hset]
    · rw [cell_setCell_self, BitVec.toNat_ofNat]
      exact Nat.mod_eq_of_lt hv
    · rw [hostRead_storage ha h, hostByte_of_set (unset_setCell_self s _ _), cell_setCell_self]
  · intro t
    have hbit : t.status.getLsbD fl.bit = b := (getLsbD_hostWriteFlag fl b fl.bit_lt).trans (if_pos rfl)
    exact ⟨hbit, fun n hn hne => (getLsbD_hostWriteFlag fl b hn).trans (if_neg hne),
      (getLsbD_hostByte fl.bit_lt (getLsbD_unset_hostWriteFlag fl b)).trans hbit, getLsbD_hostByte fl.bit_lt, setBits_frame s statusAddr _ _⟩
  · exact ⟨_, if_pos ⟨heven, hlt⟩, rfl, toNat_pc_ofNat hlt⟩
  · exact if_neg (by omega)
  · refine ⟨_, bridgeSetBit_eq s p b x, ?_, unset_setCell_self s _ _, fun n hn hne hset => ?_, setBits_frame s p.addr _ _⟩
    · rw [cell_setCell_self, getLsbD_withBit _ _ _ b.isLt, if_pos rfl]
    · rw [cell_setCell_self, getLsbD_withBit _ _ _ hn, if_neg hne, getLsbD_hostByte hn hset]

/-! ## Stepping (R346, R347) -/

section
variable {s : State}

/-- R120: a Running core has a step. -/
theorem ne_running_of_no_next (h : ∀ t, step s ≠ .next t) : s.run ≠ .running := by
  intro hrun
  rcases exec_cases (fetch s) s with ⟨p, -, hnext⟩ | ⟨why, -, hnext⟩ <;> exact h _ ((step_running hrun).trans hnext)

theorem hostSteps_count (s : State) (n : Nat) : (hostSteps n s).1 ≤ n ∧ ((hostSteps n s).1 < n → (hostSteps n s).2.run ≠ .running) := by
  induction n generalizing s with
  | zero => exact ⟨Nat.le_refl 0, fun h => absurd h (Nat.lt_irrefl 0)⟩
  | succ n ih =>
    by_cases h : ∃ t, step s = .next t
    · obtain ⟨t, ht⟩ := h
      rw [hostSteps_succ ht]
      exact ⟨Nat.succ_le_succ (ih t).1, fun hlt => (ih t).2 (Nat.lt_of_succ_lt_succ hlt)⟩
    · rw [hostSteps_of_no_next (not_exists.1 h)]
      exact ⟨Nat.zero_le _, fun _ => ne_running_of_no_next (not_exists.1 h)⟩

theorem hostSteps_add (s : State) (m n : Nat) :
    hostSteps (m + n) s = ((hostSteps m s).1 + (hostSteps n (hostSteps m s).2).1, (hostSteps n (hostSteps m s).2).2) := by
  induction m generalizing s with
  | zero => rw [Nat.zero_add, hostSteps, Nat.zero_add]
  | succ m ih =>
    by_cases h : ∃ t, step s = .next t
    · obtain ⟨t, ht⟩ := h
      rw [Nat.succ_add, hostSteps_succ ht, hostSteps_succ ht, ih t, Nat.succ_add]
    · have hstop := hostSteps_of_no_next (not_exists.1 h)
      rw [hstop, hstop, hstop]
      rfl

end

/-- Settles O59: the first step, and an induction on the number of steps. -/
theorem hostStepping : Obligations.HostStepping :=
  ⟨fun _ => rfl, fun _ _ _ => hostSteps_succ, fun _ n h => hostSteps_of_no_next h n, fun s m n =>
    ⟨(hostSteps_count s n).1, (hostSteps_count s n).2, hostSteps_add s m n⟩⟩

end Sys2Proof.Machine
end

