-- ==== Sys2Proof/Proofs/TraceEvents.lean ====
section
/-! PROOFS. Proofs/TraceEvents.lean: the trace events of a step (spec/60_exceptions.md R345). -/

namespace Sys2Proof.Machine

/-! ## The fetches -/

section
variable (s : State)

theorem size_fetch : (fetch s).size = 4 ↔ (decode (s.progWord s.pc)).twoWord = true := by
  rw [← twoWord_fetch]
  unfold Instr.size
  split
  · next h => simp [h]
  · next h => simp [h]

/-- R80, R345: one fetch, or two where the instruction has two words. -/
theorem fetchEvents_eq :
    fetchEvents s = if (fetch s).size = 4 then
        [.opcodeFetch s.pc (s.progWord s.pc), .opcodeFetch (s.pcPlus 2#21) (s.progWord (s.pcPlus 2#21))]
      else [.opcodeFetch s.pc (s.progWord s.pc)] := by
  unfold fetchEvents
  by_cases h : (fetch s).size = 4
  · rw [if_pos h, if_pos ((size_fetch s).1 h)]
  · rw [if_neg h, if_neg fun htwo => h ((size_fetch s).2 htwo)]

end

/-! ## The data events -/

section
variable {s : State} {f : Byte} {d : Dest} {a : Bank} {b : BitVec 3}

/-- The events of an instruction of shape `runByteDA`, its result in another form. -/
theorem runByteDA_writes {needs : List Need} {mask r : Byte} (op : State → Byte → Byte × FlagVec) (h : s.ready (s.resolve f a) needs)
    (hclash : d = .file → ¬s.clashes (s.resolve f a)) (hr : (op s (s.readValue (s.operand (s.resolve f a)))).1 = r) :
    eventsOf (runByteDA needs mask op f d a s)
      = steeredEvents (s.operand (s.resolve f a)) d (s.readValue (s.operand (s.resolve f a))) r :=
  hr ▸ runByteDA_events h hclash

/-- R345: the instructions with a d bit, but for those that skip. -/
theorem steered_dataEvents {i : Instr} {needs : List Need} {r : Byte} :
    let v := s.readValue (s.operand (s.resolve f a))
    (i, needs, r) ∈
      [(Instr.addwf f d a, [needW], (add8 s.w v false).1), (.addwfc f d a, [needW, needFlags maskC], (add8 s.w v s.flagC).1),
        (.subwf f d a, [needW], (sub8 v s.w false).1), (.subwfb f d a, [needW, needFlags maskC], (sub8 v s.w (!s.flagC)).1),
        (.subfwb f d a, [needW, needFlags maskC], (sub8 s.w v (!s.flagC)).1), (.incf f d a, [], v + 0x01#8),
        (.decf f d a, [], v - 0x01#8), (.andwf f d a, [needW], s.w &&& v), (.iorwf f d a, [needW], s.w ||| v),
        (.xorwf f d a, [needW], s.w ^^^ v), (.comf f d a, [], ~~~v), (.movf f d a, [], v),
        (.rlcf f d a, [needFlags maskC], BitVec.ofNat 8 (2 * v.toNat + s.flagC.toNat)),
        (.rrcf f d a, [needFlags maskC], BitVec.ofNat 8 (v.toNat / 2 + 128 * s.flagC.toNat)), (.rlncf f d a, [], v.rotateLeft 1),
        (.rrncf f d a, [], v.rotateRight 1), (.swapf f d a, [], BitVec.ofNat 8 (v.toNat % 16 * 16 + v.toNat / 16))] →
    s.ready (s.resolve f a) needs → (d = .file → ¬s.clashes (s.resolve f a)) →
    dataEvents i s = steeredEvents (s.operand (s.resolve f a)) d v r := by
  intro v hi h hclash
  simp only [List.mem_cons, List.not_mem_nil, or_false, Prod.mk.injEq] at hi
  rcases hi with ⟨rfl, rfl, rfl⟩ | ⟨rfl, rfl, rfl⟩ | ⟨rfl, rfl, rfl⟩ | ⟨rfl, rfl, rfl⟩ | ⟨rfl, rfl, rfl⟩ | ⟨rfl, rfl, rfl⟩ | ⟨rfl, rfl, rfl⟩ | ⟨rfl, rfl, rfl⟩ | ⟨rfl, rfl, rfl⟩ |
      ⟨rfl, rfl, rfl⟩ | ⟨rfl, rfl, rfl⟩ | ⟨rfl, rfl, rfl⟩ | ⟨rfl, rfl, rfl⟩ | ⟨rfl, rfl, rfl⟩ | ⟨rfl, rfl, rfl⟩ | ⟨rfl, rfl, rfl⟩ | ⟨rfl, rfl, rfl⟩
  -- the sums and differences
  · exact runByteDA_writes (fun s v => add8 s.w v false) h hclash rfl
  · exact runByteDA_writes (fun s v => add8 s.w v s.flagC) h hclash rfl
  · exact runByteDA_writes (fun s v => sub8 v s.w false) h hclash rfl
  · exact runByteDA_writes (fun s v => sub8 v s.w (!s.flagC)) h hclash rfl
  · exact runByteDA_writes (fun s v => sub8 s.w v (!s.flagC)) h hclash rfl
  · exact runByteDA_writes (fun _ v => add8 v 0x01#8 false) h hclash (add8_false _ _)
  · exact runByteDA_writes (fun _ v => sub8 v 0x01#8 false) h hclash (sub8_false _ _)
  -- the logic and MOVF
  · exact runByteDA_writes (fun s v => (s.w &&& v, logicFlags (s.w &&& v))) h hclash rfl
  · exact runByteDA_writes (fun s v => (s.w ||| v, logicFlags (s.w ||| v))) h hclash rfl
  · exact runByteDA_writes (fun s v => (s.w ^^^ v, logicFlags (s.w ^^^ v))) h hclash rfl
  · exact runByteDA_writes (fun _ v => (~~~v, logicFlags (~~~v))) h hclash rfl
  · exact runByteDA_writes (fun _ v => (v, logicFlags v)) h hclash rfl
  -- the rotates and SWAPF
  · exact runByteDA_writes (fun s v => (v.extractLsb 6 0 ++ BitVec.ofBool s.flagC,
      rotateFlags (v.extractLsb 6 0 ++ BitVec.ofBool s.flagC) (v.getLsbD 7))) h hclash (rotateLeft_through _ _)
  · exact runByteDA_writes (fun s v => (BitVec.ofBool s.flagC ++ v.extractLsb 7 1,
      rotateFlags (BitVec.ofBool s.flagC ++ v.extractLsb 7 1) (v.getLsbD 0))) h hclash (rotateRight_through _ _)
  · exact runByteDA_writes (fun _ v => (v.extractLsb 6 0 ++ v.extractLsb 7 7, logicFlags (v.extractLsb 6 0 ++ v.extractLsb 7 7)))
      h hclash (rotateLeft_fields _)
  · exact runByteDA_writes (fun _ v => (v.extractLsb 0 0 ++ v.extractLsb 7 1, logicFlags (v.extractLsb 0 0 ++ v.extractLsb 7 1)))
      h hclash (rotateRight_fields _)
  · exact runByteDA_writes (fun _ v => (v.extractLsb 3 0 ++ v.extractLsb 7 4, FlagVec.none)) h hclash (swap_nibbles _)

/-- R345: those that skip. -/
theorem incDecSkip_dataEvents {i : Instr} {r : Byte} :
    let v := s.readValue (s.operand (s.resolve f a))
    (i, r) ∈ [(Instr.incfsz f d a, v + 0x01#8), (.infsnz f d a, v + 0x01#8), (.decfsz f d a, v - 0x01#8), (.dcfsnz f d a, v - 0x01#8)] →
    s.ready (s.resolve f a) [] → (d = .file → ¬s.clashes (s.resolve f a) ∧ (s.operand (s.resolve f a)).ea ≠ pclAddr) →
    dataEvents i s = steeredEvents (s.operand (s.resolve f a)) d v r := by
  intro v hi h hdest
  have hclash : d = .file → ¬s.clashes (s.resolve f a) := fun hd => (hdest hd).1
  have hpcl : d = .file → (s.operand (s.resolve f a)).ea ≠ pclAddr := fun hd => (hdest hd).2
  fin_cases hi
  · exact runIncDecSkip_events (cond := fun r => r == 0x00#8) (op := fun v => v + 0x01#8) h hclash hpcl
  · exact runIncDecSkip_events (cond := fun r => r != 0x00#8) (op := fun v => v + 0x01#8) h hclash hpcl
  · exact runIncDecSkip_events (cond := fun r => r == 0x00#8) (op := fun v => v - 0x01#8) h hclash hpcl
  · exact runIncDecSkip_events (cond := fun r => r != 0x00#8) (op := fun v => v - 0x01#8) h hclash hpcl

/-- R345: a change of one bit, by the bit that is written. -/
theorem runBitModify_writes {x : Bool} (op : Byte → Byte → Byte) (h : s.ready (s.resolve f a) []) (hclash : ¬s.clashes (s.resolve f a))
    (hx : (op (s.readValue (s.operand (s.resolve f a))) (1#8 <<< b.toNat)).getLsbD b.toNat = x) :
    eventsOf (runBitModify op f b a s)
      = [.registerRead (s.operand (s.resolve f a)).ea (s.readValue (s.operand (s.resolve f a))),
          .bitWrite (s.operand (s.resolve f a)).ea b x] :=
  hx ▸ runBitModify_events h hclash

/-- R345: the instructions that read the operand alone. -/
theorem compare_dataEvents {i : Instr} (hi : i ∈ [.cpfseq f a, .cpfsgt f a, .cpfslt f a, .mulwf f a]) (h : s.ready (s.resolve f a) [needW]) :
    dataEvents i s = [.registerRead (s.operand (s.resolve f a)).ea (s.readValue (s.operand (s.resolve f a)))] := by
  fin_cases hi
  · exact runCompareSkip_events (cond := fun s v => v == s.w) h
  · exact runCompareSkip_events (cond := fun s v => decide (v.toNat > s.w.toNat)) h
  · exact runCompareSkip_events (cond := fun s v => decide (v.toNat < s.w.toNat)) h
  · exact runMulwf_events h

theorem runLfsr_events (n : BitVec 2) (p : BitVec 12) : eventsOf (runLfsr n p s) = [] := by
  unfold runLfsr
  split <;> rfl

theorem runCall_events (k : BitVec 20) (sel : Speed) : eventsOf (runCall k sel s) = [] := by
  cases sel with
  | normal => rfl
  | fast => exact planRegs_map_events rfl

theorem runRet_events (sel : Speed) : eventsOf (runRet sel s) = [] := by
  cases sel <;> rfl

/-- R345: the instructions that access no operand. -/
def accessesNoOperand : Instr → Bool
  | .addlw _ | .sublw _ | .daw | .andlw _ | .iorlw _ | .xorlw _ | .movlw _ | .movlb _ | .lfsr _ _ | .mullw _ => true
  | .bra _ | .bz _ | .bnz _ | .bc _ | .bnc _ | .bov _ | .bnov _ | .bn _ | .bnn _ | .goto _ | .call _ _ | .rcall _ => true
  | .retfie _ | .ret _ | .retlw _ | .push | .pop | .tblrd | .tblrdPostInc | .tblrdPostDec | .tblrdPreInc => true
  | .tblwt | .tblwtPostInc | .tblwtPostDec | .tblwtPreInc | .nop | .sleep | .clrwdt | .reset => true
  | _ => false

/-- R345: they emit no data event. -/
theorem dataEvents_of_no_operand {i : Instr} (hi : accessesNoOperand i = true) : dataEvents i s = [] := by
  unfold dataEvents
  cases i
  case addlw | sublw | andlw | iorlw | xorlw =>
    simp only [runInstr, runAddlw, runSublw, runAndlw, runIorlw, runXorlw]
    exact runLiteral_events
  case bz | bnz | bc | bnc | bov | bnov | bn | bnn =>
    simp only [runInstr, runBz, runBnz, runBc, runBnc, runBov, runBnov, runBn, runBnn]
    exact runBranch_events
  case daw | mullw => exact planRegs_map_events rfl
  case movlw | movlb | push | pop | tblrd | tblrdPostInc | tblrdPostDec | tblrdPreInc | tblwt | tblwtPostInc | tblwtPostDec |
      tblwtPreInc | nop | sleep | clrwdt => exact runState_events _
  case bra | goto | rcall | retfie | retlw | reset => rfl
  case lfsr n p => exact runLfsr_events n p
  case call k sel => exact runCall_events k sel
  case ret sel => exact runRet_events sel
  all_goals cases hi

theorem accessesNoOperand_of_mem {k : Byte} {k4 : BitVec 4} {g : BitVec 2} {p : DAddr} {n : BitVec 11} {k20 : BitVec 20} {sel : Speed}
    {i : Instr}
    (hi : i ∈ [.addlw k, .sublw k, .daw, .andlw k, .iorlw k, .xorlw k, .movlw k, .movlb k4, .lfsr g p, .mullw k, .bra n, .bz k, .bnz k,
      .bc k, .bnc k, .bov k, .bnov k, .bn k, .bnn k, .goto k20, .call k20 sel, .rcall n, .retfie sel, .ret sel, .retlw k, .push, .pop,
      .tblrd, .tblrdPostInc, .tblrdPostDec, .tblrdPreInc, .tblwt, .tblwtPostInc, .tblwtPostDec, .tblwtPreInc, .nop, .sleep, .clrwdt,
      .reset]) : accessesNoOperand i = true := by
  fin_cases hi <;> rfl

end

/-- Settles O60: the fetches, and the data events of each shape. -/
theorem traceEvents : Obligations.TraceEvents := by
  intro s
  refine ⟨stepEvents_stopped, fun h => ?_, fun i why h => ?_, fun f d a b => ?_, ?_, fun k k4 g p n k20 sel i hi =>
    dataEvents_of_no_operand (accessesNoOperand_of_mem hi)⟩
  · rw [stepEvents_running h, fetchEvents_eq, State.pcPlus_eq]
    rfl
  · rw [dataEvents, h, eventsOf_error]
  · intro addr acc v w c written bitWritten
    refine ⟨fun i needs r => steered_dataEvents, fun i r => incDecSkip_dataEvents, fun h hclash => ⟨?_, ?_, ?_, ?_⟩, fun h => ⟨?_, ?_, ?_⟩,
      fun h i hi => compare_dataEvents hi h, fun hclash => ⟨fun h => ?_, fun h => ⟨?_, ?_⟩⟩⟩
    · rw [← sub8_false]
      exact runModify_events (op := fun v => sub8 0x00#8 v false) h hclash
    · exact runBitModify_writes (fun v m => v &&& ~~~m) h hclash ((getLsbD_clearBit v b b.isLt).trans (if_pos rfl))
    · exact runBitModify_writes (fun v m => v ||| m) h hclash ((getLsbD_setBit v b).trans (if_pos rfl))
    · exact runBitModify_writes (fun v m => v ^^^ m) h hclash ((getLsbD_toggleBit v b).trans (if_pos rfl))
    · exact runBitSkip_events (cond := fun x => !x) h
    · exact runBitSkip_events (cond := fun x => x) h
    · exact runCompareSkip_events (cond := fun _ v => v == 0x00#8) h
    · exact runWrite_events (value := State.w) h hclash
    · exact runWrite_events (value := fun _ => 0x00#8) h hclash
    · exact runWrite_events (value := fun _ => 0xFF#8) h hclash
  · intro fs fd src dst v hfree h hsrc hdst
    exact runMovff_events (planMovff_of_ready hfree h hsrc hdst)

end Sys2Proof.Machine
end
